-- ==== Sys2Proof/Word.lean ====
section
/-! DEFINITION. The widths of the values LZW12D handles (00_scope.md R8; 10_state.md). All are unsigned. -/

namespace Sys2Proof

/-- A 32-bit register (10_state.md R29). -/
abbrev Word := BitVec 32

/-- A byte, an unsigned 8-bit value (R8). -/
abbrev Byte := BitVec 8

/-- CODE16, an entry of the code buffer (30_encoding.md R71). -/
abbrev Code := BitVec 16

/-- A code made from a 3-byte chunk (00_scope.md R5, CODE_BITS). -/
abbrev Code12 := BitVec 12

/-- The width of NEXT (10_state.md R21). -/
abbrev SlotIndex := BitVec 13

/-- A byte string (00_scope.md R10). -/
abbrev Str := List Byte

end Sys2Proof
end

