-- ==== Sys2Proof/Config.lean ====
section
/-! DEFINITION. The fixed constants of the algorithm (00_scope.md R5), the implementation parameters (R6, 20_memory.md
R56) and the free values the spec leaves open (93_implementation_defined.md U7 to U12). -/

namespace Sys2Proof.Config

/-- BASE: the number of base-alphabet entries (R5). -/
def base : Nat := 256

/-- DICT_CAP: the dictionary never holds more entries than this (R5). -/
def dictCap : Nat := 4096

/-- MAX_ENTRY_LEN (00_scope.md R7, 41_decoder.md R111). -/
def maxEntryLen : Nat := 3841

/-- PARAM_IN_MAX in `State.reset` only. DESIGN CHOICE (log 4): IN_MAX is OPEN (R6), and the largest value R6 allows is
taken, so that every input length is accepted. Every statement holds for every value of the field. -/
def resetInMax : Word := 0xFFFFFFFF

/-- PARAM_OUT_MAX in `State.reset` only. DESIGN CHOICE (log 4), as `resetInMax`. -/
def resetOutMax : Word := 0xFFFFFFFF

/-- REG_BASE, OPEN (20_memory.md R56, U21): where the platform maps REG. No rule of the block reads it (log 24). -/
opaque regBase : Nat

/-- IN_BASE, OPEN (R56, U21). -/
opaque inBase : Nat

/-- OUT_BASE, OPEN (R56, U21). -/
opaque outBase : Nat

/-- What an IN byte holds that the host has not written since block reset number `gen` (20_memory.md R47): unspecified
and stable, so a function of the block-reset count and the address alone (log 6). -/
opaque freeInByte (gen addr : Nat) : Byte

/-- The k-th draw of a host read of OUT whose byte is unspecified (20_memory.md R53, 42_host.md R124; log 7). -/
opaque freeOutByte (k : Nat) : Byte

/-- What a CODES entry holds that no step has written since the contents became unspecified (10_state.md R19; log 8). -/
opaque freeCode (epoch index : Nat) : Code

/-- What a DICT slot holds that no step has written since the contents became unspecified (10_state.md R20; log 8). -/
opaque freeSlot (epoch slot : Nat) : Str

/-- NEXT after the event number `epoch` that leaves it unspecified (60_exceptions.md R135, 70_reset_and_hazards.md R154;
log 9). -/
opaque freeNext (epoch : Nat) : SlotIndex

/-- PREV after the event number `epoch` that leaves it unspecified (R135, R154; log 9). Any byte string. -/
opaque freePrev (epoch : Nat) : Str

/-- RP after an error (R135; log 9). -/
opaque freeRp (epoch : Nat) : Word

/-- CUR after an error (R135; log 9). DESIGN CHOICE: any 32-bit value, not bounded by N as 10_state.md R17 bounds CUR "at
all times"; R135, which leaves CUR unspecified, is taken over that bound. -/
opaque freeCur (epoch : Nat) : Word

/-- OLEN after an error (R135; log 9). DESIGN CHOICE: any 32-bit value, not bounded by OUT_MAX as 10_state.md R23 bounds
OLEN; R135, which leaves OLEN unspecified, is taken over that bound. -/
opaque freeOlen (epoch : Nat) : Word

end Sys2Proof.Config
end

