-- ==== Sys2Proof/Syntax.lean ====
section
/-! DEFINITION. The operations of the block and of its host, one constructor per row of spec/opcode_table.json; the
words they are decoded from; and the statements of host scripts (30_encoding.md R78, R79). -/

namespace Sys2Proof

/-- One constructor per row of spec/opcode_table.json. An operation carries the fields its word encodes; the rows of
format NONE carry none. -/
inductive Instr where
  /-- UNPACK3 (R84): the two codes of a CHUNK24. -/
  | unpack3 (a b : Code12)
  /-- UNPACK_TAIL2 (R87): the code of a TAIL16. -/
  | unpackTail2 (c : Code)
  /-- UNPACK_TAIL1 (R88): the byte of a TAIL8, ignored. -/
  | unpackTail1 (x : Byte)
  /-- UNPACK_END (R86). -/
  | unpackEnd
  /-- DEC_EMPTY (R96). -/
  | decEmpty
  /-- DEC_INIT (R97): `first_code`, a literal. -/
  | decInit (c : Byte)
  /-- DEC_INIT_UNDEF (R99). -/
  | decInitUndef (c : Code)
  /-- DEC_STEP_DEFINED (R100). -/
  | decStepDefined (c : Code)
  /-- DEC_STEP_SELFREF (R101). -/
  | decStepSelfref (c : Code)
  /-- DEC_STEP_UNDEF (R102). -/
  | decStepUndef (c : Code)
  /-- DEC_DICT_RESET (R103). -/
  | decDictReset
  /-- DEC_DONE (R104). -/
  | decDone
  /-- HOST_RD32 (R117). -/
  | hostRd32 (off : Word)
  /-- HOST_WR32 (R118): the writes that no more particular row names. -/
  | hostWr32 (off v : Word)
  /-- HOST_START (R122): a CTRL write with v[1:0] = 0b01; `ign` is v[31:2], ignored. -/
  | hostStart (ign : BitVec 30)
  /-- HOST_ABORT (R123): a CTRL write with v[1] = 1; `ign` is v[31:2] and `start` is v[0], both ignored. -/
  | hostAbort (ign : BitVec 30) (start : BitVec 1)
  /-- HOST_WR_IN_LEN (R119). -/
  | hostWrInLen (v : Word)
  /-- HOST_WRIN (R120). -/
  | hostWrin (a : Word) (b : Byte)
  /-- HOST_RDIN (R121). -/
  | hostRdin (a : Word)
  /-- HOST_RDOUT (R124). -/
  | hostRdout (a : Word)
  deriving DecidableEq, Repr

/-- A host access, one statement of 30_encoding.md R78 with its operands. -/
inductive HostAccess where
  /-- `RD32 off -> x`. -/
  | rd32 (off : Word)
  /-- `WR32 off, v`. -/
  | wr32 (off v : Word)
  /-- `WRIN a, b`. -/
  | wrin (a : Word) (b : Byte)
  /-- `RDIN a -> x`. -/
  | rdin (a : Word)
  /-- `RDOUT a -> x`. -/
  | rdout (a : Word)
  deriving DecidableEq, Repr

/-- A statement of a host script: an access, or the pseudo-statement `WAIT -> s` of R79, which repeats a read of STATUS. -/
inductive HostStmt where
  | access (a : HostAccess)
  | wait
  deriving DecidableEq, Repr

/-- Who moves next in the total order of steps (20_memory.md R57). The platform's block reset (70_reset_and_hazards.md
R152) is an event of that order. -/
inductive Turn where
  | block
  | host
  | blockReset
  deriving DecidableEq, Repr

/-- What is decoded: a word together with where it stands. The bits of a word do not select an operation by themselves
(30_encoding.md R81), so each constructor is one selection context of 40_unpacker.md R83, 41_decoder.md R94 or
42_host.md R116. -/
inductive Fetch where
  /-- PHASE = UNPACK: the bytes of IN not yet consumed, at least the first three of them when there are three (R83). -/
  | stream (bytes : List Byte)
  /-- PHASE = DEC_INIT and CUR = N: no code is read (R94). -/
  | noFirstCode
  /-- PHASE = DEC_INIT and CUR < N: the code CODES[CUR] (R73). -/
  | firstCode (c : Code)
  /-- PHASE = DEC_LOOP and CUR = N: no code is read (R94). -/
  | endOfCodes
  /-- PHASE = DEC_LOOP, CUR < N and NEXT = 4096: no code is read (R94). -/
  | dictFull
  /-- PHASE = DEC_LOOP, CUR < N and NEXT not 4096: NEXT and the code CODES[CUR] (R74). -/
  | loopCode (next : SlotIndex) (c : Code)
  /-- A host access (R116). -/
  | host (a : HostAccess)
  deriving DecidableEq, Repr

/-- Why a fetched word is rejected. -/
inductive Reject where
  /-- A main-loop code is presented with NEXT above 4096, a value R21 excludes: no operation of R74 is selected. -/
  | nextOutOfRange
  deriving DecidableEq, Repr

end Sys2Proof
end

