-- ==== Sys2Proof/WellFormed.lean ====
section
/-! DEFINITION. Which instructions some word encodes: the operand ranges that the selection conditions of 30_encoding.md
R73, R74 and R76 leave to each row. -/

namespace Sys2Proof

/-- A code that can be the first code's error case: not a literal (R73). -/
def Code.notLiteral (c : Code) : Bool := decide (256 ≤ c.toNat)

/-- A code below some NEXT of a main-loop step, so below 4095 (R74: c < NEXT and NEXT < 4096). -/
def Code.canBeDefined (c : Code) : Bool := decide (c.toNat < 4095)

/-- A code equal to some NEXT of a main-loop step (R74: 256 <= NEXT < 4096). -/
def Code.canBeSelfref (c : Code) : Bool := decide (256 ≤ c.toNat ∧ c.toNat < 4096)

/-- A code above some NEXT of a main-loop step (R74: NEXT >= 256). -/
def Code.canBeUndef (c : Code) : Bool := decide (256 < c.toNat)

/-- A register write that no more particular row names: not IN_LEN (R119), and not a CTRL write with a command bit
(R76). -/
def plainWrite (off v : Word) : Bool :=
  decide (off ≠ 0x08) && (decide (off ≠ 0x00) || decide (v.extractLsb' 0 2 = 0#2))

/-- Some word, in some selection context, decodes to the instruction. -/
def Instr.wellFormed : Instr → Bool
  | .unpack3 _ _ => true
  | .unpackTail2 _ => true
  | .unpackTail1 _ => true
  | .unpackEnd => true
  | .decEmpty => true
  | .decInit _ => true
  | .decInitUndef c => c.notLiteral
  | .decStepDefined c => c.canBeDefined
  | .decStepSelfref c => c.canBeSelfref
  | .decStepUndef c => c.canBeUndef
  | .decDictReset => true
  | .decDone => true
  | .hostRd32 _ => true
  | .hostWr32 off v => plainWrite off v
  | .hostStart _ => true
  | .hostAbort _ _ => true
  | .hostWrInLen _ => true
  | .hostWrin _ _ => true
  | .hostRdin _ => true
  | .hostRdout _ => true

end Sys2Proof
end

