-- ==== Sys2Proof/Decode.lean ====
section
/-! DEFINITION. From words to operations and back: the code assembly and packing of 30_encoding.md R66 to R72, the
selection of an operation (R65, R73, R74, R76), and the encoder. -/

namespace Sys2Proof

/-- `code_a = (b0 << 4) | (b1 >> 4)` (R67). -/
def codeA (b0 b1 : Byte) : Code12 := (b0.setWidth 12 <<< 4) ||| (b1 >>> 4).setWidth 12

/-- `code_b = ((b1 & 0x0F) << 8) | b2` (R68). -/
def codeB (b1 b2 : Byte) : Code12 := ((b1 &&& 0x0F#8).setWidth 12 <<< 8) ||| b2.setWidth 12

/-- `(p << 8) | u` (R69). -/
def tailCode (p u : Byte) : Code := (p.setWidth 16 <<< 8) ||| u.setWidth 16

/-- The chunk of a pair of codes, in the encoder's direction (R72). -/
def chunkBytes (a b : Code12) : List Byte :=
  [(a >>> 4).setWidth 8, ((a &&& 0xF#12) <<< 4 ||| b >>> 8).setWidth 8, (b &&& 0xFF#12).setWidth 8]

/-- The two bytes of a final odd code (R72). -/
def tailBytes (c : Code) : List Byte := [(c >>> 8).setWidth 8, (c &&& 0xFF#16).setWidth 8]

/-- The value written to CTRL by START, with the ignored bits v[31:2] (R76). -/
def startWord (ign : BitVec 30) : Word := (ign.setWidth 32 <<< 2) ||| 1#32

/-- The value written to CTRL by ABORT, with the ignored bits v[31:2] and v[0] (R76). -/
def abortWord (ign : BitVec 30) (start : BitVec 1) : Word := (ign.setWidth 32 <<< 2) ||| 2#32 ||| start.setWidth 32

/-- The format of the next word of the stream depends only on the number of bytes not yet consumed (R65, R83). -/
def decodeStream : List Byte → Instr
  | [] => .unpackEnd
  | [x] => .unpackTail1 x
  | [p, u] => .unpackTail2 (tailCode p u)
  | b0 :: b1 :: b2 :: _ => .unpack3 (codeA b0 b1) (codeB b1 b2)

/-- The first code of a generation (R73). -/
def decodeFirstCode (c : Code) : Instr :=
  if c &&& 0xFF00#16 = 0#16 then .decInit (c.setWidth 8) else .decInitUndef c

/-- A main-loop code, by comparison with NEXT (R74). -/
def decodeLoopCode (next : SlotIndex) (c : Code) : Except Reject Instr :=
  if next.toNat < Config.dictCap then
    if c.toNat < next.toNat then .ok (.decStepDefined c)
    else if c.toNat = next.toNat then .ok (.decStepSelfref c)
    else .ok (.decStepUndef c)
  else .error .nextOutOfRange

/-- A write of `v` to REG offset `off` (R76, 42_host.md R118): ABORT before START. -/
def decodeWr32 (off v : Word) : Instr :=
  if off = 0x00 then
    if v.extractLsb' 1 1 = 1#1 then .hostAbort (v.extractLsb' 2 30) (v.extractLsb' 0 1)
    else if v.extractLsb' 0 1 = 1#1 then .hostStart (v.extractLsb' 2 30)
    else .hostWr32 off v
  else if off = 0x08 then .hostWrInLen v
  else .hostWr32 off v

/-- A host access (42_host.md R116 to R124). -/
def decodeHost : HostAccess → Instr
  | .rd32 off => .hostRd32 off
  | .wr32 off v => decodeWr32 off v
  | .wrin a b => .hostWrin a b
  | .rdin a => .hostRdin a
  | .rdout a => .hostRdout a

/-- The decoder: total, rejecting by name. -/
def decode : Fetch → Except Reject Instr
  | .stream bytes => .ok (decodeStream bytes)
  | .noFirstCode => .ok .decEmpty
  | .firstCode c => .ok (decodeFirstCode c)
  | .endOfCodes => .ok .decDone
  | .dictFull => .ok .decDictReset
  | .loopCode next c => decodeLoopCode next c
  | .host a => .ok (decodeHost a)

/-- The encoder: the word of an instruction in its context, written from the rows of the opcode table. The main-loop
rows do not encode NEXT, so it is a parameter. -/
def encodeAt (next : SlotIndex) : Instr → Fetch
  | .unpack3 a b => .stream (chunkBytes a b)
  | .unpackTail2 c => .stream (tailBytes c)
  | .unpackTail1 x => .stream [x]
  | .unpackEnd => .stream []
  | .decEmpty => .noFirstCode
  | .decInit c => .firstCode (c.setWidth 16)
  | .decInitUndef c => .firstCode c
  | .decStepDefined c => .loopCode next c
  | .decStepSelfref c => .loopCode next c
  | .decStepUndef c => .loopCode next c
  | .decDictReset => .dictFull
  | .decDone => .endOfCodes
  | .hostRd32 off => .host (.rd32 off)
  | .hostWr32 off v => .host (.wr32 off v)
  | .hostStart ign => .host (.wr32 0x00 (startWord ign))
  | .hostAbort ign start => .host (.wr32 0x00 (abortWord ign start))
  | .hostWrInLen v => .host (.wr32 0x08 v)
  | .hostWrin a b => .host (.wrin a b)
  | .hostRdin a => .host (.rdin a)
  | .hostRdout a => .host (.rdout a)

/-- The condition on NEXT under which a main-loop row is selected (R74); no other row has one. -/
def Instr.selectedAt (next : SlotIndex) : Instr → Bool
  | .decStepDefined c => decide (next.toNat < 4096 ∧ c.toNat < next.toNat)
  | .decStepSelfref c => decide (next.toNat < 4096 ∧ c.toNat = next.toNat)
  | .decStepUndef c => decide (next.toNat < 4096 ∧ next.toNat < c.toNat)
  | _ => true

/-- One NEXT of a main-loop step at which a well-formed instruction is selected. -/
def Instr.someNext : Instr → SlotIndex
  | .decStepDefined c => BitVec.ofNat 13 (max 256 (c.toNat + 1))
  | .decStepSelfref c => c.setWidth 13
  | _ => 256#13

/-- The words of a well-formed instruction. -/
def encode (i : Instr) : Fetch := encodeAt i.someNext i

/-- The words a context can present: NEXT of a main-loop code is 256 to 4095 (R74); every other word is legal (R75). -/
def Fetch.inRange : Fetch → Bool
  | .loopCode next _ => decide (256 ≤ next.toNat ∧ next.toNat < 4096)
  | _ => true

/-- NEXT as the context gives it; 256 where the context has none. -/
def Fetch.nextOf : Fetch → SlotIndex
  | .loopCode next _ => next
  | _ => 256#13

/-- The part of a context that one operation reads: at most three bytes of the stream (R65). -/
def Fetch.word : Fetch → Fetch
  | .stream bytes => .stream (bytes.take 3)
  | f => f

/-- The bytes an `nbits`-bit word occupies in the stream, its first byte most significant (R66, R69). -/
def streamBytes : (count : Nat) → (w : Nat) → List Byte
  | 0, _ => []
  | k + 1, w => BitVec.ofNat 8 (w >>> (8 * k)) :: streamBytes k w

/-- The context in which a bare word of the opcode table is read (log 18). The table names no context, so one is fixed
per width: 24, 8 and 0 bits are what is left of the input stream (R65); 16 bits are a CODE16 at DEC_INIT, the one context
in which the bits alone select (R73); 32 bits are a value written to CTRL (R76). -/
def tableFetch (nbits w : Nat) : Option Fetch :=
  match nbits with
  | 0 => some (.stream [])
  | 8 => some (.stream (streamBytes 1 w))
  | 16 => some (.firstCode (BitVec.ofNat 16 w))
  | 24 => some (.stream (streamBytes 3 w))
  | 32 => some (.host (.wr32 0x00 (BitVec.ofNat 32 w)))
  | _ => none

/-- The instruction the decoder reads from a word numbered as spec/opcode_table.json numbers it. -/
def decodeTableWord (nbits w : Nat) : Option Instr :=
  match tableFetch nbits w with
  | some f => (decode f).toOption
  | none => none

end Sys2Proof
end

