-- ==== Sys2Proof/Machine/State.lean ====
section
/-! DEFINITION. Everything 10_state.md gives the machine, as plain data, with the reasons a step can stop and the state
after block reset. -/

namespace Sys2Proof.Machine

/-- PHASE (10_state.md R15). -/
inductive Phase where
  | idle
  | unpack
  | decInit
  | decLoop
  | done
  | error
  deriving DecidableEq, Repr

/-- A memory of the block (20_memory.md R43): the addresses written since the contents were last unspecified, strictly
rising, each with its content. An unlisted address holds no value of its own; what a read of one gives is said at the
read (log 6, 7, 8). -/
abbrev Memory (α : Type) := List (Nat × α)

/-- The error kinds (60_exceptions.md R132). -/
inductive ErrorKind where
  | malformedInput
  | undefinedCodeReference
  | outputOverflow
  | inputLengthRange
  deriving DecidableEq, Repr

/-- The architectural state (10_state.md), the agents outside the block, and the indexes of the free values. -/
structure State where
  /-- PHASE (R15). -/
  phase : Phase
  /-- RP (R16). -/
  rp : Word
  /-- CUR (R17). -/
  cur : Word
  /-- N, read as CODE_COUNT (R18, R34). -/
  n : Word
  /-- CODES (R19). -/
  codes : Memory Code
  /-- DICT (R20). -/
  dict : Memory Str
  /-- NEXT (R21). -/
  next : SlotIndex
  /-- PREV (R22). -/
  prev : Str
  /-- OLEN (R23). -/
  olen : Word
  /-- IN (R24, R45): a list of `Host.Cell`. -/
  inMem : Memory Byte
  /-- OUT (R24, R46): a list of `Host.Cell`. -/
  outMem : Memory Byte
  /-- TAIL_DROPPED (R25). -/
  tailDropped : Bool
  /-- ERR (R26). -/
  err : BitVec 4
  /-- ERR_POS (R26). -/
  errPos : Word
  /-- ERR_VAL (R26). -/
  errVal : Word
  /-- DICT_RESETS (R27). -/
  dictResets : Word
  /-- IN_LEN (R32). -/
  inLen : Word
  /-- PARAM_IN_MAX, the parameter IN_MAX (R38, 00_scope.md R6). -/
  inMax : Word
  /-- PARAM_OUT_MAX, the parameter OUT_MAX (R38, R6). -/
  outMax : Word
  /-- The host's variable x: the value its latest read returned (30_encoding.md R78; log 3). -/
  rdata : Word
  /-- The host's remaining statements, the next one first (R78; log 2). -/
  hostProg : List HostStmt
  /-- The agents that move next, the first one first (20_memory.md R57; log 1). -/
  turns : List Turn
  /-- The model's own: how many OUT draws were taken (R53; log 7). -/
  draws : Nat
  /-- The model's own: how often OUT, CODES, DICT, NEXT and PREV became unspecified (log 9). -/
  epoch : Nat
  /-- The model's own: how often IN became unspecified (R47; log 6). -/
  inGen : Nat
  deriving DecidableEq, Repr

/-- Why the machine stops. Both are raised only in states that no run from `State.reset` reaches; the block itself never
stops (41_decoder.md R115). -/
inductive Fault where
  /-- Raised by a block turn in which no selection condition of 40_unpacker.md R83 or 41_decoder.md R94 holds (RP above
  IN_LEN, CUR above N, or NEXT above 4096). Safe: the spec gives such a state no step (log 12). -/
  | noOperation
  /-- Raised by a block access outside IN, CODES or DICT, which 20_memory.md R52 says never happens. Safe (log 13). -/
  | outsideSpace
  deriving DecidableEq, Repr

/-- Why an instruction has no meaning. -/
inductive Refusal where
  /-- Raised by an arm of `exec` whose instruction is not modelled yet; safe. No arm raises it. -/
  | notModelled (mnemonic : String)
  deriving DecidableEq, Repr

/-- What a step answers. -/
abbrev Result := Host.Outcome State Fault Refusal

/-- The state after block reset (10_state.md R41, 70_reset_and_hazards.md R152) of a block whose parameters are `inMax`
and `outMax`. NEXT and PREV, which R41 leaves unspecified, hold the values of log 5. -/
def State.resetWith (inMax outMax : Word) : State where
  phase := .idle
  rp := 0
  cur := 0
  n := 0
  codes := []
  dict := []
  next := 0
  prev := [0x00]
  olen := 0
  inMem := []
  outMem := []
  tailDropped := false
  err := 0
  errPos := 0
  errVal := 0
  dictResets := 0
  inLen := 0
  inMax := inMax
  outMax := outMax
  rdata := 0
  hostProg := []
  turns := []
  draws := 0
  epoch := 0
  inGen := 0

/-- The machine right after block reset, with the parameter values of log 4. -/
def State.reset : State := State.resetWith Config.resetInMax Config.resetOutMax

end Sys2Proof.Machine
end

