-- ==== Sys2Proof/Machine/Flags.lean ====
section
/-! DEFINITION. The flags and the host's view of the registers: BUSY, STATUS and its fields (10_state.md R31, R40), the
error codes (60_exceptions.md R132), and what a read of each REG offset returns (R30 to R39). -/

namespace Sys2Proof.Machine

/-- STATUS.STATE (R15, R31). -/
def Phase.code : Phase → BitVec 2
  | .idle => 0#2
  | .unpack => 1#2
  | .decInit => 1#2
  | .decLoop => 1#2
  | .done => 2#2
  | .error => 3#2

/-- STATUS.STATE = BUSY (R31). -/
def Phase.busy : Phase → Bool
  | .unpack => true
  | .decInit => true
  | .decLoop => true
  | .idle => false
  | .done => false
  | .error => false

/-- STATUS.STATE is DONE or ERROR: a run has ended (42_host.md R126). -/
def Phase.ended : Phase → Bool
  | .done => true
  | .error => true
  | .idle => false
  | .unpack => false
  | .decInit => false
  | .decLoop => false

/-- The code of an error kind in STATUS.ERR (60_exceptions.md R132). -/
def ErrorKind.code : ErrorKind → BitVec 4
  | .malformedInput => 1#4
  | .undefinedCodeReference => 2#4
  | .outputOverflow => 3#4
  | .inputLengthRange => 4#4

/-- STATUS (R31): STATE in bits 1:0, TAIL_DROPPED in bit 2, ERR in bits 7:4, every other bit 0. -/
def State.status (s : State) : Word :=
  s.phase.code.setWidth 32 ||| ((if s.tailDropped then 1#32 else 0#32) <<< 2) ||| (s.err.setWidth 32 <<< 4)

/-- OUT_LEN (R33): OLEN in DONE, 0 in every other phase. -/
def State.outLen (s : State) : Word :=
  match s.phase with
  | .done => s.olen
  | _ => 0

/-- What HostRead32 returns (42_host.md R117): the register at the offset (R29 to R38); 0 for CTRL, and for an offset
that is unmapped or no multiple of 4 (R39). -/
def State.regRead (s : State) (off : Word) : Word :=
  if off = 0x04 then s.status
  else if off = 0x08 then s.inLen
  else if off = 0x0C then s.outLen
  else if off = 0x10 then s.n
  else if off = 0x14 then s.dictResets
  else if off = 0x18 then s.errPos
  else if off = 0x1C then s.errVal
  else if off = 0x20 then s.inMax
  else if off = 0x24 then s.outMax
  else 0

end Sys2Proof.Machine
end

