-- ==== Sys2Proof/Machine/Ops.lean ====
section
/-! DEFINITION. The shared operations over memories and registers: reading and writing a memory, the sizes of the spaces,
the error entry (60_exceptions.md R135) and what clears it (42_host.md R122, R123), block reset, the code buffer, BuildBase,
Append and the growth rule (41_decoder.md R95, R110, R105). -/

namespace Sys2Proof.Machine

/-! ### Memories -/

/-- The canonical form of a memory: its addresses strictly rise. -/
abbrev Memory.wf {α : Type} (m : Memory α) : Prop := (m.map Prod.fst).Pairwise (· < ·)

/-- Every listed address is below `bound`. -/
abbrev Memory.below {α : Type} (m : Memory α) (bound : Nat) : Prop := ∀ e ∈ m, e.1 < bound

/-- The content at an address; none where nothing was written. -/
def Memory.read {α : Type} : Memory α → Nat → Option α
  | [], _ => none
  | (k, v) :: rest, a => if k = a then some v else Memory.read rest a

/-- A write of one unit: it replaces the content at the address and keeps the addresses rising. -/
def Memory.write {α : Type} : Memory α → Nat → α → Memory α
  | [], a, x => [(a, x)]
  | (k, v) :: rest, a, x =>
    if a < k then (a, x) :: (k, v) :: rest
    else if a = k then (a, x) :: rest
    else (k, v) :: Memory.write rest a x

/-- Writes of consecutive units from an address up (R110: the bytes of a chunk in string order). -/
def Memory.writeAll {α : Type} : Memory α → Nat → List α → Memory α
  | m, _, [] => m
  | m, a, x :: xs => Memory.writeAll (Memory.write m a x) (a + 1) xs

/-! ### Sizes -/

/-- N(L), the number of codes the BitUnpacker makes from L bytes (00_scope.md R7, 40_unpacker.md R89). -/
def codeCount (L : Nat) : Nat := 2 * (L / 3) + (if L % 3 = 2 then 1 else 0)

/-- N_MAX (R7). -/
def State.nMax (s : State) : Nat := codeCount s.inMax.toNat

/-! ### Contents that become unspecified -/

/-- OUT, CODES, DICT, NEXT and PREV become unspecified (42_host.md R123, 70_reset_and_hazards.md R154). The memories list
nothing, and NEXT and PREV hold free values of a new epoch (log 9). -/
def State.forget (s : State) : State :=
  { s with
    outMem := [], codes := [], dict := []
    next := Config.freeNext s.epoch, prev := Config.freePrev s.epoch, epoch := s.epoch + 1 }

/-! ### The error entry and what leaves the error state -/

/-- `raise Error(kind, pos, val)` (60_exceptions.md R135): the record, PHASE = ERROR, and everything the entry leaves
unspecified. N, TAIL_DROPPED, DICT_RESETS and IN_LEN keep their values. DESIGN CHOICE (log 9): the free values of CUR and
OLEN do not keep the bounds CUR <= N of R17 and OLEN <= OUT_MAX of R23. -/
def State.raise (kind : ErrorKind) (pos val : Word) (s : State) : State :=
  { s.forget with
    err := kind.code, errPos := pos, errVal := val, phase := .error
    rp := Config.freeRp s.epoch, cur := Config.freeCur s.epoch, olen := Config.freeOlen s.epoch }

/-- The clearing of the error record and of the run registers, which START, ABORT and block reset share (42_host.md R122,
R123; 70_reset_and_hazards.md R154). There is no other return from an error (60_exceptions.md R143). -/
def State.clearRun (s : State) : State :=
  { s with
    tailDropped := false, err := 0, errPos := 0, errVal := 0, dictResets := 0
    rp := 0, n := 0, cur := 0, olen := 0 }

/-- START with IN_LEN > IN_MAX (42_host.md R122, 60_exceptions.md R134): InputLengthRange, 0, 0. RP, N, CUR and OLEN are 0
afterwards, as the START column of 70_reset_and_hazards.md R154 says; taking it over R135, which leaves RP, CUR and OLEN
unspecified, is DEDUCED (log 10). -/
def refuseRun (s : State) : State :=
  { s.clearRun.raise .inputLengthRange 0 0 with rp := 0, cur := 0, olen := 0 }

/-- START (42_host.md R122): ignored while BUSY; InputLengthRange when IN_LEN > IN_MAX. -/
def startRun (s : State) : State :=
  if s.phase.busy then s
  else if s.inMax.toNat < s.inLen.toNat then refuseRun s
  else { s.clearRun.forget with phase := .unpack }

/-- ABORT (42_host.md R123): IN and IN_LEN keep their values. -/
def abortRun (s : State) : State := { s.clearRun.forget with phase := .idle }

/-- WriteInLen (42_host.md R119): ignored while BUSY. -/
def writeInLen (v : Word) (s : State) : State := if s.phase.busy then s else { s with inLen := v }

/-- Block reset (70_reset_and_hazards.md R152, 10_state.md R41), as an event of the order of steps: IN_LEN is 0 and IN
becomes unspecified too. The parameters, and what lies outside the block, stay (log 22). -/
def blockReset (s : State) : State :=
  { s.clearRun.forget with phase := .idle, inLen := 0, inMem := [], inGen := s.inGen + 1 }

/-! ### The code buffer -/

/-- `CODES[N] <- c; N <- N + 1`. -/
def State.pushCode (c : Code) (s : State) : State :=
  { s with codes := Memory.write s.codes s.n.toNat c, n := s.n + 1 }

/-! ### The dictionary and the output -/

/-- Slots 0 to 255 of the base alphabet, DICT[k] = [k] (41_decoder.md R95). -/
def baseAlphabet : Memory Str := (List.range 256).map fun k => (k, [BitVec.ofNat 8 k])

/-- BuildBase (R95). Slots above 255 keep whatever they hold (R107). -/
def State.buildBase (s : State) : State :=
  { s with dict := baseAlphabet ++ s.dict.filter (fun e => decide (256 ≤ e.1)), next := 256 }

/-- The bytes of a chunk appended at OLEN (R110). -/
def State.appendOut (chunk : Str) (s : State) : State :=
  { s with
    outMem := Memory.writeAll s.outMem s.olen.toNat chunk
    olen := s.olen + BitVec.ofNat 32 chunk.length }

/-- Append(chunk, c) (R110), then the rest of the step: OutputOverflow, with nothing of the chunk appended, when the
chunk does not fit. -/
def appendThen (chunk : Str) (c : Code) (s : State) (rest : State → Result) : Result :=
  if s.outMax.toNat < s.olen.toNat + chunk.length then
    .next (s.raise .outputOverflow s.cur (c.setWidth 32))
  else rest (s.appendOut chunk)

/-- `DICT[NEXT] <- PREV ++ [first]; NEXT <- NEXT + 1; PREV <- chunk; CUR <- CUR + 1` (R105). -/
def State.grow (first : Byte) (chunk : Str) (s : State) : State :=
  { s with
    dict := Memory.write s.dict s.next.toNat (s.prev ++ [first])
    next := s.next + 1, prev := chunk, cur := s.cur + 1 }

/-- The end of a main-loop step on code `c` (R100, R101). The access to chunk[0] raises MalformedInput on an empty chunk,
the guard of R113; a NEXT above 4095 names no slot. -/
def defineEntry (chunk : Str) (c : Code) (s : State) : Result :=
  match chunk with
  | [] => .next (s.raise .malformedInput s.cur (c.setWidth 32))
  | first :: _ =>
    if s.next.toNat < Config.dictCap then .next (s.grow first chunk) else .fault .outsideSpace

/-! ### The agents -/

/-- The value a host read returns, in the host's variable (30_encoding.md R78; log 3). -/
def State.answer (v : Word) (s : State) : State := { s with rdata := v }

/-- One OUT draw (20_memory.md R53; log 7). -/
def State.drawOut (s : State) : State :=
  { s with rdata := (Config.freeOutByte s.draws).setWidth 32, draws := s.draws + 1 }

/-- The first entry of `turns` is used up. -/
def State.popTurn (s : State) : State := { s with turns := s.turns.tail }

/-- The host goes on with `prog`. -/
def State.setHostProg (prog : List HostStmt) (s : State) : State := { s with hostProg := prog }

/-- Who moves: the first entry of `turns`; when there is none, the block while BUSY and the host otherwise (log 1). -/
def State.mover (s : State) : Turn :=
  match s.turns with
  | t :: _ => t
  | [] => if s.phase.busy then .block else .host

end Sys2Proof.Machine
end

