-- ==== Sys2Proof/Machine/Operands.lean ====
section
/-! DEFINITION. Where operands come from: bytes of IN (40_unpacker.md R83), codes of CODES and strings of DICT
(41_decoder.md R94, R100), and the word a block turn presents to the decoder. -/

namespace Sys2Proof.Machine

/-- An IN byte below IN_MAX: written, or unspecified and stable (20_memory.md R47; log 6). -/
def State.inByte (s : State) (a : Nat) : Byte :=
  (Memory.read s.inMem a).getD (Config.freeInByte s.inGen a)

/-- `count` consecutive IN bytes from address `a` up. -/
def State.inBytes (s : State) : (a count : Nat) → List Byte
  | _, 0 => []
  | a, k + 1 => s.inByte a :: s.inBytes (a + 1) k

/-- CODES[k]: written, or unspecified (10_state.md R19; log 8). -/
def State.code (s : State) (k : Nat) : Code :=
  (Memory.read s.codes k).getD (Config.freeCode s.epoch k)

/-- DICT[k]: written, or unspecified (10_state.md R20; log 8). -/
def State.slot (s : State) (k : Nat) : Str :=
  (Memory.read s.dict k).getD (Config.freeSlot s.epoch k)

/-- The next word of the input stream: what is left of IN below IN_LEN, up to three bytes (40_unpacker.md R83). -/
def fetchStream (s : State) : Except Fault Fetch :=
  if s.inLen.toNat < s.rp.toNat then .error .noOperation
  else
    let count := min 3 (s.inLen.toNat - s.rp.toNat)
    if s.inMax.toNat < s.rp.toNat + count then .error .outsideSpace
    else .ok (.stream (s.inBytes s.rp.toNat count))

/-- The code at CUR, or the end of the code sequence; CUR above N is a value 10_state.md R17 excludes. -/
def fetchCode (s : State) (atEnd : Fetch) (withCode : Code → Fetch) : Except Fault Fetch :=
  if s.cur = s.n then .ok atEnd
  else if s.n.toNat < s.cur.toNat then .error .noOperation
  else if s.nMax ≤ s.cur.toNat then .error .outsideSpace
  else .ok (withCode (s.code s.cur.toNat))

/-- What a block turn presents to the decoder; none in IDLE, DONE and ERROR, where the block takes no step
(20_memory.md R58, 70_reset_and_hazards.md R153). The end-of-codes test comes before the full-dictionary test, which
reads no code (41_decoder.md R94, R103). -/
def fetchBlock (s : State) : Option (Except Fault Fetch) :=
  match s.phase with
  | .idle => none
  | .unpack => some (fetchStream s)
  | .decInit => some (fetchCode s .noFirstCode .firstCode)
  | .decLoop =>
    if s.cur.toNat < s.n.toNat ∧ s.next = 4096 then some (.ok .dictFull)
    else some (fetchCode s .endOfCodes (.loopCode s.next))
  | .done => none
  | .error => none

end Sys2Proof.Machine
end

