-- ==== Sys2Proof/Machine/Decoder.lean ====
section
/-! DEFINITION. The LZW dictionary decoder's operations (41_decoder.md). Errors are next states (R135). -/

namespace Sys2Proof.Machine

/-- DEC_EMPTY (R96). -/
def execDecEmpty (s : State) : Result := .next (s.raise .malformedInput 0 0)

/-- DEC_INIT (R97): BuildBase, Append, the placeholder in slot NEXT = 256. -/
def execDecInit (c : Byte) (s : State) : Result :=
  appendThen [c] (c.setWidth 16) s.buildBase fun t =>
    .next { t with
      dict := Memory.write t.dict t.next.toNat [c]
      prev := [c], cur := t.cur + 1, phase := .decLoop }

/-- DEC_INIT_UNDEF (R99). -/
def execDecInitUndef (c : Code) (s : State) : Result :=
  .next (s.raise .undefinedCodeReference s.cur (c.setWidth 32))

/-- DEC_STEP_DEFINED (R100): the chunk is DICT[c]; a code above 4095 names no slot. -/
def execDecStepDefined (c : Code) (s : State) : Result :=
  if c.toNat < Config.dictCap then
    appendThen (s.slot c.toNat) c s (defineEntry (s.slot c.toNat) c)
  else .fault .outsideSpace

/-- DEC_STEP_SELFREF (R101): the chunk is PREV ++ [PREV[0]], and DICT is not read. The access to PREV[0] has the guard of
R113. -/
def execDecStepSelfref (c : Code) (s : State) : Result :=
  match s.prev with
  | [] => .next (s.raise .malformedInput s.cur (c.setWidth 32))
  | first :: _ => appendThen (s.prev ++ [first]) c s (defineEntry (s.prev ++ [first]) c)

/-- DEC_STEP_UNDEF (R102). -/
def execDecStepUndef (c : Code) (s : State) : Result :=
  .next (s.raise .undefinedCodeReference s.cur (c.setWidth 32))

/-- DEC_DICT_RESET (R103): no flag, no error; the rebuild is the next DEC_INIT. -/
def execDecDictReset (s : State) : Result :=
  .next { s with dictResets := s.dictResets + 1, phase := .decInit }

/-- DEC_DONE (R104). -/
def execDecDone (s : State) : Result := .next { s with phase := .done }

end Sys2Proof.Machine
end

