-- ==== Sys2Proof/Machine/HostOps.lean ====
section
/-! DEFINITION. The host's operations (42_host.md). Each is one step and none raises an error of its own (R116). -/

namespace Sys2Proof.Machine

/-- HOST_RD32 (R117). -/
def execHostRd32 (off : Word) (s : State) : Result := .next (s.answer (s.regRead off))

/-- HOST_WR32 (R118), the whole rule: the command and IN_LEN cases are decoded to rows of their own. -/
def execHostWr32 (off v : Word) (s : State) : Result :=
  if off = 0x00 then
    if v.extractLsb' 1 1 = 1#1 then .next (abortRun s)
    else if v.extractLsb' 0 1 = 1#1 then .next (startRun s)
    else .next s
  else if off = 0x08 then .next (writeInLen v s)
  else .next s

/-- HOST_START (R122). -/
def execHostStart (_ign : BitVec 30) (s : State) : Result := .next (startRun s)

/-- HOST_ABORT (R123). -/
def execHostAbort (_ign : BitVec 30) (_start : BitVec 1) (s : State) : Result := .next (abortRun s)

/-- HOST_WR_IN_LEN (R119). -/
def execHostWrInLen (v : Word) (s : State) : Result := .next (writeInLen v s)

/-- HOST_WRIN (R120): ignored while BUSY and at IN_MAX and above. -/
def execHostWrin (a : Word) (b : Byte) (s : State) : Result :=
  if s.phase.busy = false ∧ a.toNat < s.inMax.toNat then
    .next { s with inMem := Memory.write s.inMem a.toNat b }
  else .next s

/-- HOST_RDIN (R121): 0 at IN_MAX and above. -/
def execHostRdin (a : Word) (s : State) : Result :=
  if a.toNat < s.inMax.toNat then .next (s.answer ((s.inByte a.toNat).setWidth 32))
  else .next (s.answer 0)

/-- HOST_RDOUT (R124): 0 at OUT_MAX and above; the byte in DONE below OLEN; otherwise a draw. -/
def execHostRdout (a : Word) (s : State) : Result :=
  if s.outMax.toNat ≤ a.toNat then .next (s.answer 0)
  else if s.phase = .done ∧ a.toNat < s.olen.toNat then
    match Memory.read s.outMem a.toNat with
    | some b => .next (s.answer (b.setWidth 32))
    | none => .next s.drawOut
  else .next s.drawOut

end Sys2Proof.Machine
end

