-- ==== Sys2Proof/Machine/Unpacker.lean ====
section
/-! DEFINITION. The BitUnpacker's operations (40_unpacker.md). -/

namespace Sys2Proof.Machine

/-- UNPACK3 (R84): code_a before code_b. N_MAX bounds CODES (20_memory.md R52). -/
def execUnpack3 (a b : Code12) (s : State) : Result :=
  if s.nMax < s.n.toNat + 2 then .fault .outsideSpace
  else .next { (s.pushCode (a.setWidth 16)).pushCode (b.setWidth 16) with rp := s.rp + 3 }

/-- UNPACK_TAIL2 (R87): the code is not range-checked. -/
def execUnpackTail2 (c : Code) (s : State) : Result :=
  if s.nMax < s.n.toNat + 1 then .fault .outsideSpace
  else .next { s.pushCode c with rp := s.rp + 2 }

/-- UNPACK_TAIL1 (R88): the byte yields no code. -/
def execUnpackTail1 (_x : Byte) (s : State) : Result :=
  .next { s with tailDropped := true, rp := s.rp + 1 }

/-- UNPACK_END (R86). -/
def execUnpackEnd (s : State) : Result := .next { s with phase := .decInit }

end Sys2Proof.Machine
end

