-- ==== Sys2Proof/Machine/Dispatch.lean ====
section
/-! DEFINITION. From an instruction to its meaning. -/

namespace Sys2Proof.Machine

def exec (i : Instr) (s : State) : Host.Outcome State Fault Refusal :=
  match i with
  | .unpack3 a b => Sys2Proof.Machine.execUnpack3 a b s
  | .unpackTail2 c => Sys2Proof.Machine.execUnpackTail2 c s
  | .unpackTail1 x => Sys2Proof.Machine.execUnpackTail1 x s
  | .unpackEnd => Sys2Proof.Machine.execUnpackEnd s
  | .decEmpty => Sys2Proof.Machine.execDecEmpty s
  | .decInit c => Sys2Proof.Machine.execDecInit c s
  | .decInitUndef c => Sys2Proof.Machine.execDecInitUndef c s
  | .decStepDefined c => Sys2Proof.Machine.execDecStepDefined c s
  | .decStepSelfref c => Sys2Proof.Machine.execDecStepSelfref c s
  | .decStepUndef c => Sys2Proof.Machine.execDecStepUndef c s
  | .decDictReset => Sys2Proof.Machine.execDecDictReset s
  | .decDone => Sys2Proof.Machine.execDecDone s
  | .hostRd32 off => Sys2Proof.Machine.execHostRd32 off s
  | .hostWr32 off v => Sys2Proof.Machine.execHostWr32 off v s
  | .hostStart ign => Sys2Proof.Machine.execHostStart ign s
  | .hostAbort ign start => Sys2Proof.Machine.execHostAbort ign start s
  | .hostWrInLen v => Sys2Proof.Machine.execHostWrInLen v s
  | .hostWrin a b => Sys2Proof.Machine.execHostWrin a b s
  | .hostRdin a => Sys2Proof.Machine.execHostRdin a s
  | .hostRdout a => Sys2Proof.Machine.execHostRdout a s

end Sys2Proof.Machine
end

