-- ==== Sys2Proof/Machine/Step.lean ====
section
/-! DEFINITION. One step of the machine: one turn of one agent (00_scope.md R12, 20_memory.md R57). -/

namespace Sys2Proof.Machine

/-- A block turn: nothing in IDLE, DONE and ERROR; otherwise the operation that R83 or R94 selects. -/
def stepBlock (s : State) : Result :=
  match fetchBlock s with
  | none => .next s
  | some (.error f) => .fault f
  | some (.ok f) =>
    match decode f with
    | .ok i => exec i s
    | .error .nextOutOfRange => .fault .noOperation

/-- A host turn: nothing when the host has no statement left; an access runs and is used up; `WAIT` reads STATUS and is
used up by a read that returns STATE = DONE or ERROR (30_encoding.md R78, R79). -/
def stepHost (s : State) : Result :=
  match s.hostProg with
  | [] => .next s
  | .access a :: rest => exec (decodeHost a) (s.setHostProg rest)
  | .wait :: rest =>
    exec (decodeHost (.rd32 0x04)) (if s.phase.ended then s.setHostProg rest else s)

/-- One step: the mover takes its turn. -/
def step (s : State) : Host.Outcome State Fault Refusal :=
  match s.mover with
  | .block => stepBlock s.popTurn
  | .host => stepHost s.popTurn
  | .blockReset => .next (blockReset s.popTurn)

/-- `s` with the input `bytes` to be unpacked next, by a block turn. -/
def State.withStream (bytes : List Byte) (s : State) : State :=
  { s with
    turns := .block :: s.turns, phase := .unpack
    inMem := Memory.writeAll s.inMem 0 bytes, inLen := BitVec.ofNat 32 bytes.length, rp := 0, n := 0
    inMax := if s.inMax.toNat < 3 then 3 else s.inMax }

/-- `s` with a word of the opcode table as the next one that `step` fetches, in the context `decodeTableWord` reads it in
(log 18, log 19): the input stream with a block turn, the code buffer in DEC_INIT with a block turn, or a CTRL write as the
host's next statement with a host turn. IN_MAX is raised to 3 where the word would not fit. -/
def State.withFetchWord (s : State) (nbits w : Nat) : State :=
  match tableFetch nbits w with
  | some (.stream bytes) => s.withStream bytes
  | some (.firstCode c) =>
    { s with
      turns := .block :: s.turns, phase := .decInit
      codes := Memory.write s.codes 0 c, cur := 0, n := 1
      inMax := if s.inMax.toNat < 3 then 3 else s.inMax }
  | some (.host a) => { s with turns := .host :: s.turns, hostProg := .access a :: s.hostProg }
  | some .noFirstCode => s
  | some .endOfCodes => s
  | some .dictFull => s
  | some (.loopCode _ _) => s
  | none => s

end Sys2Proof.Machine
end

