-- ==== Sys2Proof/Machine/Script.lean ====
section
/-! DEFINITION. The pseudo-statements of host scripts and their expansions (30_encoding.md R79). `WAIT` is a statement of
its own (`HostStmt.wait`), since how often it reads depends on the run. -/

namespace Sys2Proof.Machine

/-- `LOADIN a, b0 b1 ...`. DESIGN CHOICE (log 31): where a + i passes 2^32 - 1 the spec gives no `WRIN`, since the address
of R120 has 32 bits; here the address wraps to 0. -/
def scriptLoadIn : (a : Word) → List Byte → List HostStmt
  | _, [] => []
  | a, b :: rest => .access (.wrin a b) :: scriptLoadIn (a + 1) rest

/-- `SETLEN L`, with the 32-bit value of `WR32` (42_host.md R118). -/
def scriptSetLen (len : Word) : List HostStmt := [.access (.wr32 0x08 len)]

/-- `START`. -/
def scriptStart : List HostStmt := [.access (.wr32 0x00 0x1)]

/-- `ABORT`. -/
def scriptAbort : List HostStmt := [.access (.wr32 0x00 0x2)]

/-- `DECODE b0 ... bL-1`. DESIGN CHOICE (log 31): for L = 2^32 bytes or more the spec gives no `SETLEN L`, since the value of
R118 has 32 bits; here IN_LEN is written with L mod 2^32. -/
def scriptDecode (bytes : List Byte) : List HostStmt :=
  scriptLoadIn 0 bytes ++ scriptSetLen (BitVec.ofNat 32 bytes.length) ++ scriptStart ++ [.wait]

end Sys2Proof.Machine
end

