-- ==== Sys2Proof/Machine/Reference.lean ====
section
/-! DEFINITION. A run as one function of its input: Unpack (40_unpacker.md R85, R89), Decode (41_decoder.md R93) and Run
(42_host.md R127). The step rules govern; these are their summary, which claims compare the steps with. -/

namespace Sys2Proof.Machine

/-- What a run shows at its end (42_host.md R127). -/
inductive RunResult where
  | ok (out : Str)
  | err (kind : ErrorKind) (pos val : Nat)
  deriving DecidableEq, Repr

/-- Unpack: the codes of the chunks in order, then the code of a two-byte remainder (R85). -/
def refUnpack : List Byte → List Code
  | [] => []
  | [_] => []
  | [p, u] => [tailCode p u]
  | b0 :: b1 :: b2 :: rest => (codeA b0 b1).setWidth 16 :: (codeB b1 b2).setWidth 16 :: refUnpack rest

/-- The packing of a code sequence (30_encoding.md R72): pairs of codes in chunks, a final odd code in the tail. DESIGN CHOICE
(log 32): R72 packs the codes of a pair only in [0, 4095]; of one above, the low 12 bits are packed. -/
def refPack : List Code → List Byte
  | [] => []
  | [c] => tailBytes c
  | a :: b :: rest => chunkBytes (a.setWidth 12) (b.setWidth 12) ++ refPack rest

/-- The base alphabet as a table of strings (R95). -/
def refBase : List Str := (List.range 256).map fun k => [BitVec.ofNat 8 k]

/-- The chunk of a main-loop code against a table of `dict.length` defined entries (R100 to R102); none is an undefined
code. -/
def refChunk (dict : List Str) (prev : Str) (c : Code) : Option Str :=
  if c.toNat < dict.length then dict[c.toNat]?
  else if c.toNat = dict.length then some (prev ++ prev.take 1)
  else none

/-- Decode from code number `i` on (R93): `gen` is the generation's table and PREV, or none where the next code is a
first code. A full table is discarded when a code remains (R103). -/
def refDecodeFrom (outMax : Nat) (gen : Option (List Str × Str)) (i : Nat) (out : Str) : List Code → RunResult
  | [] =>
    match gen with
    | none => .err .malformedInput 0 0
    | some _ => .ok out
  | c :: rest =>
    match gen.filter (fun g => decide (g.1.length < Config.dictCap)) with
    | none =>
      if 256 ≤ c.toNat then .err .undefinedCodeReference i c.toNat
      else if outMax < out.length + 1 then .err .outputOverflow i c.toNat
      else refDecodeFrom outMax (some (refBase, [c.setWidth 8])) (i + 1) (out ++ [c.setWidth 8]) rest
    | some (dict, prev) =>
      match refChunk dict prev c with
      | none => .err .undefinedCodeReference i c.toNat
      | some chunk =>
        if outMax < out.length + chunk.length then .err .outputOverflow i c.toNat
        else
          refDecodeFrom outMax (some (dict ++ [prev ++ chunk.take 1], chunk)) (i + 1) (out ++ chunk) rest

/-- Decode (R93). -/
def refDecode (outMax : Nat) (codes : List Code) : RunResult := refDecodeFrom outMax none 0 [] codes

/-- Run (42_host.md R127). -/
def refRun (inMax outMax : Nat) (input : List Byte) : RunResult :=
  if inMax < input.length then .err .inputLengthRange 0 0 else refDecode outMax (refUnpack input)

end Sys2Proof.Machine
end

