-- ==== Sys2Proof/Safety.lean ====
section
/-! DEFINITION. What counts as a safe state and what a run shows, in the terms claims use: the operation a step runs, the
error entry as a relation, the invariant of the machine (10_state.md R28 and the bounds of R16 to R27), and the result of a
run (42_host.md R126, R127). -/

namespace Sys2Proof

/-! ### Commands and host operations -/

/-- The instruction is a command that starts a run (42_host.md R118, R122). -/
def Instr.isStart : Instr → Bool
  | .hostStart _ => true
  | .hostWr32 off v => decide (off = 0x00 ∧ v.extractLsb' 1 1 = 0#1 ∧ v.extractLsb' 0 1 = 1#1)
  | _ => false

/-- The instruction is a command that abandons a run (R118, R123). -/
def Instr.isAbort : Instr → Bool
  | .hostAbort _ _ => true
  | .hostWr32 off v => decide (off = 0x00 ∧ v.extractLsb' 1 1 = 1#1)
  | _ => false

/-- The instruction is one of the host's (R116). -/
def Instr.isHost : Instr → Bool
  | .hostRd32 _ => true
  | .hostWr32 _ _ => true
  | .hostStart _ => true
  | .hostAbort _ _ => true
  | .hostWrInLen _ => true
  | .hostWrin _ _ => true
  | .hostRdin _ => true
  | .hostRdout _ => true
  | _ => false

end Sys2Proof

namespace Sys2Proof.Machine

/-! ### What a step runs -/

/-- The operation the next step runs; none for a turn that runs none (block reset, a waiting block, a host with nothing
left, or a block turn that stops). -/
def State.operation (s : State) : Option Instr :=
  match s.mover with
  | .block =>
    match fetchBlock s with
    | some (.ok f) => (decode f).toOption
    | _ => none
  | .host =>
    match s.hostProg with
    | [] => none
    | .access a :: _ => some (decodeHost a)
    | .wait :: _ => some (.hostRd32 0x04)
  | .blockReset => none

/-- The state an operation runs in: the turn is used up, and so is the host's statement (a `WAIT` only once the run has
ended). -/
def State.advance (s : State) : State :=
  match s.mover, s.hostProg with
  | .host, .access _ :: rest => s.popTurn.setHostProg rest
  | .host, .wait :: rest => if s.phase.ended then s.popTurn.setHostProg rest else s.popTurn
  | _, _ => s.popTurn

/-! ### The events that leave values unspecified -/

/-- `t` is `s` after `raise Error(kind, pos, val)` (60_exceptions.md R135): the record and PHASE as the rule says; OUT, OLEN,
CODES, DICT, NEXT, PREV, RP and CUR unspecified, so not constrained; everything else unchanged. -/
def ErrorEntered (kind : ErrorKind) (pos val : Word) (s t : State) : Prop :=
  t = { s with
    phase := .error, err := kind.code, errPos := pos, errVal := val
    outMem := t.outMem, olen := t.olen, codes := t.codes, dict := t.dict, next := t.next, prev := t.prev
    rp := t.rp, cur := t.cur, epoch := t.epoch }

/-- `t` is `s` with the error record and the run registers cleared and PHASE set (42_host.md R122, R123): OUT, CODES, DICT,
NEXT and PREV unspecified, so not constrained; everything else unchanged. -/
def RunCleared (phase : Phase) (s t : State) : Prop :=
  t = { s with
    phase := phase, tailDropped := false, err := 0, errPos := 0, errVal := 0, dictResets := 0
    rp := 0, n := 0, cur := 0, olen := 0
    outMem := t.outMem, codes := t.codes, dict := t.dict, next := t.next, prev := t.prev, epoch := t.epoch }

/-! ### A consumed chunk -/

/-- The bytes of `chunk` are appended to OUT at OLEN, every other byte of OUT is unchanged, slot NEXT is defined as
PREV ++ [first], every other slot is unchanged, and NEXT, PREV, CUR and OLEN move as R105 and R110 say; nothing else
changes. -/
def ChunkConsumed (chunk : Str) (first : Byte) (s t : State) : Prop :=
  t = { s with
    outMem := t.outMem, olen := s.olen + BitVec.ofNat 32 chunk.length
    dict := t.dict, next := s.next + 1, prev := chunk, cur := s.cur + 1 } ∧
  (∀ j (h : j < chunk.length), Memory.read t.outMem (s.olen.toNat + j) = some chunk[j]) ∧
  (∀ a, (a < s.olen.toNat ∨ s.olen.toNat + chunk.length ≤ a) → Memory.read t.outMem a = Memory.read s.outMem a) ∧
  Memory.read t.dict s.next.toNat = some (s.prev ++ [first]) ∧
  ∀ k, k ≠ s.next.toNat → Memory.read t.dict k = Memory.read s.dict k

/-! ### The contents of a run -/

/-- IN[0 .. L - 1], L = IN_LEN. -/
def State.input (s : State) : List Byte := s.inBytes 0 s.inLen.toNat

/-- CODES[0 .. N - 1]. -/
def State.codeList (s : State) : List Code := (List.range s.n.toNat).map s.code

/-- The defined slots, DICT[0 .. NEXT - 1] (10_state.md R20). -/
def State.dictList (s : State) : List Str := (List.range s.next.toNat).map s.slot

/-- OUT[0 .. OLEN - 1]; where nothing is listed, an arbitrary byte. -/
def State.output (s : State) : Str :=
  (List.range s.olen.toNat).map fun a => (Memory.read s.outMem a).getD 0

/-- Decode of the codes consumed so far goes on, with the codes `rest`, from generation `gen` (as in `refDecodeFrom`), CUR
and the output so far (41_decoder.md R93). -/
def State.DecodesOnFrom (s : State) (gen : Option (List Str × Str)) (rest : List Code) : Prop :=
  refDecode s.outMax.toNat (s.codeList.take s.cur.toNat ++ rest) =
    refDecodeFrom s.outMax.toNat gen s.cur.toNat s.output rest

/-- Every byte of OUT below OLEN was appended. -/
def State.outputListed (s : State) : Prop := ∀ a < s.olen.toNat, (Memory.read s.outMem a).isSome

/-! ### The invariant -/

/-- PHASE = IDLE (10_state.md R41, 70_reset_and_hazards.md R154). -/
structure IdleInv (s : State) : Prop where
  rp : s.rp = 0
  n : s.n = 0
  cur : s.cur = 0
  olen : s.olen = 0
  dictResets : s.dictResets = 0
  tailDropped : s.tailDropped = false

/-- PHASE = UNPACK (R16, R18; 40_unpacker.md R85, R89). -/
structure UnpackInv (s : State) : Prop where
  inLen_le : s.inLen.toNat ≤ s.inMax.toNat
  rp_le : s.rp.toNat ≤ s.inLen.toNat
  rp_mod : s.rp.toNat % 3 ≠ 0 → s.rp = s.inLen
  n : s.n.toNat = codeCount s.rp.toNat
  cur : s.cur = 0
  olen : s.olen = 0
  dictResets : s.dictResets = 0
  tailDropped : s.tailDropped = decide (s.rp.toNat % 3 = 1)
  codes : s.codeList = (refUnpack s.input).take s.n.toNat

/-- PHASE = DEC_INIT or DEC_LOOP: what the BitUnpacker left (40_unpacker.md R89) and the output so far (R23, R111). -/
structure DecodeInv (s : State) : Prop where
  inLen_le : s.inLen.toNat ≤ s.inMax.toNat
  rp : s.rp = s.inLen
  n : s.n.toNat = codeCount s.inLen.toNat
  tailDropped : s.tailDropped = decide (s.inLen.toNat % 3 = 1)
  codes : s.codeList = refUnpack s.input
  olen_outMax : s.olen.toNat ≤ s.outMax.toNat
  olen_cur : s.olen.toNat ≤ Config.maxEntryLen * s.cur.toNat
  listed : s.outputListed

/-- PHASE = DEC_INIT (41_decoder.md R94, R112). -/
structure InitInv (s : State) : Prop extends DecodeInv s where
  cur_resets : s.cur.toNat = 3841 * s.dictResets.toNat
  cur_n : s.cur.toNat < s.n.toNat ∨ (s.n = 0 ∧ s.cur = 0)
  decoded : ∀ rest, rest ≠ [] → s.DecodesOnFrom none rest

/-- PHASE = DEC_LOOP (10_state.md R28; 41_decoder.md R111, R112). R28(f) is `decoded`: with no further code it says that
Decode of the first CUR codes is Ok(OUT[0 .. OLEN - 1]), so OLEN is the sum of the lengths of the chunks appended. -/
structure LoopInv (s : State) : Prop extends DecodeInv s where
  next_ge : 256 ≤ s.next.toNat
  next_le : s.next.toNat ≤ 4096
  cur_ge : 1 ≤ s.cur.toNat
  cur_le : s.cur.toNat ≤ s.n.toNat
  cur_next : s.cur.toNat + 255 = 3841 * s.dictResets.toNat + s.next.toNat
  base : ∀ k < 256, Memory.read s.dict k = some [BitVec.ofNat 8 k]
  defined : ∀ k < s.next.toNat, ∃ str, Memory.read s.dict k = some str ∧ str ≠ [] ∧ str.length ≤ max 1 (k - 254)
  prev_ne : s.prev ≠ []
  prev_len : s.prev.length ≤ s.next.toNat - 255
  last_defined : (s.code (s.cur.toNat - 1)).toNat < s.next.toNat
  prev_last : Memory.read s.dict (s.code (s.cur.toNat - 1)).toNat = some s.prev
  decoded : ∀ rest, s.DecodesOnFrom (some (s.dictList, s.prev)) rest

/-- PHASE = DONE (41_decoder.md R104, R112). -/
structure DoneInv (s : State) : Prop where
  n_ge : 1 ≤ s.n.toNat
  olen_outMax : s.olen.toNat ≤ s.outMax.toNat
  listed : s.outputListed
  dictResets : s.dictResets.toNat = (s.n.toNat - 1) / 3841

/-- The error record (10_state.md R26, 60_exceptions.md R132, R136): zero outside ERROR; in ERROR a kind 1 to 4 and a
16-bit value. -/
def RecordInv (s : State) : Prop :=
  match s.phase with
  | .error => 1 ≤ s.err.toNat ∧ s.err.toNat ≤ 4 ∧ s.errVal.toNat < 65536
  | _ => s.err = 0 ∧ s.errPos = 0 ∧ s.errVal = 0

/-- What each phase asks of the registers. -/
def PhaseInv (s : State) : Prop :=
  match s.phase with
  | .idle => IdleInv s
  | .unpack => UnpackInv s
  | .decInit => InitInv s
  | .decLoop => LoopInv s
  | .done => DoneInv s
  | .error => True

/-- The memories are canonical and inside their spaces (20_memory.md R43, R52). -/
structure SpaceInv (s : State) : Prop where
  in_wf : Memory.wf s.inMem
  in_below : Memory.below s.inMem s.inMax.toNat
  out_wf : Memory.wf s.outMem
  out_below : Memory.below s.outMem s.outMax.toNat
  codes_wf : Memory.wf s.codes
  codes_below : Memory.below s.codes s.nMax
  dict_wf : Memory.wf s.dict
  dict_below : Memory.below s.dict Config.dictCap
  n_le : s.n.toNat ≤ s.nMax

/-- The invariant of the machine. -/
structure Inv (s : State) : Prop where
  space : SpaceInv s
  record : RecordInv s
  phase : PhaseInv s

/-! ### Runs -/

/-- What the host can read at the end of a run (42_host.md R126, R127): the result, with OUT[0 .. OUT_LEN - 1] only for
DONE. -/
def ShowsResult (t : State) : RunResult → Prop
  | .ok out =>
    t.phase = .done ∧ t.outLen.toNat = out.length ∧ t.err = 0 ∧ t.errPos = 0 ∧ t.errVal = 0 ∧
      ∀ j (h : j < out.length), Memory.read t.outMem j = some out[j]
  | .err kind pos val =>
    t.phase = .error ∧ t.outLen = 0 ∧ t.err = kind.code ∧ t.errPos.toNat = pos ∧ t.errVal.toNat = val

/-- The run that is in state `s` ends after `k` more steps, in `t`: the first state at which STATUS.STATE is 2 or 3 (42_host.md
R126). -/
def EndsAfter (s : State) (k : Nat) (t : State) : Prop :=
  Sys2Proof.core.run k s = .next t ∧ t.phase.ended = true ∧
    ∀ j < k, ∃ u, Sys2Proof.core.run j s = .next u ∧ u.phase.busy = true

/-- How many steps the BitUnpacker phase takes on L bytes (40_unpacker.md R92). -/
def unpackSteps (L : Nat) : Nat := L / 3 + (if L % 3 = 0 then 0 else 1) + 1

/-- How many steps the decoder phase takes at most on N codes (41_decoder.md R115). -/
def decodeStepsBound (N : Nat) : Nat := if N = 0 then 1 else N + (N - 1) / 3841 + 1

end Sys2Proof.Machine
end

