-- ==== Sys2Proof/Certificates/Slice0/Obligations.lean ====
section
/-! DEFINITION. The statements for the provers. A statement about a next state writes it as `{ s with ... }`: every field
it does not name is unchanged, which is the operation's frame. A field it writes as `t`'s own is unspecified there (or is
described by the clauses beside it), and the statement holds for every value of it. -/

open Sys2Proof Sys2Proof.Machine

/-! ### Encoding -/

/-- Words written out from the spec's encodings decode to the operations they stand for: the worked examples S2, S3, W5, W9
and P2 of 95_test_vectors.md, and CTRL values of 30_encoding.md R76. -/
def Obligations.WrittenOutWordsDecode : Prop :=
  decode (.stream [0xAB, 0xCD, 0xEF]) = .ok (.unpack3 0xABC 0xDEF) ∧
  decode (.stream [0x01, 0x02]) = .ok (.unpackTail2 258) ∧
  decode (.stream [0xFF]) = .ok (.unpackTail1 0xFF) ∧
  decode (.stream []) = .ok .unpackEnd ∧
  decode (.firstCode 0x0048) = .ok (.decInit 0x48) ∧
  decode (.firstCode 0x0100) = .ok (.decInitUndef 256) ∧
  decode (.loopCode 256 0x0100) = .ok (.decStepSelfref 256) ∧
  decode (.loopCode 257 0x0049) = .ok (.decStepDefined 0x49) ∧
  decode (.loopCode 256 0x0102) = .ok (.decStepUndef 258) ∧
  decode (.host (.wr32 0x00 0x00000001)) = .ok (.hostStart 0) ∧
  decode (.host (.wr32 0x00 0x00000003)) = .ok (.hostAbort 0 1) ∧
  decode (.host (.wr32 0x00 0xFFFFFFFC)) = .ok (.hostWr32 0 0xFFFFFFFC) ∧
  decode (.host (.wr32 0x08 6)) = .ok (.hostWrInLen 6)

/-- R66: with W the 24-bit value of a chunk, first byte most significant, code_a is W[23:12] and code_b is W[11:0], and
every chunk is legal. -/
def Obligations.ChunkCarriesTwoCodesBigEndian : Prop :=
  ∀ (b0 b1 b2 : Byte) (rest : List Byte),
    decode (.stream (b0 :: b1 :: b2 :: rest)) =
      .ok (.unpack3 ((b0 ++ b1 ++ b2).extractLsb' 12 12) ((b0 ++ b1 ++ b2).extractLsb' 0 12))

/-- R65, R69, R70: the number of bytes left selects the format; a tail code is (p << 8) | u, and a one-byte tail yields
no code. -/
def Obligations.BytesLeftSelectTheFormat : Prop :=
  ∀ bytes : List Byte,
    (3 ≤ bytes.length → ∃ a b, decode (.stream bytes) = .ok (.unpack3 a b)) ∧
    (∀ p u, bytes = [p, u] →
      ∃ c, decode (.stream bytes) = .ok (.unpackTail2 c) ∧ c.toNat = p.toNat * 256 + u.toNat) ∧
    (∀ x, bytes = [x] → decode (.stream bytes) = .ok (.unpackTail1 x)) ∧
    (bytes = [] → decode (.stream bytes) = .ok .unpackEnd)

/-- Decode and encode agree: every well-formed instruction, with every operand its encoding admits, is decoded from its
own words, in every context that selects it and in the one `encode` writes. -/
def Obligations.DecodeOfEncode : Prop :=
  ∀ i : Instr, i.wellFormed = true →
    decode (encode i) = .ok i ∧
    ∀ next : SlotIndex, i.selectedAt next = true → decode (encodeAt next i) = .ok i

/-- Each word has one meaning: an instruction decoded from a legal context is well formed, is selected there, and encodes
to the word that was decoded; only a NEXT outside 256 to 4095 is rejected. -/
def Obligations.EncodeOfDecode : Prop :=
  ∀ f : Fetch, f.inRange = true →
    ∃ i, decode f = .ok i ∧ i.wellFormed = true ∧ i.selectedAt f.nextOf = true ∧ encodeAt f.nextOf i = f.word

/-- R72: packing a code sequence and unpacking it gives back the codes, whichever of the 16-bit values the final odd code
has; the byte counts and the byte formulas are those of the rule. -/
def Obligations.UnpackOfPack : Prop :=
  (∀ a b : Code12, chunkBytes a b =
    [BitVec.ofNat 8 (a.toNat / 16), BitVec.ofNat 8 (a.toNat % 16 * 16 + b.toNat / 256), BitVec.ofNat 8 (b.toNat % 256)]) ∧
  (∀ c : Code, tailBytes c = [BitVec.ofNat 8 (c.toNat / 256), BitVec.ofNat 8 (c.toNat % 256)]) ∧
  ∀ cs : List Code,
    (∀ k (h : k < cs.length), (k + 1 < cs.length ∨ cs.length % 2 = 0) → cs[k].toNat < 4096) →
    refUnpack (refPack cs) = cs ∧
    (∀ m, cs.length = 2 * m → (refPack cs).length = 3 * m) ∧
    (∀ m, cs.length = 2 * m + 1 → (refPack cs).length = 3 * m + 2)

/-! ### A step -/

/-- A step runs the decoded instruction. The first entry of `turns` moves and is used up; with none, the block while BUSY
and the host otherwise. A block turn runs what the decoder reads from what the block fetches; a host turn runs the host's
next access and uses it up; a `WAIT` reads STATUS and is used up once the run has ended (R79). -/
def Obligations.StepRunsTheDecodedInstruction : Prop :=
  ∀ s : State,
    (∀ f i, (s.turns.head? = some .block ∨ (s.turns = [] ∧ s.phase.busy = true)) →
      fetchBlock s = some (.ok f) → decode f = .ok i → step s = exec i { s with turns := s.turns.tail }) ∧
    (∀ a rest, (s.turns.head? = some .host ∨ (s.turns = [] ∧ s.phase.busy = false)) →
      s.hostProg = .access a :: rest →
      step s = exec (decodeHost a) { s with turns := s.turns.tail, hostProg := rest }) ∧
    (∀ rest, (s.turns.head? = some .host ∨ (s.turns = [] ∧ s.phase.busy = false)) →
      s.hostProg = .wait :: rest →
      step s = exec (.hostRd32 0x04)
        { s with
          turns := s.turns.tail
          hostProg := if s.phase = .done ∨ s.phase = .error then rest else .wait :: rest })

/-- R153: in IDLE the block takes no step, and neither in DONE and ERROR (20_memory.md R58): a turn of the block, or of a
host with nothing to do, changes nothing. That an empty `turns` lets the host move is the model's choice (log 1). -/
def Obligations.WaitingBlockTakesNoStep : Prop :=
  ∀ s : State, s.phase.busy = false →
    (s.turns.head? = some .block → step s = .next { s with turns := s.turns.tail }) ∧
    (s.turns = [] → s.hostProg = [] → step s = .next s)

/-- R83: in UNPACK with 0 <= RP <= L the operation is chosen by R = L - RP, and exactly one applies. -/
def Obligations.UnpackStepChosenByBytesLeft : Prop :=
  ∀ s : State, s.phase = .unpack → s.rp.toNat ≤ s.inLen.toNat → s.inLen.toNat ≤ s.inMax.toNat →
    (3 ≤ s.inLen.toNat - s.rp.toNat → ∃ a b, stepBlock s = exec (.unpack3 a b) s) ∧
    (s.inLen.toNat - s.rp.toNat = 2 → ∃ c, stepBlock s = exec (.unpackTail2 c) s) ∧
    (s.inLen.toNat - s.rp.toNat = 1 → ∃ x, stepBlock s = exec (.unpackTail1 x) s) ∧
    (s.inLen.toNat - s.rp.toNat = 0 → stepBlock s = exec .unpackEnd s)

/-- R94: the decoder's next operation, the end-of-codes test before the full-dictionary test; and PHASE = DEC_INIT with
CUR = N happens only when N = 0. -/
def Obligations.DecoderStepChosenByCodeAndNext : Prop :=
  ∀ s : State, Inv s →
    (s.phase = .decInit →
      (s.cur = s.n → s.n = 0 ∧ stepBlock s = exec .decEmpty s) ∧
      (s.cur ≠ s.n → (s.code s.cur.toNat).toNat < 256 →
        stepBlock s = exec (.decInit ((s.code s.cur.toNat).setWidth 8)) s) ∧
      (s.cur ≠ s.n → 256 ≤ (s.code s.cur.toNat).toNat →
        stepBlock s = exec (.decInitUndef (s.code s.cur.toNat)) s)) ∧
    (s.phase = .decLoop →
      (s.cur = s.n → stepBlock s = exec .decDone s) ∧
      (s.cur ≠ s.n → s.next = 4096 → stepBlock s = exec .decDictReset s) ∧
      (s.cur ≠ s.n → s.next ≠ 4096 → (s.code s.cur.toNat).toNat < s.next.toNat →
        stepBlock s = exec (.decStepDefined (s.code s.cur.toNat)) s) ∧
      (s.cur ≠ s.n → s.next ≠ 4096 → (s.code s.cur.toNat).toNat = s.next.toNat →
        stepBlock s = exec (.decStepSelfref (s.code s.cur.toNat)) s) ∧
      (s.cur ≠ s.n → s.next ≠ 4096 → s.next.toNat < (s.code s.cur.toNat).toNat →
        stepBlock s = exec (.decStepUndef (s.code s.cur.toNat)) s))

/-! ### The BitUnpacker -/

/-- R84: UNPACK3 stores code_a in CODES[N] and code_b in CODES[N + 1], zero-extended, adds 2 to N and 3 to RP, and writes
nothing else; in UNPACK with three bytes left, its codes are those of the three bytes at RP. -/
def Obligations.Unpack3StoresBothCodes : Prop :=
  (∀ (a b : Code12) (s : State), s.n.toNat + 2 ≤ s.nMax →
    ∃ t, exec (.unpack3 a b) s = .next t ∧
      t = { s with codes := t.codes, n := s.n + 2, rp := s.rp + 3 } ∧
      Memory.read t.codes s.n.toNat = some (a.setWidth 16) ∧
      Memory.read t.codes (s.n.toNat + 1) = some (b.setWidth 16) ∧
      ∀ k, k ≠ s.n.toNat → k ≠ s.n.toNat + 1 → Memory.read t.codes k = Memory.read s.codes k) ∧
  ∀ s : State, s.phase = .unpack → 3 ≤ s.inLen.toNat - s.rp.toNat → s.inLen.toNat ≤ s.inMax.toNat →
    ∃ a b : Code12, stepBlock s = exec (.unpack3 a b) s ∧
      a.toNat = (s.inByte s.rp.toNat).toNat * 16 + (s.inByte (s.rp.toNat + 1)).toNat / 16 ∧
      b.toNat = (s.inByte (s.rp.toNat + 1)).toNat % 16 * 256 + (s.inByte (s.rp.toNat + 2)).toNat

/-- R87: UNPACK_TAIL2 stores the 16-bit code unchecked in CODES[N], adds 1 to N and 2 to RP, and writes nothing else; in
UNPACK with two bytes left, which in a state of the invariant is when L mod 3 = 2, its code is (p << 8) | u of the two
bytes at RP. -/
def Obligations.UnpackTail2StoresTheTailCode : Prop :=
  (∀ (c : Code) (s : State), s.n.toNat + 1 ≤ s.nMax →
    ∃ t, exec (.unpackTail2 c) s = .next t ∧
      t = { s with codes := t.codes, n := s.n + 1, rp := s.rp + 2 } ∧
      Memory.read t.codes s.n.toNat = some c ∧
      ∀ k, k ≠ s.n.toNat → Memory.read t.codes k = Memory.read s.codes k) ∧
  ∀ s : State, s.phase = .unpack → s.inLen.toNat - s.rp.toNat = 2 → s.inLen.toNat ≤ s.inMax.toNat →
    ∃ c : Code, stepBlock s = exec (.unpackTail2 c) s ∧
      c.toNat = (s.inByte s.rp.toNat).toNat * 256 + (s.inByte (s.rp.toNat + 1)).toNat ∧
      (Inv s → s.inLen.toNat % 3 = 2)

/-- R88: UNPACK_TAIL1 sets TAIL_DROPPED, adds 1 to RP, and writes nothing else: no code is made of the byte. It is the
operation of UNPACK with one byte left, which in a state of the invariant is when L mod 3 = 1. -/
def Obligations.UnpackTail1DropsTheByte : Prop :=
  (∀ (x : Byte) (s : State), exec (.unpackTail1 x) s = .next { s with tailDropped := true, rp := s.rp + 1 }) ∧
  ∀ s : State, s.phase = .unpack → s.inLen.toNat - s.rp.toNat = 1 → s.inLen.toNat ≤ s.inMax.toNat →
    ∃ x, stepBlock s = exec (.unpackTail1 x) s ∧ (Inv s → s.inLen.toNat % 3 = 1)

/-- R86: UNPACK_END enters DEC_INIT and writes nothing else, STATUS.STATE stays BUSY. It is the operation of UNPACK with no
byte left; in a state of the invariant CUR and OLEN are still 0. -/
def Obligations.UnpackEndEntersDecInit : Prop :=
  (∀ s : State, exec .unpackEnd s = .next { s with phase := .decInit }) ∧
  ∀ s : State, s.phase = .unpack → s.rp = s.inLen → s.inLen.toNat ≤ s.inMax.toNat →
    ∃ t, stepBlock s = .next t ∧ t = { s with phase := .decInit } ∧ t.phase.code = s.phase.code ∧
      (Inv s → t.cur = 0 ∧ t.olen = 0)

/-! ### The decoder -/

/-- R96, R99, R102 with the error entry of R135: DEC_EMPTY records MalformedInput, 0, 0; DEC_INIT_UNDEF and DEC_STEP_UNDEF
record UndefinedCodeReference, CUR and the code. The record does not depend on the room left in OUT (R141). -/
def Obligations.RejectedCodesEnterError : Prop :=
  (∀ s : State, ∃ t, exec .decEmpty s = .next t ∧ ErrorEntered .malformedInput 0 0 s t) ∧
  (∀ (c : Code) (s : State),
    ∃ t, exec (.decInitUndef c) s = .next t ∧ ErrorEntered .undefinedCodeReference s.cur (c.setWidth 32) s t) ∧
  (∀ (c : Code) (s : State),
    ∃ t, exec (.decStepUndef c) s = .next t ∧ ErrorEntered .undefinedCodeReference s.cur (c.setWidth 32) s t)

/-- R135: `raise Error(kind, pos, val)` writes the record, enters ERROR and keeps N, TAIL_DROPPED, DICT_RESETS and IN_LEN,
whatever it leaves in what the rule calls unspecified; and in every state so entered STATUS reads STATE = 3 with the kind's
code of R132 in ERR, ERR_POS and ERR_VAL read the record, OUT_LEN reads 0, and TAIL_DROPPED, CODE_COUNT, DICT_RESETS and
IN_LEN read as before. -/
def Obligations.ErrorEntryIsWhatTheHostReads : Prop :=
  (∀ (kind : ErrorKind) (pos val : Word) (s : State), ErrorEntered kind pos val s (s.raise kind pos val)) ∧
  ∀ (kind : ErrorKind) (pos val : Word) (s t : State), ErrorEntered kind pos val s t →
    (t.regRead 0x04).extractLsb' 0 2 = 3 ∧
    (t.regRead 0x04).extractLsb' 4 4 =
      (match kind with
        | .malformedInput => 1
        | .undefinedCodeReference => 2
        | .outputOverflow => 3
        | .inputLengthRange => 4) ∧
    (t.regRead 0x04).getLsbD 2 = (s.regRead 0x04).getLsbD 2 ∧
    t.regRead 0x18 = pos ∧ t.regRead 0x1C = val ∧ t.regRead 0x0C = 0 ∧
    t.regRead 0x10 = s.regRead 0x10 ∧ t.regRead 0x14 = s.regRead 0x14 ∧ t.regRead 0x08 = s.regRead 0x08

/-- R97 with R95 and R110: DEC_INIT rebuilds the base alphabet, appends the literal to OUT, writes the placeholder in slot
256, sets NEXT to 256 and PREV to the literal, adds 1 to CUR and OLEN, and enters DEC_LOOP; slots above 256 and every other
byte of OUT stay. When the byte does not fit it records OutputOverflow, CUR and the code instead. -/
def Obligations.DecInitRebuildsAndEmitsTheLiteral : Prop :=
  ∀ (c : Byte) (s : State),
    (s.olen.toNat + 1 ≤ s.outMax.toNat →
      ∃ t, exec (.decInit c) s = .next t ∧
        t = { s with
          phase := .decLoop, cur := s.cur + 1, dict := t.dict, next := 256, prev := [c]
          outMem := t.outMem, olen := s.olen + 1 } ∧
        (∀ k < 256, Memory.read t.dict k = some [BitVec.ofNat 8 k]) ∧
        Memory.read t.dict 256 = some [c] ∧
        (∀ k, 256 < k → Memory.read t.dict k = Memory.read s.dict k) ∧
        Memory.read t.outMem s.olen.toNat = some c ∧
        ∀ a, a ≠ s.olen.toNat → Memory.read t.outMem a = Memory.read s.outMem a) ∧
    (s.outMax.toNat < s.olen.toNat + 1 →
      ∃ t, exec (.decInit c) s = .next t ∧ ErrorEntered .outputOverflow s.cur (c.setWidth 32) s t)

/-- R100 with R105 and R110: DEC_STEP_DEFINED consumes the string of slot c; when the chunk does not fit it records
OutputOverflow, CUR and the code, and appends nothing. -/
def Obligations.DecStepDefinedEmitsTheSlot : Prop :=
  ∀ (c : Code) (s : State), c.toNat < s.next.toNat → s.next.toNat < 4096 →
    (∀ first rest, s.slot c.toNat = first :: rest → s.olen.toNat + (s.slot c.toNat).length ≤ s.outMax.toNat →
      ∃ t, exec (.decStepDefined c) s = .next t ∧ ChunkConsumed (s.slot c.toNat) first s t) ∧
    (s.outMax.toNat < s.olen.toNat + (s.slot c.toNat).length →
      ∃ t, exec (.decStepDefined c) s = .next t ∧ ErrorEntered .outputOverflow s.cur (c.setWidth 32) s t)

/-- R101 with R105 and R110: DEC_STEP_SELFREF consumes PREV ++ [PREV[0]], which becomes slot NEXT, whatever DICT holds;
it never records UndefinedCodeReference, and OutputOverflow as R110 says. -/
def Obligations.DecStepSelfrefExtendsPrev : Prop :=
  ∀ (c : Code) (s : State) (first : Byte) (rest : Str), s.next.toNat < 4096 → s.prev = first :: rest →
    (s.olen.toNat + (s.prev.length + 1) ≤ s.outMax.toNat →
      ∃ t, exec (.decStepSelfref c) s = .next t ∧ ChunkConsumed (s.prev ++ [first]) first s t ∧
        Memory.read t.dict s.next.toNat = some t.prev) ∧
    (s.outMax.toNat < s.olen.toNat + (s.prev.length + 1) →
      ∃ t, exec (.decStepSelfref c) s = .next t ∧ ErrorEntered .outputOverflow s.cur (c.setWidth 32) s t)

/-- R113: where a first byte is accessed of an empty string, MalformedInput, CUR and the code are recorded. Where the guard
stands in the step is the model's choice (log 17). -/
def Obligations.EmptyChunkGuardRaises : Prop :=
  ∀ (c : Code) (s : State),
    (c.toNat < 4096 → s.slot c.toNat = [] → s.olen.toNat ≤ s.outMax.toNat →
      ∃ t, exec (.decStepDefined c) s = .next t ∧ ErrorEntered .malformedInput s.cur (c.setWidth 32) s t) ∧
    (s.prev = [] →
      ∃ t, exec (.decStepSelfref c) s = .next t ∧ ErrorEntered .malformedInput s.cur (c.setWidth 32) s t)

/-- R103, R139: DEC_DICT_RESET counts the reset and enters DEC_INIT; STATUS, ERR_POS and ERR_VAL read as before, and
nothing else changes. -/
def Obligations.DictResetIsSilent : Prop :=
  ∀ s : State, ∃ t, exec .decDictReset s = .next t ∧
    t = { s with dictResets := s.dictResets + 1, phase := .decInit } ∧
    (s.phase = .decLoop → t.regRead 0x04 = s.regRead 0x04 ∧ t.regRead 0x18 = s.regRead 0x18 ∧
      t.regRead 0x1C = s.regRead 0x1C)

/-- R104: DEC_DONE enters DONE and changes nothing else; STATUS.STATE reads 2 and OUT_LEN reads OLEN. -/
def Obligations.DecDoneShowsTheOutput : Prop :=
  ∀ s : State, ∃ t, exec .decDone s = .next t ∧ t = { s with phase := .done } ∧
    (t.regRead 0x04).extractLsb' 0 2 = 2 ∧ t.regRead 0x0C = s.olen

/-- 20_memory.md R52: a block access outside its space stops by name (the model's choice, log 13): IN read at IN_MAX and
above, CODES written or read at N_MAX and above, DICT read or written at 4096 and above. The spec says that no run makes
one. -/
def Obligations.AccessOutsideItsSpaceStops : Prop :=
  (∀ (a b : Code12) (s : State), s.nMax < s.n.toNat + 2 → exec (.unpack3 a b) s = .fault .outsideSpace) ∧
  (∀ (c : Code) (s : State), s.nMax < s.n.toNat + 1 → exec (.unpackTail2 c) s = .fault .outsideSpace) ∧
  (∀ (c : Code) (s : State), 4096 ≤ c.toNat → exec (.decStepDefined c) s = .fault .outsideSpace) ∧
  (∀ (c : Code) (s : State), 4096 ≤ s.next.toNat → s.prev ≠ [] → s.olen.toNat + (s.prev.length + 1) ≤ s.outMax.toNat →
    exec (.decStepSelfref c) s = .fault .outsideSpace) ∧
  (∀ (c : Code) (s : State), c.toNat < 4096 → 4096 ≤ s.next.toNat → s.slot c.toNat ≠ [] →
    s.olen.toNat + (s.slot c.toNat).length ≤ s.outMax.toNat → exec (.decStepDefined c) s = .fault .outsideSpace) ∧
  (∀ s : State, (s.phase = .decInit ∨ (s.phase = .decLoop ∧ s.next ≠ 4096)) → s.nMax ≤ s.cur.toNat →
    s.cur.toNat < s.n.toNat → stepBlock s = .fault .outsideSpace) ∧
  (∀ s : State, s.phase = .unpack → s.rp.toNat ≤ s.inLen.toNat →
    s.inMax.toNat < s.rp.toNat + min 3 (s.inLen.toNat - s.rp.toNat) → stepBlock s = .fault .outsideSpace)

/-! ### The host -/

/-- R117 with R29 to R39: HostRead32 returns the register at the offset, and 0 for an offset that is unmapped or no
multiple of 4; nothing but the host's variable changes. -/
def Obligations.HostRead32ReturnsTheRegister : Prop :=
  ∀ (off : Word) (s : State), ∃ v, exec (.hostRd32 off) s = .next { s with rdata := v } ∧
    (off = 0x00 → v = 0) ∧
    (off = 0x04 → v = s.status) ∧
    (off = 0x08 → v = s.inLen) ∧
    (off = 0x0C → v = if s.phase = .done then s.olen else 0) ∧
    (off = 0x10 → v = s.n) ∧
    (off = 0x14 → v = s.dictResets) ∧
    (off = 0x18 → v = s.errPos) ∧
    (off = 0x1C → v = s.errVal) ∧
    (off = 0x20 → v = s.inMax) ∧
    (off = 0x24 → v = s.outMax) ∧
    (off.toNat % 4 ≠ 0 ∨ 0x24 < off.toNat → v = 0)

/-- R31: the fields of STATUS. -/
def Obligations.StatusFields : Prop :=
  ∀ s : State,
    (s.status.extractLsb' 0 2 =
      match s.phase with
      | .idle => 0
      | .unpack => 1
      | .decInit => 1
      | .decLoop => 1
      | .done => 2
      | .error => 3) ∧
    s.status.getLsbD 2 = s.tailDropped ∧
    s.status.getLsbD 3 = false ∧
    s.status.extractLsb' 4 4 = s.err ∧
    s.status.extractLsb' 8 24 = 0

/-- R118 with R76: at offset 0 a write is ABORT when v[1] = 1, START when v[1:0] = 0b01, and nothing otherwise; at offset
8 it is WriteInLen; every other write is ignored. The same effect as the row a command is decoded to. -/
def Obligations.HostWrite32Commands : Prop :=
  ∀ (off v : Word) (s : State),
    (off = 0x00 → v.getLsbD 1 = true → ∀ ign start, exec (.hostWr32 off v) s = exec (.hostAbort ign start) s) ∧
    (off = 0x00 → v.getLsbD 1 = false → v.getLsbD 0 = true →
      ∀ ign, exec (.hostWr32 off v) s = exec (.hostStart ign) s) ∧
    (off = 0x00 → v.getLsbD 1 = false → v.getLsbD 0 = false → exec (.hostWr32 off v) s = .next s) ∧
    (off = 0x08 → exec (.hostWr32 off v) s = exec (.hostWrInLen v) s) ∧
    (off ≠ 0x00 → off ≠ 0x08 → exec (.hostWr32 off v) s = .next s)

/-- R122: START is ignored while BUSY; otherwise it clears the record and the run registers and enters UNPACK, or records
InputLengthRange, 0, 0 when IN_LEN > IN_MAX; v[31:2] are ignored. IN and IN_LEN keep their values. What the START column of
R154 says holds in both cases: RP, N, CUR, OLEN, TAIL_DROPPED and DICT_RESETS are 0, and OUT, CODES, DICT, NEXT and PREV are
unspecified. That RP, CUR and OLEN are 0 after InputLengthRange is the model's choice (log 10, DEDUCED): R135 leaves the
three unspecified after an error, and the model takes R154's table. -/
def Obligations.HostStartBeginsARun : Prop :=
  ∀ (ign : BitVec 30) (s : State),
    (s.phase.busy = true → exec (.hostStart ign) s = .next s) ∧
    (s.phase.busy = false → s.inLen.toNat ≤ s.inMax.toNat →
      ∃ t, exec (.hostStart ign) s = .next t ∧ RunCleared .unpack s t) ∧
    (s.phase.busy = false → s.inMax.toNat < s.inLen.toNat →
      ∃ t, exec (.hostStart ign) s = .next t ∧
        ErrorEntered .inputLengthRange 0 0 { s with tailDropped := false, dictResets := 0, n := 0 } t ∧
        t.rp = 0 ∧ t.cur = 0 ∧ t.olen = 0)

/-- R123: ABORT, in every phase, returns to IDLE with the record and the run registers cleared; IN and IN_LEN keep their
values; v[31:2] and v[0] are ignored. -/
def Obligations.HostAbortReturnsToIdle : Prop :=
  ∀ (ign : BitVec 30) (start : BitVec 1) (s : State),
    ∃ t, exec (.hostAbort ign start) s = .next t ∧ RunCleared .idle s t

/-- R119: WriteInLen stores any 32-bit value, and is ignored while BUSY. -/
def Obligations.HostWriteInLenStores : Prop :=
  ∀ (v : Word) (s : State),
    (s.phase.busy = false → exec (.hostWrInLen v) s = .next { s with inLen := v }) ∧
    (s.phase.busy = true → exec (.hostWrInLen v) s = .next s)

/-- R120: HostWriteIn stores one byte at an address below IN_MAX and changes no other; it is ignored while BUSY and at
IN_MAX and above. -/
def Obligations.HostWriteInStores : Prop :=
  ∀ (a : Word) (b : Byte) (s : State),
    (s.phase.busy = false → a.toNat < s.inMax.toNat →
      ∃ t, exec (.hostWrin a b) s = .next t ∧ t = { s with inMem := t.inMem } ∧ t.inByte a.toNat = b ∧
        ∀ k, k ≠ a.toNat → t.inByte k = s.inByte k) ∧
    (s.phase.busy = true ∨ s.inMax.toNat ≤ a.toNat → exec (.hostWrin a b) s = .next s)

/-- R121: HostReadIn returns the byte of IN, the one written where one was written, and 0 at IN_MAX and above; it is allowed
in every phase and changes nothing but the host's variable. -/
def Obligations.HostReadInReturnsTheByte : Prop :=
  ∀ (a : Word) (s : State),
    (a.toNat < s.inMax.toNat →
      exec (.hostRdin a) s = .next { s with rdata := (s.inByte a.toNat).setWidth 32 } ∧
      ∀ b, Memory.read s.inMem a.toNat = some b → s.inByte a.toNat = b) ∧
    (s.inMax.toNat ≤ a.toNat → exec (.hostRdin a) s = .next { s with rdata := 0 })

/-- R124: HostReadOut returns 0 at OUT_MAX and above; the appended byte in DONE below OLEN, where the invariant says that
there is one; otherwise any byte. Nothing but the host's variable (and the model's draw counter) changes. -/
def Obligations.HostReadOutReturnsTheByte : Prop :=
  ∀ (a : Word) (s : State),
    (s.outMax.toNat ≤ a.toNat → exec (.hostRdout a) s = .next { s with rdata := 0 }) ∧
    (a.toNat < s.outMax.toNat → s.phase = .done → a.toNat < s.olen.toNat →
      ∀ b, Memory.read s.outMem a.toNat = some b → exec (.hostRdout a) s = .next { s with rdata := b.setWidth 32 }) ∧
    (Inv s → s.phase = .done → a.toNat < s.olen.toNat →
      ∃ b, Memory.read s.outMem a.toNat = some b ∧ exec (.hostRdout a) s = .next { s with rdata := b.setWidth 32 }) ∧
    (a.toNat < s.outMax.toNat → (s.phase ≠ .done ∨ s.olen.toNat ≤ a.toNat) →
      ∃ b : Byte, exec (.hostRdout a) s = .next { s with rdata := b.setWidth 32, draws := s.draws + 1 })

/-- R125: while BUSY the block ignores HostWriteIn, writes of IN_LEN and START; it accepts ABORT and every read, and a read
of OUT is a draw. -/
def Obligations.BusyRule : Prop :=
  ∀ s : State, s.phase.busy = true →
    (∀ a b, exec (.hostWrin a b) s = .next s) ∧
    (∀ v, exec (.hostWrInLen v) s = .next s) ∧
    (∀ ign, exec (.hostStart ign) s = .next s) ∧
    (∀ ign start, ∃ t, exec (.hostAbort ign start) s = .next t ∧ t.phase = .idle) ∧
    (∀ off, ∃ v, exec (.hostRd32 off) s = .next { s with rdata := v }) ∧
    (∀ a, ∃ v, exec (.hostRdin a) s = .next { s with rdata := v }) ∧
    (∀ a : Word, a.toNat < s.outMax.toNat →
      ∃ b : Byte, exec (.hostRdout a) s = .next { s with rdata := b.setWidth 32, draws := s.draws + 1 })

/-- 20_memory.md R57 with R125: while BUSY no host operation but ABORT changes anything a run depends on or shows. -/
def Obligations.HostAccessesDoNotDisturbARun : Prop :=
  ∀ (i : Instr) (s t : State), i.isHost = true → i.isAbort = false → s.phase.busy = true → exec i s = .next t →
    t = { s with rdata := t.rdata, draws := t.draws }

/-! ### Reset -/

/-- R41: what every register holds after block reset where the rule gives a value, for all parameter values, as the host
reads it and inside; in `State.reset` and after a block-reset event. -/
def Obligations.BlockResetValues : Prop :=
  ∀ t : State,
    ((∃ inMax outMax, t = State.resetWith inMax outMax) ∨
      ∃ s : State, s.turns.head? = some .blockReset ∧ step s = .next t) →
    t.phase = .idle ∧ t.rp = 0 ∧ t.cur = 0 ∧ t.n = 0 ∧ t.olen = 0 ∧ t.tailDropped = false ∧
    t.err = 0 ∧ t.errPos = 0 ∧ t.errVal = 0 ∧ t.dictResets = 0 ∧ t.inLen = 0 ∧
    t.regRead 0x00 = 0 ∧ t.regRead 0x04 = 0 ∧ t.regRead 0x08 = 0 ∧ t.regRead 0x0C = 0 ∧ t.regRead 0x10 = 0 ∧
    t.regRead 0x14 = 0 ∧ t.regRead 0x18 = 0 ∧ t.regRead 0x1C = 0 ∧
    t.regRead 0x20 = t.inMax ∧ t.regRead 0x24 = t.outMax

/-- A block-reset turn always completes, whatever the block is doing (R152); the parameters, the host's program and the
host's variable stay (log 22). -/
def Obligations.BlockResetTurnCompletes : Prop :=
  ∀ s : State, s.turns.head? = some .blockReset →
    ∃ t, step s = .next t ∧ t.phase = .idle ∧ t.inMax = s.inMax ∧ t.outMax = s.outMax ∧ t.hostProg = s.hostProg ∧
      t.rdata = s.rdata ∧ t.turns = s.turns.tail

/-! ### Rules about the whole machine -/

/-- The invariant holds after block reset, for all parameter values; `State.reset` is one of these states. The values of
NEXT and PREV there are the model's (log 5), and the invariant does not use them. -/
def Obligations.ResetMeetsTheInvariant : Prop :=
  (∀ inMax outMax : Word, Inv (State.resetWith inMax outMax)) ∧ Inv State.reset

/-- Every step keeps the invariant: the memories stay canonical and inside their spaces, the error record is zero outside
ERROR, RP, N, CUR, OLEN and NEXT stay in the bounds of R16 to R23, and in DEC_LOOP the decoder invariants R28 (a) to (f), the
length bound of R111 and the reset count of R112 hold. R28 (f) is the field `decoded` of `LoopInv`: Decode goes on from
the dictionary, PREV and the output as it does from the first CUR codes, so OUT[0 .. OLEN - 1] is what those codes decode
to. -/
def Obligations.StepKeepsTheInvariant : Prop :=
  ∀ s t : State, Inv s → step s = .next t → Inv t

/-- No input and no host operation makes the machine stop (R115, R116, R52): from every state that meets the invariant, a
step answers a next state. -/
def Obligations.InvariantStatesNeverStop : Prop :=
  ∀ s : State, Inv s → ∃ t, step s = .next t

/-- R40: STATUS.STATE changes only at block reset and ABORT (to IDLE), START (to BUSY, or to ERROR), termination (to DONE)
and the error entry of a block operation (to ERROR). -/
def Obligations.StateFieldChangesOnlyAtItsEvents : Prop :=
  ∀ s t : State, step s = .next t → t.phase.code ≠ s.phase.code →
    (s.mover = .blockReset ∧ t.phase = .idle) ∨
    (∃ i, s.operation = some i ∧ i.isAbort = true ∧ t.phase = .idle) ∨
    (∃ i, s.operation = some i ∧ i.isStart = true ∧ s.phase.busy = false ∧
      ((s.inLen.toNat ≤ s.inMax.toNat ∧ t.phase = .unpack) ∨ (s.inMax.toNat < s.inLen.toNat ∧ t.phase = .error))) ∨
    (s.operation = some .decDone ∧ t.phase = .done) ∨
    (∃ i, s.operation = some i ∧ i.isHost = false ∧ s.phase.busy = true ∧ t.phase = .error)

/-- R143: ERROR is left only by START, ABORT or block reset, and so is DONE; until then the record stays. -/
def Obligations.EndedRunIsLeftOnlyByCommand : Prop :=
  ∀ s t : State, s.phase = .done ∨ s.phase = .error → step s = .next t →
    (t.phase = s.phase ∧ t.err = s.err ∧ t.errPos = s.errPos ∧ t.errVal = s.errVal ∧ t.outMem = s.outMem ∧
      t.outLen = s.outLen) ∨
    s.mover = .blockReset ∨
    ∃ i, s.operation = some i ∧ (i.isStart = true ∨ i.isAbort = true)

/-- R25, R27, R32, R38, R45: TAIL_DROPPED, DICT_RESETS, IN_LEN and IN are written only by the operations the rules name,
and the parameters by none. -/
def Obligations.RegistersWrittenOnlyByTheirOperations : Prop :=
  ∀ s t : State, step s = .next t →
    let cleared := s.mover = .blockReset ∨ ∃ i, s.operation = some i ∧ (i.isStart = true ∨ i.isAbort = true)
    (t.tailDropped = s.tailDropped ∨ (t.tailDropped = true ∧ ∃ x, s.operation = some (.unpackTail1 x)) ∨
      (t.tailDropped = false ∧ cleared)) ∧
    (t.dictResets = s.dictResets ∨ (t.dictResets = s.dictResets + 1 ∧ s.operation = some .decDictReset) ∨
      (t.dictResets = 0 ∧ cleared)) ∧
    (t.inLen = s.inLen ∨ (s.phase.busy = false ∧
        ∃ i, s.operation = some i ∧ (i = .hostWrInLen t.inLen ∨ i = .hostWr32 0x08 t.inLen)) ∨
      s.mover = .blockReset) ∧
    (t.inMem = s.inMem ∨ (s.phase.busy = false ∧ ∃ a b, s.operation = some (.hostWrin a b)) ∨
      s.mover = .blockReset) ∧
    t.inMax = s.inMax ∧ t.outMax = s.outMax

/-- R61: while BUSY no step but block reset changes IN or IN_LEN, so every byte the BitUnpacker reads has the value it had
at START. -/
def Obligations.InputIsFrozenWhileBusy : Prop :=
  ∀ s t : State, s.phase.busy = true → s.mover ≠ .blockReset → step s = .next t →
    t.inLen = s.inLen ∧ t.inMem = s.inMem ∧ ∀ a, t.inByte a = s.inByte a

/-- R16, R17, R18, R23: within a run RP, N, CUR and OLEN never decrease, and a step moves CUR by at most one code. -/
def Obligations.RunRegistersOnlyAdvance : Prop :=
  ∀ s t : State, Inv s → s.phase.busy = true → t.phase.busy = true → step s = .next t →
    s.rp.toNat ≤ t.rp.toNat ∧ s.n.toNat ≤ t.n.toNat ∧ s.olen.toNat ≤ t.olen.toNat ∧
    (t.cur = s.cur ∨ t.cur.toNat = s.cur.toNat + 1) ∧
    s.dictResets.toNat ≤ t.dictResets.toNat

/-- R133: OutputOverflow is never raised when OUT_MAX >= 3841 * N_MAX. -/
def Obligations.LargeOutputBufferNeverOverflows : Prop :=
  ∀ s t : State, Inv s → 3841 * s.nMax ≤ s.outMax.toNat → step s = .next t → t.err = 3 → s.err = 3

/-- R137, R113: MalformedInput is raised only for the empty sequence, which is L = 0 or L = 1, with the record 0, 0; the
empty-chunk guard is unreachable. -/
def Obligations.MalformedInputOnlyWhenEmpty : Prop :=
  ∀ s t : State, Inv s → step s = .next t → t.err = 1 → s.err ≠ 1 →
    s.operation = some .decEmpty ∧ s.n = 0 ∧ s.inLen.toNat ≤ 1 ∧ t.errPos = 0 ∧ t.errVal = 0

/-- R20, R107: the strings that DICT stores at or above NEXT never matter. Two states that agree on everything but those
slots take steps to states that agree in the same way. -/
def Obligations.StaleSlotsAreNeverRead : Prop :=
  ∀ s s' t : State, s' = { s with dict := s'.dict } →
    (∀ k < s.next.toNat, Memory.read s'.dict k = Memory.read s.dict k) → step s = .next t →
    ∃ t', step s' = .next t' ∧ t' = { t with dict := t'.dict } ∧
      ∀ k < t.next.toNat, Memory.read t'.dict k = Memory.read t.dict k

/-! ### Whole runs -/

/-- R89, R91, R92: after START, the BitUnpacker phase takes exactly floor(L / 3) steps, one more for a remainder, and one to
end; then CODES holds the codes of IN[0 .. L - 1] in order, N and RP are as R89 says, and TAIL_DROPPED tells L mod 3 = 1. -/
def Obligations.UnpackPhaseYieldsTheCodes : Prop :=
  ∀ s : State, Inv s → s.phase.busy = false → s.inLen.toNat ≤ s.inMax.toNat → s.turns = [] →
    ∃ t, Sys2Proof.core.run (unpackSteps s.inLen.toNat) (startRun s) = .next t ∧ t.phase = .decInit ∧
      t.codeList = refUnpack s.input ∧ t.n.toNat = codeCount s.inLen.toNat ∧ t.rp = s.inLen ∧
      t.tailDropped = decide (s.inLen.toNat % 3 = 1) ∧ t.cur = 0 ∧ t.olen = 0

/-- R127, R126, R164: a run started with no other agent moving ends within the step bound of R92 and R115, in the first
state whose STATUS.STATE is 2 or 3, and shows Run(IN[0 .. L - 1], L). The rest of the end state of R126: CODE_COUNT and
TAIL_DROPPED as R89 says (0 when L > IN_MAX), and DICT_RESETS as R112 says, floor((N - 1) / 3841) at DONE and, of a code
that stands at ERR_POS, the number of its generation at ERROR. -/
def Obligations.RunShowsTheReferenceResult : Prop :=
  ∀ s : State, Inv s → s.phase.busy = false → s.turns = [] →
    ∃ k t, k ≤ unpackSteps s.inLen.toNat + decodeStepsBound (codeCount s.inLen.toNat) ∧
      EndsAfter (startRun s) k t ∧
      ShowsResult t (refRun s.inMax.toNat s.outMax.toNat s.input) ∧
      (s.inLen.toNat ≤ s.inMax.toNat →
        t.n.toNat = codeCount s.inLen.toNat ∧ t.tailDropped = decide (s.inLen.toNat % 3 = 1)) ∧
      (s.inMax.toNat < s.inLen.toNat → t.n = 0 ∧ t.tailDropped = false) ∧
      (t.phase = .done → t.dictResets.toNat = (t.n.toNat - 1) / 3841) ∧
      (t.phase = .error → t.dictResets.toNat = t.errPos.toNat / 3841)

/-- R114: a run's result depends only on L, IN[0 .. L - 1] and OUT_MAX. Two machines that agree on these, each with L at
most IN_MAX, end their runs within the step bound of R92 and R115, and there they show the host the same end state (R126):
STATUS, ERR_POS, ERR_VAL, CODE_COUNT, DICT_RESETS, OUT_LEN and, at DONE, the output, whatever else they hold. -/
def Obligations.RunDependsOnItsInputOnly : Prop :=
  ∀ s s' : State, Inv s → Inv s' → s.phase.busy = false → s'.phase.busy = false → s.turns = [] → s'.turns = [] →
    s.inLen = s'.inLen → s.input = s'.input → s.outMax = s'.outMax →
    s.inLen.toNat ≤ s.inMax.toNat → s'.inLen.toNat ≤ s'.inMax.toNat →
    ∃ k k' t t',
      k ≤ unpackSteps s.inLen.toNat + decodeStepsBound (codeCount s.inLen.toNat) ∧
      k' ≤ unpackSteps s.inLen.toNat + decodeStepsBound (codeCount s.inLen.toNat) ∧
      EndsAfter (startRun s) k t ∧ EndsAfter (startRun s') k' t' ∧
      t.status = t'.status ∧ t.errPos = t'.errPos ∧ t.errVal = t'.errVal ∧ t.n = t'.n ∧
      t.dictResets = t'.dictResets ∧ t.outLen = t'.outLen ∧
      (t.phase = .done → t.output = t'.output)

/-- Every step of the block keeps what the run will show (R93, R127): decoding the rest of the codes from the state after
the step gives the result that decoding them from the state before gave. -/
def Obligations.BlockStepKeepsTheRemainingResult : Prop :=
  ∀ s t : State, Inv s → s.phase = .decLoop → stepBlock s = .next t →
    let before := refDecodeFrom s.outMax.toNat (some (s.dictList, s.prev)) s.cur.toNat s.output
      (s.codeList.drop s.cur.toNat)
    (t.phase = .decLoop →
      refDecodeFrom t.outMax.toNat (some (t.dictList, t.prev)) t.cur.toNat t.output (t.codeList.drop t.cur.toNat) =
        before) ∧
    (t.phase = .decInit →
      refDecodeFrom t.outMax.toNat none t.cur.toNat t.output (t.codeList.drop t.cur.toNat) = before) ∧
    (t.phase = .done ∨ t.phase = .error → ShowsResult t before)

/-- R109: a non-empty sequence of literals decodes to their concatenation, across dictionary resets, when it fits OUT. -/
def Obligations.LiteralsDecodeToThemselves : Prop :=
  ∀ (outMax : Nat) (cs : List Code), cs ≠ [] → (∀ c ∈ cs, c.toNat < 256) → cs.length ≤ outMax →
    refDecode outMax cs = .ok (cs.map fun c => c.setWidth 8)

/-- R157 (a) to (c): with room for every chunk of R111, a sequence decodes exactly when it is not empty and each code is at
most 255 + j at place j of its generation. -/
def Obligations.DecodeSucceedsExactlyOnValidCodes : Prop :=
  ∀ (outMax : Nat) (cs : List Code), 3841 * cs.length ≤ outMax →
    ((∃ out, refDecode outMax cs = .ok out) ↔
      cs ≠ [] ∧ ∀ k (h : k < cs.length), cs[k].toNat ≤ 255 + k % 3841)

/-- R79, R156: the expansion of `DECODE b0 ... bL-1`, run by the host while the block waits, writes the bytes to IN, sets
IN_LEN and starts the run; its `WAIT` is left. -/
def Obligations.DecodeScriptStartsTheRun : Prop :=
  ∀ (s : State) (bytes : List Byte) (rest : List HostStmt),
    s.phase.busy = false → s.turns = [] → bytes.length ≤ s.inMax.toNat →
    s.hostProg = scriptDecode bytes ++ rest →
    ∃ t, Sys2Proof.core.run (bytes.length + 2) s = .next t ∧ t.phase = .unpack ∧ t.input = bytes ∧
      t.inLen.toNat = bytes.length ∧ t.hostProg = .wait :: rest
end

