-- ==== Sys2Proof/Laws/Decode.lean ====
section
/-! SUPPORT. The arithmetic of the word formats (30_encoding.md R66 to R72) and of the command words (R76): each field as
a number, and each assembly undone by the packing. -/

namespace Sys2Proof

/-- An OR whose parts do not overlap is a sum. -/
theorem mul_pow_or (x y k : Nat) (h : y < 2 ^ k) : x * 2 ^ k ||| y = x * 2 ^ k + y := by
  rw [← Nat.shiftLeft_eq, Nat.shiftLeft_add_eq_or_of_lt h]

/-! ### Assembly -/

theorem codeA_toNat (b0 b1 : Byte) : (codeA b0 b1).toNat = b0.toNat * 16 + b1.toNat / 16 := by
  have h0 := b0.isLt
  have h1 := b1.isLt
  simp only [codeA, BitVec.toNat_or, BitVec.toNat_shiftLeft, BitVec.toNat_setWidth, BitVec.toNat_ushiftRight,
    Nat.shiftLeft_eq, Nat.shiftRight_eq_div_pow]
  rw [Nat.mod_eq_of_lt (by omega : b0.toNat < 2 ^ 12), Nat.mod_eq_of_lt (by omega : b0.toNat * 2 ^ 4 < 2 ^ 12),
    Nat.mod_eq_of_lt (by omega : b1.toNat / 2 ^ 4 < 2 ^ 12), mul_pow_or _ _ _ (by omega)]
  norm_num

theorem codeB_toNat (b1 b2 : Byte) : (codeB b1 b2).toNat = b1.toNat % 16 * 256 + b2.toNat := by
  have h1 := b1.isLt
  have h2 := b2.isLt
  have low : (b1 &&& 0x0F#8).toNat = b1.toNat % 16 := by
    rw [BitVec.toNat_and]
    exact Nat.and_two_pow_sub_one_eq_mod b1.toNat 4
  simp only [codeB, BitVec.toNat_or, BitVec.toNat_shiftLeft, BitVec.toNat_setWidth, low, Nat.shiftLeft_eq]
  rw [Nat.mod_eq_of_lt (by omega : b1.toNat % 16 < 2 ^ 12), Nat.mod_eq_of_lt (by omega : b1.toNat % 16 * 2 ^ 8 < 2 ^ 12),
    Nat.mod_eq_of_lt (by omega : b2.toNat < 2 ^ 12), mul_pow_or _ _ _ (by omega)]
  norm_num

theorem tailCode_toNat (p u : Byte) : (tailCode p u).toNat = p.toNat * 256 + u.toNat := by
  have hp := p.isLt
  have hu := u.isLt
  simp only [tailCode, BitVec.toNat_or, BitVec.toNat_shiftLeft, BitVec.toNat_setWidth, Nat.shiftLeft_eq]
  rw [Nat.mod_eq_of_lt (by omega : p.toNat < 2 ^ 16), Nat.mod_eq_of_lt (by omega : p.toNat * 2 ^ 8 < 2 ^ 16),
    Nat.mod_eq_of_lt (by omega : u.toNat < 2 ^ 16), mul_pow_or _ _ _ (by omega)]
  norm_num

/-! ### Packing -/

theorem chunkBytes_first_toNat (a : Code12) : ((a >>> 4).setWidth 8 : Byte).toNat = a.toNat / 16 := by
  have := a.isLt
  simp only [BitVec.toNat_setWidth, BitVec.toNat_ushiftRight, Nat.shiftRight_eq_div_pow]
  omega

theorem chunkBytes_mid_toNat (a b : Code12) :
    (((a &&& 0xF#12) <<< 4 ||| b >>> 8).setWidth 8 : Byte).toNat = a.toNat % 16 * 16 + b.toNat / 256 := by
  have ha := a.isLt
  have hb := b.isLt
  have low : (a &&& 0xF#12).toNat = a.toNat % 16 := by
    rw [BitVec.toNat_and]
    exact Nat.and_two_pow_sub_one_eq_mod a.toNat 4
  simp only [BitVec.toNat_setWidth, BitVec.toNat_or, BitVec.toNat_shiftLeft, low, BitVec.toNat_ushiftRight,
    Nat.shiftLeft_eq, Nat.shiftRight_eq_div_pow]
  rw [Nat.mod_eq_of_lt (by omega : a.toNat % 16 * 2 ^ 4 < 2 ^ 12), mul_pow_or _ _ _ (by omega)]
  omega

theorem chunkBytes_last_toNat (b : Code12) : ((b &&& 0xFF#12).setWidth 8 : Byte).toNat = b.toNat % 256 := by
  have low := Nat.and_two_pow_sub_one_eq_mod b.toNat 8
  simp only [BitVec.toNat_setWidth, BitVec.toNat_and]
  simp at low ⊢
  rw [low]
  omega

theorem tailBytes_first_toNat (c : Code) : ((c >>> 8).setWidth 8 : Byte).toNat = c.toNat / 256 := by
  have := c.isLt
  simp only [BitVec.toNat_setWidth, BitVec.toNat_ushiftRight, Nat.shiftRight_eq_div_pow]
  omega

theorem tailBytes_last_toNat (c : Code) : ((c &&& 0xFF#16).setWidth 8 : Byte).toNat = c.toNat % 256 := by
  have low := Nat.and_two_pow_sub_one_eq_mod c.toNat 8
  simp only [BitVec.toNat_setWidth, BitVec.toNat_and]
  simp at low ⊢
  rw [low]
  omega

/-- The first code of a packed pair. -/
theorem codeA_of_chunkBytes (a b : Code12) :
    codeA ((a >>> 4).setWidth 8) (((a &&& 0xF#12) <<< 4 ||| b >>> 8).setWidth 8) = a := by
  apply BitVec.eq_of_toNat_eq
  rw [codeA_toNat, chunkBytes_mid_toNat, chunkBytes_first_toNat]
  have := b.isLt
  omega

/-- The second code of a packed pair. -/
theorem codeB_of_chunkBytes (a b : Code12) :
    codeB (((a &&& 0xF#12) <<< 4 ||| b >>> 8).setWidth 8) ((b &&& 0xFF#12).setWidth 8) = b := by
  apply BitVec.eq_of_toNat_eq
  rw [codeB_toNat, chunkBytes_mid_toNat, chunkBytes_last_toNat]
  have := b.isLt
  omega

/-- The code of a packed tail. -/
theorem tailCode_of_tailBytes (c : Code) : tailCode ((c >>> 8).setWidth 8) ((c &&& 0xFF#16).setWidth 8) = c := by
  apply BitVec.eq_of_toNat_eq
  rw [tailCode_toNat, tailBytes_first_toNat, tailBytes_last_toNat]
  omega

/-! ### Selection -/

/-- The mask of R73 is the test for a literal. -/
theorem literal_mask_iff (c : Code) : c &&& 0xFF00#16 = 0#16 ↔ c.toNat < 256 := by
  have shifted : (c &&& 0xFF00#16) = (c >>> 8) <<< 8 := by
    apply BitVec.eq_of_getLsbD_eq
    intro i hi
    simp only [BitVec.getLsbD_and, BitVec.getLsbD_shiftLeft, BitVec.getLsbD_ushiftRight]
    interval_cases i <;> simp
  rw [shifted]
  constructor
  · intro e
    have := congrArg BitVec.toNat e
    simp [Nat.shiftLeft_eq, Nat.shiftRight_eq_div_pow] at this
    have := c.isLt
    omega
  · intro e
    apply BitVec.eq_of_toNat_eq
    simp [Nat.shiftLeft_eq, Nat.shiftRight_eq_div_pow]
    omega

theorem startWord_bit0 (ign : BitVec 30) : (startWord ign).extractLsb' 0 1 = 1#1 := by
  apply BitVec.eq_of_getLsbD_eq
  intro i hi
  interval_cases i
  simp [startWord]

theorem startWord_bit1 (ign : BitVec 30) : (startWord ign).extractLsb' 1 1 = 0#1 := by
  apply BitVec.eq_of_getLsbD_eq
  intro i hi
  interval_cases i
  simp [startWord]

theorem startWord_ignored (ign : BitVec 30) : (startWord ign).extractLsb' 2 30 = ign := by
  apply BitVec.eq_of_getLsbD_eq
  intro i hi
  simp only [startWord, BitVec.getLsbD_extractLsb', BitVec.getLsbD_or, BitVec.getLsbD_shiftLeft,
    BitVec.getLsbD_setWidth, hi]
  simp [show 2 + i < 32 by omega, show i < 32 by omega, show ¬ 2 + i ≤ 1 by omega]

theorem abortWord_bit0 (ign : BitVec 30) (start : BitVec 1) : (abortWord ign start).extractLsb' 0 1 = start := by
  apply BitVec.eq_of_getLsbD_eq
  intro i hi
  interval_cases i
  simp [abortWord]

theorem abortWord_bit1 (ign : BitVec 30) (start : BitVec 1) : (abortWord ign start).extractLsb' 1 1 = 1#1 := by
  apply BitVec.eq_of_getLsbD_eq
  intro i hi
  interval_cases i
  simp [abortWord]

/-- Above bit 1 the constant 2 has no bit. -/
theorem two_getLsbD_above (i : Nat) : (2#32).getLsbD (2 + i) = false := by
  rw [BitVec.getLsbD_ofNat]
  simp only [Bool.and_eq_false_iff, decide_eq_false_iff_not]
  right
  apply Nat.testBit_lt_two_pow
  calc 2 < 2 ^ 2 := by norm_num
    _ ≤ 2 ^ (2 + i) := Nat.pow_le_pow_right (by norm_num) (by omega)

theorem abortWord_ignored (ign : BitVec 30) (start : BitVec 1) : (abortWord ign start).extractLsb' 2 30 = ign := by
  apply BitVec.eq_of_getLsbD_eq
  intro i hi
  have high : start.getLsbD (2 + i) = false := BitVec.getLsbD_of_ge _ _ (by omega)
  simp only [abortWord, BitVec.getLsbD_extractLsb', BitVec.getLsbD_or, BitVec.getLsbD_shiftLeft,
    BitVec.getLsbD_setWidth, hi, high, two_getLsbD_above]
  simp [show 2 + i < 32 by omega, show i < 32 by omega, show ¬ 2 + i ≤ 1 by omega]

/-- A word that START writes is decoded to START, its ignored bits kept. -/
theorem decodeWr32_startWord (ign : BitVec 30) : decodeWr32 0 (startWord ign) = .hostStart ign := by
  simp [decodeWr32, startWord_bit0, startWord_bit1, startWord_ignored]

/-- A word that ABORT writes is decoded to ABORT, its ignored bits kept. -/
theorem decodeWr32_abortWord (ign : BitVec 30) (start : BitVec 1) :
    decodeWr32 0 (abortWord ign start) = .hostAbort ign start := by
  simp [decodeWr32, abortWord_bit0, abortWord_bit1, abortWord_ignored]

/-- No command bit set, bit by bit. -/
theorem no_command_bits (v : Word) (h : v.extractLsb' 0 2 = 0#2) :
    v.extractLsb' 1 1 = 0#1 ∧ v.extractLsb' 0 1 = 0#1 := by
  constructor
  · apply BitVec.eq_of_getLsbD_eq
    intro i hi
    interval_cases i
    simpa [BitVec.getLsbD_extractLsb'] using congrArg (fun x => x.getLsbD 1) h
  · apply BitVec.eq_of_getLsbD_eq
    intro i hi
    interval_cases i
    simpa [BitVec.getLsbD_extractLsb'] using congrArg (fun x => x.getLsbD 0) h

/-- What the decoder makes of a host access is one of the host's instructions. -/
theorem decodeWr32_cases (off v : Word) :
    (∃ ign start, decodeWr32 off v = .hostAbort ign start ∧ off = 0x00 ∧ v.extractLsb' 1 1 = 1#1) ∨
    (∃ ign, decodeWr32 off v = .hostStart ign ∧ off = 0x00 ∧ v.extractLsb' 1 1 ≠ 1#1 ∧ v.extractLsb' 0 1 = 1#1) ∨
    (decodeWr32 off v = .hostWrInLen v ∧ off = 0x08) ∨
    (decodeWr32 off v = .hostWr32 off v ∧ off ≠ 0x08 ∧
      (off = 0x00 → v.extractLsb' 1 1 ≠ 1#1 ∧ v.extractLsb' 0 1 ≠ 1#1)) := by
  unfold decodeWr32
  split
  · next h0 =>
    split
    · next h1 => exact .inl ⟨_, _, rfl, h0, h1⟩
    · next h1 =>
      split
      · next h2 => exact .inr (.inl ⟨_, rfl, h0, h1, h2⟩)
      · next h2 => exact .inr (.inr (.inr ⟨rfl, by rw [h0]; decide, fun _ => ⟨h1, h2⟩⟩))
  · next h0 =>
    split
    · next h8 => exact .inr (.inr (.inl ⟨rfl, h8⟩))
    · next h8 => exact .inr (.inr (.inr ⟨rfl, h8, fun e => absurd e h0⟩))

end Sys2Proof
end

