-- ==== Sys2Proof/Laws/Memory.lean ====
section
/-! SUPPORT. The laws of memories: read after write, canonical form, bounds, and BuildBase. -/

namespace Sys2Proof.Machine

section
variable {α : Type}

@[simp] theorem Memory.read_nil (a : Nat) : Memory.read ([] : Memory α) a = none := rfl

theorem Memory.read_cons (k : Nat) (v : α) (m : Memory α) (a : Nat) :
    Memory.read ((k, v) :: m) a = if k = a then some v else Memory.read m a := rfl

/-- A read of the address written gives the content written. -/
@[simp] theorem Memory.read_write_same (m : Memory α) (a : Nat) (x : α) :
    Memory.read (Memory.write m a x) a = some x := by
  induction m with
  | nil => simp [Memory.write, Memory.read]
  | cons e m ih =>
    obtain ⟨k, v⟩ := e
    simp only [Memory.write]
    split
    · simp [Memory.read]
    · split
      · simp [Memory.read]
      · rename_i h1 h2
        simp [Memory.read, ih, Ne.symm h2]

/-- A write leaves every other address alone. -/
theorem Memory.read_write_other (m : Memory α) {a b : Nat} (x : α) (h : b ≠ a) :
    Memory.read (Memory.write m a x) b = Memory.read m b := by
  induction m with
  | nil => simp [Memory.write, Memory.read, Ne.symm h]
  | cons e m ih =>
    obtain ⟨k, v⟩ := e
    simp only [Memory.write]
    split
    · simp [Memory.read, Ne.symm h]
    · split
      · rename_i h1 h2
        subst h2
        simp [Memory.read, Ne.symm h]
      · simp [Memory.read, ih]

theorem Memory.read_write (m : Memory α) (a b : Nat) (x : α) :
    Memory.read (Memory.write m a x) b = if b = a then some x else Memory.read m b := by
  split
  · next h => rw [h, Memory.read_write_same]
  · next h => exact Memory.read_write_other m x h

/-- Every address of a written memory is the one written or was there before. -/
theorem Memory.mem_write {m : Memory α} {a : Nat} {x : α} {e : Nat × α} (h : e ∈ Memory.write m a x) :
    e = (a, x) ∨ e ∈ m := by
  induction m with
  | nil => simpa [Memory.write] using h
  | cons d m ih =>
    obtain ⟨k, v⟩ := d
    simp only [Memory.write] at h
    split at h
    · simpa using h
    · split at h
      · simp only [List.mem_cons] at h ⊢
        tauto
      · simp only [List.mem_cons] at h ⊢
        rcases h with h | h
        · exact .inr (.inl h)
        · rcases ih h with h | h
          · exact .inl h
          · exact .inr (.inr h)

/-- A write keeps the canonical form. -/
theorem Memory.wf_write {m : Memory α} (h : Memory.wf m) (a : Nat) (x : α) : Memory.wf (Memory.write m a x) := by
  induction m with
  | nil => simp [Memory.wf, Memory.write]
  | cons e m ih =>
    obtain ⟨k, v⟩ := e
    simp only [Memory.wf, List.map_cons, List.pairwise_cons] at h ih ⊢
    simp only [Memory.write]
    split
    · next hlt =>
      simp only [List.map_cons, List.pairwise_cons, List.mem_cons]
      refine ⟨?_, h⟩
      rintro b (rfl | hb)
      · exact hlt
      · exact hlt.trans (h.1 b hb)
    · split
      · next heq =>
        subst heq
        simpa using h
      · next hlt hne =>
        simp only [List.map_cons, List.pairwise_cons]
        refine ⟨?_, ih h.2⟩
        intro b hb
        simp only [List.mem_map] at hb
        obtain ⟨d, hd, rfl⟩ := hb
        rcases Memory.mem_write hd with rfl | hd
        · show k < a
          omega
        · exact h.1 d.1 (List.mem_map_of_mem hd)

/-- A write below the bound keeps the bound. -/
theorem Memory.below_write {m : Memory α} {bound a : Nat} (h : Memory.below m bound) (ha : a < bound) (x : α) :
    Memory.below (Memory.write m a x) bound := by
  intro e he
  rcases Memory.mem_write he with rfl | he
  · exact ha
  · exact h e he

theorem Memory.wf_nil : Memory.wf ([] : Memory α) := by simp [Memory.wf]

theorem Memory.below_nil (bound : Nat) : Memory.below ([] : Memory α) bound := by simp [Memory.below]

/-- Consecutive writes change exactly the addresses they cover. -/
theorem Memory.read_writeAll (m : Memory α) (a b : Nat) (xs : List α) :
    Memory.read (Memory.writeAll m a xs) b =
      if a ≤ b ∧ b < a + xs.length then xs[b - a]? else Memory.read m b := by
  induction xs generalizing m a with
  | nil =>
    simp only [Memory.writeAll, List.length_nil]
    rw [if_neg (by omega)]
  | cons x xs ih =>
    simp only [Memory.writeAll, ih, List.length_cons, Memory.read_write]
    by_cases h1 : a = b
    · subst h1
      simp
    · by_cases h2 : a + 1 ≤ b ∧ b < a + 1 + xs.length
      · rw [if_pos h2, if_pos (by omega)]
        have : b - a = (b - (a + 1)) + 1 := by omega
        rw [this, List.getElem?_cons_succ]
      · rw [if_neg h2, if_neg (by omega), if_neg (by omega)]

theorem Memory.wf_writeAll {m : Memory α} (h : Memory.wf m) (a : Nat) (xs : List α) :
    Memory.wf (Memory.writeAll m a xs) := by
  induction xs generalizing m a with
  | nil => exact h
  | cons x xs ih => exact ih (Memory.wf_write h a x) (a + 1)

theorem Memory.below_writeAll {m : Memory α} {bound a : Nat} (h : Memory.below m bound) (xs : List α)
    (ha : a + xs.length ≤ bound) : Memory.below (Memory.writeAll m a xs) bound := by
  induction xs generalizing m a with
  | nil => exact h
  | cons x xs ih =>
    simp only [List.length_cons] at ha
    exact ih (Memory.below_write h (by omega) x) (by omega)

/-- Reading a concatenation: the first part answers where it lists the address. -/
theorem Memory.read_append (m m' : Memory α) (a : Nat) :
    Memory.read (m ++ m') a = (Memory.read m a).or (Memory.read m' a) := by
  induction m with
  | nil => simp
  | cons e m ih =>
    obtain ⟨k, v⟩ := e
    simp only [List.cons_append, Memory.read_cons, ih]
    split <;> simp

theorem Memory.read_filter_ge (m : Memory α) (bound a : Nat) :
    Memory.read (m.filter fun e => decide (bound ≤ e.1)) a = if bound ≤ a then Memory.read m a else none := by
  induction m with
  | nil => simp
  | cons e m ih =>
    obtain ⟨k, v⟩ := e
    by_cases hk : bound ≤ k
    · simp only [List.filter_cons, hk, decide_true, if_true, Memory.read_cons, ih]
      by_cases hka : k = a
      · subst hka
        simp [hk]
      · simp [hka]
    · rw [List.filter_cons_of_neg (by simpa using hk), ih, Memory.read_cons]
      by_cases hka : k = a
      · subst hka
        simp [hk]
      · simp [hka]

end

/-! ### Tables -/

theorem Memory.read_table_from {α : Type} (f : Nat → α) (start count k : Nat) :
    Memory.read ((List.range' start count).map fun j => (j, f j)) k =
      if start ≤ k ∧ k < start + count then some (f k) else none := by
  induction count generalizing start with
  | zero => simp [show ¬ (start ≤ k ∧ k < start) by omega]
  | succ count ih =>
    simp only [List.range'_succ, List.map_cons, Memory.read_cons, ih]
    by_cases h : start = k
    · subst h
      simp
    · rw [if_neg h]
      by_cases h2 : start + 1 ≤ k ∧ k < start + 1 + count
      · rw [if_pos h2, if_pos (by omega)]
      · rw [if_neg h2, if_neg (by omega)]

/-- A memory that lists the addresses 0 to n - 1. -/
theorem Memory.read_table {α : Type} (f : Nat → α) (n k : Nat) :
    Memory.read ((List.range n).map fun j => (j, f j)) k = if k < n then some (f k) else none := by
  rw [List.range_eq_range', Memory.read_table_from]
  simp

theorem Memory.table_keys {α : Type} (f : Nat → α) (n : Nat) :
    ((List.range n).map fun j => (j, f j)).map Prod.fst = List.range n := by
  simp [Function.comp_def]

theorem Memory.wf_table {α : Type} (f : Nat → α) (n : Nat) : Memory.wf ((List.range n).map fun j => (j, f j)) := by
  rw [Memory.wf, Memory.table_keys]
  exact List.pairwise_lt_range

theorem Memory.below_table {α : Type} (f : Nat → α) {n bound : Nat} (h : n ≤ bound) :
    Memory.below ((List.range n).map fun j => (j, f j)) bound := by
  intro e he
  have hk := List.mem_map_of_mem (f := Prod.fst) he
  rw [Memory.table_keys, List.mem_range] at hk
  omega

/-! ### BuildBase -/

theorem read_baseAlphabet (k : Nat) :
    Memory.read baseAlphabet k = if k < 256 then some [BitVec.ofNat 8 k] else none := Memory.read_table _ _ _

/-- After BuildBase slots 0 to 255 are the base alphabet and every other slot is as before (41_decoder.md R95, R107). -/
theorem State.read_buildBase (s : State) (k : Nat) :
    Memory.read s.buildBase.dict k = if k < 256 then some [BitVec.ofNat 8 k] else Memory.read s.dict k := by
  simp only [State.buildBase, Memory.read_append, read_baseAlphabet, Memory.read_filter_ge]
  by_cases h : k < 256
  · simp [h]
  · simp [h, show 256 ≤ k by omega]

theorem baseAlphabet_keys : baseAlphabet.map Prod.fst = List.range 256 := Memory.table_keys _ _

theorem State.buildBase_wf {s : State} (h : Memory.wf s.dict) : Memory.wf s.buildBase.dict := by
  simp only [State.buildBase, Memory.wf, List.map_append, baseAlphabet_keys]
  rw [List.pairwise_append]
  refine ⟨List.pairwise_lt_range, ?_, ?_⟩
  · exact h.sublist (List.filter_sublist.map _)
  · intro a ha b hb
    simp only [List.mem_range] at ha
    simp only [List.mem_map, List.mem_filter, decide_eq_true_eq] at hb
    obtain ⟨e, ⟨_, he⟩, rfl⟩ := hb
    omega

theorem State.buildBase_below {s : State} (h : Memory.below s.dict Config.dictCap) :
    Memory.below s.buildBase.dict Config.dictCap := by
  intro e he
  simp only [State.buildBase, List.mem_append, List.mem_filter] at he
  rcases he with he | he
  · have : e.1 ∈ baseAlphabet.map Prod.fst := List.mem_map_of_mem he
    rw [baseAlphabet_keys, List.mem_range] at this
    simp only [Config.dictCap]
    omega
  · exact h e he.1

end Sys2Proof.Machine
end

