-- ==== Sys2Proof/Laws/State.lean ====
section
/-! SUPPORT. One lemma per field per update of State, each true by rfl, so that no proof unfolds a record update. -/

namespace Sys2Proof.Machine

/-! ### forget -/

@[simp] theorem State.forget_phase (s : State) : s.forget.phase = s.phase := rfl
@[simp] theorem State.forget_rp (s : State) : s.forget.rp = s.rp := rfl
@[simp] theorem State.forget_cur (s : State) : s.forget.cur = s.cur := rfl
@[simp] theorem State.forget_n (s : State) : s.forget.n = s.n := rfl
@[simp] theorem State.forget_codes (s : State) : s.forget.codes = [] := rfl
@[simp] theorem State.forget_dict (s : State) : s.forget.dict = [] := rfl
@[simp] theorem State.forget_next (s : State) : s.forget.next = Config.freeNext s.epoch := rfl
@[simp] theorem State.forget_prev (s : State) : s.forget.prev = Config.freePrev s.epoch := rfl
@[simp] theorem State.forget_olen (s : State) : s.forget.olen = s.olen := rfl
@[simp] theorem State.forget_inMem (s : State) : s.forget.inMem = s.inMem := rfl
@[simp] theorem State.forget_outMem (s : State) : s.forget.outMem = [] := rfl
@[simp] theorem State.forget_tailDropped (s : State) : s.forget.tailDropped = s.tailDropped := rfl
@[simp] theorem State.forget_err (s : State) : s.forget.err = s.err := rfl
@[simp] theorem State.forget_errPos (s : State) : s.forget.errPos = s.errPos := rfl
@[simp] theorem State.forget_errVal (s : State) : s.forget.errVal = s.errVal := rfl
@[simp] theorem State.forget_dictResets (s : State) : s.forget.dictResets = s.dictResets := rfl
@[simp] theorem State.forget_inLen (s : State) : s.forget.inLen = s.inLen := rfl
@[simp] theorem State.forget_inMax (s : State) : s.forget.inMax = s.inMax := rfl
@[simp] theorem State.forget_outMax (s : State) : s.forget.outMax = s.outMax := rfl
@[simp] theorem State.forget_rdata (s : State) : s.forget.rdata = s.rdata := rfl
@[simp] theorem State.forget_hostProg (s : State) : s.forget.hostProg = s.hostProg := rfl
@[simp] theorem State.forget_turns (s : State) : s.forget.turns = s.turns := rfl
@[simp] theorem State.forget_draws (s : State) : s.forget.draws = s.draws := rfl
@[simp] theorem State.forget_epoch (s : State) : s.forget.epoch = s.epoch + 1 := rfl
@[simp] theorem State.forget_inGen (s : State) : s.forget.inGen = s.inGen := rfl

/-! ### raise -/

@[simp] theorem State.raise_phase (kind : ErrorKind) (pos val : Word) (s : State) : (s.raise kind pos val).phase = .error := rfl
@[simp] theorem State.raise_rp (kind : ErrorKind) (pos val : Word) (s : State) : (s.raise kind pos val).rp = Config.freeRp s.epoch := rfl
@[simp] theorem State.raise_cur (kind : ErrorKind) (pos val : Word) (s : State) : (s.raise kind pos val).cur = Config.freeCur s.epoch := rfl
@[simp] theorem State.raise_n (kind : ErrorKind) (pos val : Word) (s : State) : (s.raise kind pos val).n = s.n := rfl
@[simp] theorem State.raise_codes (kind : ErrorKind) (pos val : Word) (s : State) : (s.raise kind pos val).codes = [] := rfl
@[simp] theorem State.raise_dict (kind : ErrorKind) (pos val : Word) (s : State) : (s.raise kind pos val).dict = [] := rfl
@[simp] theorem State.raise_next (kind : ErrorKind) (pos val : Word) (s : State) : (s.raise kind pos val).next = Config.freeNext s.epoch := rfl
@[simp] theorem State.raise_prev (kind : ErrorKind) (pos val : Word) (s : State) : (s.raise kind pos val).prev = Config.freePrev s.epoch := rfl
@[simp] theorem State.raise_olen (kind : ErrorKind) (pos val : Word) (s : State) : (s.raise kind pos val).olen = Config.freeOlen s.epoch := rfl
@[simp] theorem State.raise_inMem (kind : ErrorKind) (pos val : Word) (s : State) : (s.raise kind pos val).inMem = s.inMem := rfl
@[simp] theorem State.raise_outMem (kind : ErrorKind) (pos val : Word) (s : State) : (s.raise kind pos val).outMem = [] := rfl
@[simp] theorem State.raise_tailDropped (kind : ErrorKind) (pos val : Word) (s : State) : (s.raise kind pos val).tailDropped = s.tailDropped := rfl
@[simp] theorem State.raise_err (kind : ErrorKind) (pos val : Word) (s : State) : (s.raise kind pos val).err = kind.code := rfl
@[simp] theorem State.raise_errPos (kind : ErrorKind) (pos val : Word) (s : State) : (s.raise kind pos val).errPos = pos := rfl
@[simp] theorem State.raise_errVal (kind : ErrorKind) (pos val : Word) (s : State) : (s.raise kind pos val).errVal = val := rfl
@[simp] theorem State.raise_dictResets (kind : ErrorKind) (pos val : Word) (s : State) : (s.raise kind pos val).dictResets = s.dictResets := rfl
@[simp] theorem State.raise_inLen (kind : ErrorKind) (pos val : Word) (s : State) : (s.raise kind pos val).inLen = s.inLen := rfl
@[simp] theorem State.raise_inMax (kind : ErrorKind) (pos val : Word) (s : State) : (s.raise kind pos val).inMax = s.inMax := rfl
@[simp] theorem State.raise_outMax (kind : ErrorKind) (pos val : Word) (s : State) : (s.raise kind pos val).outMax = s.outMax := rfl
@[simp] theorem State.raise_rdata (kind : ErrorKind) (pos val : Word) (s : State) : (s.raise kind pos val).rdata = s.rdata := rfl
@[simp] theorem State.raise_hostProg (kind : ErrorKind) (pos val : Word) (s : State) : (s.raise kind pos val).hostProg = s.hostProg := rfl
@[simp] theorem State.raise_turns (kind : ErrorKind) (pos val : Word) (s : State) : (s.raise kind pos val).turns = s.turns := rfl
@[simp] theorem State.raise_draws (kind : ErrorKind) (pos val : Word) (s : State) : (s.raise kind pos val).draws = s.draws := rfl
@[simp] theorem State.raise_epoch (kind : ErrorKind) (pos val : Word) (s : State) : (s.raise kind pos val).epoch = s.epoch + 1 := rfl
@[simp] theorem State.raise_inGen (kind : ErrorKind) (pos val : Word) (s : State) : (s.raise kind pos val).inGen = s.inGen := rfl

/-! ### clearRun -/

@[simp] theorem State.clearRun_phase (s : State) : s.clearRun.phase = s.phase := rfl
@[simp] theorem State.clearRun_rp (s : State) : s.clearRun.rp = 0 := rfl
@[simp] theorem State.clearRun_cur (s : State) : s.clearRun.cur = 0 := rfl
@[simp] theorem State.clearRun_n (s : State) : s.clearRun.n = 0 := rfl
@[simp] theorem State.clearRun_codes (s : State) : s.clearRun.codes = s.codes := rfl
@[simp] theorem State.clearRun_dict (s : State) : s.clearRun.dict = s.dict := rfl
@[simp] theorem State.clearRun_next (s : State) : s.clearRun.next = s.next := rfl
@[simp] theorem State.clearRun_prev (s : State) : s.clearRun.prev = s.prev := rfl
@[simp] theorem State.clearRun_olen (s : State) : s.clearRun.olen = 0 := rfl
@[simp] theorem State.clearRun_inMem (s : State) : s.clearRun.inMem = s.inMem := rfl
@[simp] theorem State.clearRun_outMem (s : State) : s.clearRun.outMem = s.outMem := rfl
@[simp] theorem State.clearRun_tailDropped (s : State) : s.clearRun.tailDropped = false := rfl
@[simp] theorem State.clearRun_err (s : State) : s.clearRun.err = 0 := rfl
@[simp] theorem State.clearRun_errPos (s : State) : s.clearRun.errPos = 0 := rfl
@[simp] theorem State.clearRun_errVal (s : State) : s.clearRun.errVal = 0 := rfl
@[simp] theorem State.clearRun_dictResets (s : State) : s.clearRun.dictResets = 0 := rfl
@[simp] theorem State.clearRun_inLen (s : State) : s.clearRun.inLen = s.inLen := rfl
@[simp] theorem State.clearRun_inMax (s : State) : s.clearRun.inMax = s.inMax := rfl
@[simp] theorem State.clearRun_outMax (s : State) : s.clearRun.outMax = s.outMax := rfl
@[simp] theorem State.clearRun_rdata (s : State) : s.clearRun.rdata = s.rdata := rfl
@[simp] theorem State.clearRun_hostProg (s : State) : s.clearRun.hostProg = s.hostProg := rfl
@[simp] theorem State.clearRun_turns (s : State) : s.clearRun.turns = s.turns := rfl
@[simp] theorem State.clearRun_draws (s : State) : s.clearRun.draws = s.draws := rfl
@[simp] theorem State.clearRun_epoch (s : State) : s.clearRun.epoch = s.epoch := rfl
@[simp] theorem State.clearRun_inGen (s : State) : s.clearRun.inGen = s.inGen := rfl

/-! ### pushCode -/

@[simp] theorem State.pushCode_phase (c : Code) (s : State) : (s.pushCode c).phase = s.phase := rfl
@[simp] theorem State.pushCode_rp (c : Code) (s : State) : (s.pushCode c).rp = s.rp := rfl
@[simp] theorem State.pushCode_cur (c : Code) (s : State) : (s.pushCode c).cur = s.cur := rfl
@[simp] theorem State.pushCode_n (c : Code) (s : State) : (s.pushCode c).n = s.n + 1 := rfl
@[simp] theorem State.pushCode_codes (c : Code) (s : State) : (s.pushCode c).codes = Memory.write s.codes s.n.toNat c := rfl
@[simp] theorem State.pushCode_dict (c : Code) (s : State) : (s.pushCode c).dict = s.dict := rfl
@[simp] theorem State.pushCode_next (c : Code) (s : State) : (s.pushCode c).next = s.next := rfl
@[simp] theorem State.pushCode_prev (c : Code) (s : State) : (s.pushCode c).prev = s.prev := rfl
@[simp] theorem State.pushCode_olen (c : Code) (s : State) : (s.pushCode c).olen = s.olen := rfl
@[simp] theorem State.pushCode_inMem (c : Code) (s : State) : (s.pushCode c).inMem = s.inMem := rfl
@[simp] theorem State.pushCode_outMem (c : Code) (s : State) : (s.pushCode c).outMem = s.outMem := rfl
@[simp] theorem State.pushCode_tailDropped (c : Code) (s : State) : (s.pushCode c).tailDropped = s.tailDropped := rfl
@[simp] theorem State.pushCode_err (c : Code) (s : State) : (s.pushCode c).err = s.err := rfl
@[simp] theorem State.pushCode_errPos (c : Code) (s : State) : (s.pushCode c).errPos = s.errPos := rfl
@[simp] theorem State.pushCode_errVal (c : Code) (s : State) : (s.pushCode c).errVal = s.errVal := rfl
@[simp] theorem State.pushCode_dictResets (c : Code) (s : State) : (s.pushCode c).dictResets = s.dictResets := rfl
@[simp] theorem State.pushCode_inLen (c : Code) (s : State) : (s.pushCode c).inLen = s.inLen := rfl
@[simp] theorem State.pushCode_inMax (c : Code) (s : State) : (s.pushCode c).inMax = s.inMax := rfl
@[simp] theorem State.pushCode_outMax (c : Code) (s : State) : (s.pushCode c).outMax = s.outMax := rfl
@[simp] theorem State.pushCode_rdata (c : Code) (s : State) : (s.pushCode c).rdata = s.rdata := rfl
@[simp] theorem State.pushCode_hostProg (c : Code) (s : State) : (s.pushCode c).hostProg = s.hostProg := rfl
@[simp] theorem State.pushCode_turns (c : Code) (s : State) : (s.pushCode c).turns = s.turns := rfl
@[simp] theorem State.pushCode_draws (c : Code) (s : State) : (s.pushCode c).draws = s.draws := rfl
@[simp] theorem State.pushCode_epoch (c : Code) (s : State) : (s.pushCode c).epoch = s.epoch := rfl
@[simp] theorem State.pushCode_inGen (c : Code) (s : State) : (s.pushCode c).inGen = s.inGen := rfl

/-! ### buildBase -/

@[simp] theorem State.buildBase_phase (s : State) : s.buildBase.phase = s.phase := rfl
@[simp] theorem State.buildBase_rp (s : State) : s.buildBase.rp = s.rp := rfl
@[simp] theorem State.buildBase_cur (s : State) : s.buildBase.cur = s.cur := rfl
@[simp] theorem State.buildBase_n (s : State) : s.buildBase.n = s.n := rfl
@[simp] theorem State.buildBase_codes (s : State) : s.buildBase.codes = s.codes := rfl
@[simp] theorem State.buildBase_dict (s : State) : s.buildBase.dict = baseAlphabet ++ s.dict.filter (fun e => decide (256 ≤ e.1)) := rfl
@[simp] theorem State.buildBase_next (s : State) : s.buildBase.next = 256 := rfl
@[simp] theorem State.buildBase_prev (s : State) : s.buildBase.prev = s.prev := rfl
@[simp] theorem State.buildBase_olen (s : State) : s.buildBase.olen = s.olen := rfl
@[simp] theorem State.buildBase_inMem (s : State) : s.buildBase.inMem = s.inMem := rfl
@[simp] theorem State.buildBase_outMem (s : State) : s.buildBase.outMem = s.outMem := rfl
@[simp] theorem State.buildBase_tailDropped (s : State) : s.buildBase.tailDropped = s.tailDropped := rfl
@[simp] theorem State.buildBase_err (s : State) : s.buildBase.err = s.err := rfl
@[simp] theorem State.buildBase_errPos (s : State) : s.buildBase.errPos = s.errPos := rfl
@[simp] theorem State.buildBase_errVal (s : State) : s.buildBase.errVal = s.errVal := rfl
@[simp] theorem State.buildBase_dictResets (s : State) : s.buildBase.dictResets = s.dictResets := rfl
@[simp] theorem State.buildBase_inLen (s : State) : s.buildBase.inLen = s.inLen := rfl
@[simp] theorem State.buildBase_inMax (s : State) : s.buildBase.inMax = s.inMax := rfl
@[simp] theorem State.buildBase_outMax (s : State) : s.buildBase.outMax = s.outMax := rfl
@[simp] theorem State.buildBase_rdata (s : State) : s.buildBase.rdata = s.rdata := rfl
@[simp] theorem State.buildBase_hostProg (s : State) : s.buildBase.hostProg = s.hostProg := rfl
@[simp] theorem State.buildBase_turns (s : State) : s.buildBase.turns = s.turns := rfl
@[simp] theorem State.buildBase_draws (s : State) : s.buildBase.draws = s.draws := rfl
@[simp] theorem State.buildBase_epoch (s : State) : s.buildBase.epoch = s.epoch := rfl
@[simp] theorem State.buildBase_inGen (s : State) : s.buildBase.inGen = s.inGen := rfl

/-! ### appendOut -/

@[simp] theorem State.appendOut_phase (chunk : Str) (s : State) : (s.appendOut chunk).phase = s.phase := rfl
@[simp] theorem State.appendOut_rp (chunk : Str) (s : State) : (s.appendOut chunk).rp = s.rp := rfl
@[simp] theorem State.appendOut_cur (chunk : Str) (s : State) : (s.appendOut chunk).cur = s.cur := rfl
@[simp] theorem State.appendOut_n (chunk : Str) (s : State) : (s.appendOut chunk).n = s.n := rfl
@[simp] theorem State.appendOut_codes (chunk : Str) (s : State) : (s.appendOut chunk).codes = s.codes := rfl
@[simp] theorem State.appendOut_dict (chunk : Str) (s : State) : (s.appendOut chunk).dict = s.dict := rfl
@[simp] theorem State.appendOut_next (chunk : Str) (s : State) : (s.appendOut chunk).next = s.next := rfl
@[simp] theorem State.appendOut_prev (chunk : Str) (s : State) : (s.appendOut chunk).prev = s.prev := rfl
@[simp] theorem State.appendOut_olen (chunk : Str) (s : State) : (s.appendOut chunk).olen = s.olen + BitVec.ofNat 32 chunk.length := rfl
@[simp] theorem State.appendOut_inMem (chunk : Str) (s : State) : (s.appendOut chunk).inMem = s.inMem := rfl
@[simp] theorem State.appendOut_outMem (chunk : Str) (s : State) : (s.appendOut chunk).outMem = Memory.writeAll s.outMem s.olen.toNat chunk := rfl
@[simp] theorem State.appendOut_tailDropped (chunk : Str) (s : State) : (s.appendOut chunk).tailDropped = s.tailDropped := rfl
@[simp] theorem State.appendOut_err (chunk : Str) (s : State) : (s.appendOut chunk).err = s.err := rfl
@[simp] theorem State.appendOut_errPos (chunk : Str) (s : State) : (s.appendOut chunk).errPos = s.errPos := rfl
@[simp] theorem State.appendOut_errVal (chunk : Str) (s : State) : (s.appendOut chunk).errVal = s.errVal := rfl
@[simp] theorem State.appendOut_dictResets (chunk : Str) (s : State) : (s.appendOut chunk).dictResets = s.dictResets := rfl
@[simp] theorem State.appendOut_inLen (chunk : Str) (s : State) : (s.appendOut chunk).inLen = s.inLen := rfl
@[simp] theorem State.appendOut_inMax (chunk : Str) (s : State) : (s.appendOut chunk).inMax = s.inMax := rfl
@[simp] theorem State.appendOut_outMax (chunk : Str) (s : State) : (s.appendOut chunk).outMax = s.outMax := rfl
@[simp] theorem State.appendOut_rdata (chunk : Str) (s : State) : (s.appendOut chunk).rdata = s.rdata := rfl
@[simp] theorem State.appendOut_hostProg (chunk : Str) (s : State) : (s.appendOut chunk).hostProg = s.hostProg := rfl
@[simp] theorem State.appendOut_turns (chunk : Str) (s : State) : (s.appendOut chunk).turns = s.turns := rfl
@[simp] theorem State.appendOut_draws (chunk : Str) (s : State) : (s.appendOut chunk).draws = s.draws := rfl
@[simp] theorem State.appendOut_epoch (chunk : Str) (s : State) : (s.appendOut chunk).epoch = s.epoch := rfl
@[simp] theorem State.appendOut_inGen (chunk : Str) (s : State) : (s.appendOut chunk).inGen = s.inGen := rfl

/-! ### grow -/

@[simp] theorem State.grow_phase (first : Byte) (chunk : Str) (s : State) : (s.grow first chunk).phase = s.phase := rfl
@[simp] theorem State.grow_rp (first : Byte) (chunk : Str) (s : State) : (s.grow first chunk).rp = s.rp := rfl
@[simp] theorem State.grow_cur (first : Byte) (chunk : Str) (s : State) : (s.grow first chunk).cur = s.cur + 1 := rfl
@[simp] theorem State.grow_n (first : Byte) (chunk : Str) (s : State) : (s.grow first chunk).n = s.n := rfl
@[simp] theorem State.grow_codes (first : Byte) (chunk : Str) (s : State) : (s.grow first chunk).codes = s.codes := rfl
@[simp] theorem State.grow_dict (first : Byte) (chunk : Str) (s : State) : (s.grow first chunk).dict = Memory.write s.dict s.next.toNat (s.prev ++ [first]) := rfl
@[simp] theorem State.grow_next (first : Byte) (chunk : Str) (s : State) : (s.grow first chunk).next = s.next + 1 := rfl
@[simp] theorem State.grow_prev (first : Byte) (chunk : Str) (s : State) : (s.grow first chunk).prev = chunk := rfl
@[simp] theorem State.grow_olen (first : Byte) (chunk : Str) (s : State) : (s.grow first chunk).olen = s.olen := rfl
@[simp] theorem State.grow_inMem (first : Byte) (chunk : Str) (s : State) : (s.grow first chunk).inMem = s.inMem := rfl
@[simp] theorem State.grow_outMem (first : Byte) (chunk : Str) (s : State) : (s.grow first chunk).outMem = s.outMem := rfl
@[simp] theorem State.grow_tailDropped (first : Byte) (chunk : Str) (s : State) : (s.grow first chunk).tailDropped = s.tailDropped := rfl
@[simp] theorem State.grow_err (first : Byte) (chunk : Str) (s : State) : (s.grow first chunk).err = s.err := rfl
@[simp] theorem State.grow_errPos (first : Byte) (chunk : Str) (s : State) : (s.grow first chunk).errPos = s.errPos := rfl
@[simp] theorem State.grow_errVal (first : Byte) (chunk : Str) (s : State) : (s.grow first chunk).errVal = s.errVal := rfl
@[simp] theorem State.grow_dictResets (first : Byte) (chunk : Str) (s : State) : (s.grow first chunk).dictResets = s.dictResets := rfl
@[simp] theorem State.grow_inLen (first : Byte) (chunk : Str) (s : State) : (s.grow first chunk).inLen = s.inLen := rfl
@[simp] theorem State.grow_inMax (first : Byte) (chunk : Str) (s : State) : (s.grow first chunk).inMax = s.inMax := rfl
@[simp] theorem State.grow_outMax (first : Byte) (chunk : Str) (s : State) : (s.grow first chunk).outMax = s.outMax := rfl
@[simp] theorem State.grow_rdata (first : Byte) (chunk : Str) (s : State) : (s.grow first chunk).rdata = s.rdata := rfl
@[simp] theorem State.grow_hostProg (first : Byte) (chunk : Str) (s : State) : (s.grow first chunk).hostProg = s.hostProg := rfl
@[simp] theorem State.grow_turns (first : Byte) (chunk : Str) (s : State) : (s.grow first chunk).turns = s.turns := rfl
@[simp] theorem State.grow_draws (first : Byte) (chunk : Str) (s : State) : (s.grow first chunk).draws = s.draws := rfl
@[simp] theorem State.grow_epoch (first : Byte) (chunk : Str) (s : State) : (s.grow first chunk).epoch = s.epoch := rfl
@[simp] theorem State.grow_inGen (first : Byte) (chunk : Str) (s : State) : (s.grow first chunk).inGen = s.inGen := rfl

/-! ### answer -/

@[simp] theorem State.answer_phase (v : Word) (s : State) : (s.answer v).phase = s.phase := rfl
@[simp] theorem State.answer_rp (v : Word) (s : State) : (s.answer v).rp = s.rp := rfl
@[simp] theorem State.answer_cur (v : Word) (s : State) : (s.answer v).cur = s.cur := rfl
@[simp] theorem State.answer_n (v : Word) (s : State) : (s.answer v).n = s.n := rfl
@[simp] theorem State.answer_codes (v : Word) (s : State) : (s.answer v).codes = s.codes := rfl
@[simp] theorem State.answer_dict (v : Word) (s : State) : (s.answer v).dict = s.dict := rfl
@[simp] theorem State.answer_next (v : Word) (s : State) : (s.answer v).next = s.next := rfl
@[simp] theorem State.answer_prev (v : Word) (s : State) : (s.answer v).prev = s.prev := rfl
@[simp] theorem State.answer_olen (v : Word) (s : State) : (s.answer v).olen = s.olen := rfl
@[simp] theorem State.answer_inMem (v : Word) (s : State) : (s.answer v).inMem = s.inMem := rfl
@[simp] theorem State.answer_outMem (v : Word) (s : State) : (s.answer v).outMem = s.outMem := rfl
@[simp] theorem State.answer_tailDropped (v : Word) (s : State) : (s.answer v).tailDropped = s.tailDropped := rfl
@[simp] theorem State.answer_err (v : Word) (s : State) : (s.answer v).err = s.err := rfl
@[simp] theorem State.answer_errPos (v : Word) (s : State) : (s.answer v).errPos = s.errPos := rfl
@[simp] theorem State.answer_errVal (v : Word) (s : State) : (s.answer v).errVal = s.errVal := rfl
@[simp] theorem State.answer_dictResets (v : Word) (s : State) : (s.answer v).dictResets = s.dictResets := rfl
@[simp] theorem State.answer_inLen (v : Word) (s : State) : (s.answer v).inLen = s.inLen := rfl
@[simp] theorem State.answer_inMax (v : Word) (s : State) : (s.answer v).inMax = s.inMax := rfl
@[simp] theorem State.answer_outMax (v : Word) (s : State) : (s.answer v).outMax = s.outMax := rfl
@[simp] theorem State.answer_rdata (v : Word) (s : State) : (s.answer v).rdata = v := rfl
@[simp] theorem State.answer_hostProg (v : Word) (s : State) : (s.answer v).hostProg = s.hostProg := rfl
@[simp] theorem State.answer_turns (v : Word) (s : State) : (s.answer v).turns = s.turns := rfl
@[simp] theorem State.answer_draws (v : Word) (s : State) : (s.answer v).draws = s.draws := rfl
@[simp] theorem State.answer_epoch (v : Word) (s : State) : (s.answer v).epoch = s.epoch := rfl
@[simp] theorem State.answer_inGen (v : Word) (s : State) : (s.answer v).inGen = s.inGen := rfl

/-! ### drawOut -/

@[simp] theorem State.drawOut_phase (s : State) : s.drawOut.phase = s.phase := rfl
@[simp] theorem State.drawOut_rp (s : State) : s.drawOut.rp = s.rp := rfl
@[simp] theorem State.drawOut_cur (s : State) : s.drawOut.cur = s.cur := rfl
@[simp] theorem State.drawOut_n (s : State) : s.drawOut.n = s.n := rfl
@[simp] theorem State.drawOut_codes (s : State) : s.drawOut.codes = s.codes := rfl
@[simp] theorem State.drawOut_dict (s : State) : s.drawOut.dict = s.dict := rfl
@[simp] theorem State.drawOut_next (s : State) : s.drawOut.next = s.next := rfl
@[simp] theorem State.drawOut_prev (s : State) : s.drawOut.prev = s.prev := rfl
@[simp] theorem State.drawOut_olen (s : State) : s.drawOut.olen = s.olen := rfl
@[simp] theorem State.drawOut_inMem (s : State) : s.drawOut.inMem = s.inMem := rfl
@[simp] theorem State.drawOut_outMem (s : State) : s.drawOut.outMem = s.outMem := rfl
@[simp] theorem State.drawOut_tailDropped (s : State) : s.drawOut.tailDropped = s.tailDropped := rfl
@[simp] theorem State.drawOut_err (s : State) : s.drawOut.err = s.err := rfl
@[simp] theorem State.drawOut_errPos (s : State) : s.drawOut.errPos = s.errPos := rfl
@[simp] theorem State.drawOut_errVal (s : State) : s.drawOut.errVal = s.errVal := rfl
@[simp] theorem State.drawOut_dictResets (s : State) : s.drawOut.dictResets = s.dictResets := rfl
@[simp] theorem State.drawOut_inLen (s : State) : s.drawOut.inLen = s.inLen := rfl
@[simp] theorem State.drawOut_inMax (s : State) : s.drawOut.inMax = s.inMax := rfl
@[simp] theorem State.drawOut_outMax (s : State) : s.drawOut.outMax = s.outMax := rfl
@[simp] theorem State.drawOut_rdata (s : State) : s.drawOut.rdata = (Config.freeOutByte s.draws).setWidth 32 := rfl
@[simp] theorem State.drawOut_hostProg (s : State) : s.drawOut.hostProg = s.hostProg := rfl
@[simp] theorem State.drawOut_turns (s : State) : s.drawOut.turns = s.turns := rfl
@[simp] theorem State.drawOut_draws (s : State) : s.drawOut.draws = s.draws + 1 := rfl
@[simp] theorem State.drawOut_epoch (s : State) : s.drawOut.epoch = s.epoch := rfl
@[simp] theorem State.drawOut_inGen (s : State) : s.drawOut.inGen = s.inGen := rfl

/-! ### popTurn -/

@[simp] theorem State.popTurn_phase (s : State) : s.popTurn.phase = s.phase := rfl
@[simp] theorem State.popTurn_rp (s : State) : s.popTurn.rp = s.rp := rfl
@[simp] theorem State.popTurn_cur (s : State) : s.popTurn.cur = s.cur := rfl
@[simp] theorem State.popTurn_n (s : State) : s.popTurn.n = s.n := rfl
@[simp] theorem State.popTurn_codes (s : State) : s.popTurn.codes = s.codes := rfl
@[simp] theorem State.popTurn_dict (s : State) : s.popTurn.dict = s.dict := rfl
@[simp] theorem State.popTurn_next (s : State) : s.popTurn.next = s.next := rfl
@[simp] theorem State.popTurn_prev (s : State) : s.popTurn.prev = s.prev := rfl
@[simp] theorem State.popTurn_olen (s : State) : s.popTurn.olen = s.olen := rfl
@[simp] theorem State.popTurn_inMem (s : State) : s.popTurn.inMem = s.inMem := rfl
@[simp] theorem State.popTurn_outMem (s : State) : s.popTurn.outMem = s.outMem := rfl
@[simp] theorem State.popTurn_tailDropped (s : State) : s.popTurn.tailDropped = s.tailDropped := rfl
@[simp] theorem State.popTurn_err (s : State) : s.popTurn.err = s.err := rfl
@[simp] theorem State.popTurn_errPos (s : State) : s.popTurn.errPos = s.errPos := rfl
@[simp] theorem State.popTurn_errVal (s : State) : s.popTurn.errVal = s.errVal := rfl
@[simp] theorem State.popTurn_dictResets (s : State) : s.popTurn.dictResets = s.dictResets := rfl
@[simp] theorem State.popTurn_inLen (s : State) : s.popTurn.inLen = s.inLen := rfl
@[simp] theorem State.popTurn_inMax (s : State) : s.popTurn.inMax = s.inMax := rfl
@[simp] theorem State.popTurn_outMax (s : State) : s.popTurn.outMax = s.outMax := rfl
@[simp] theorem State.popTurn_rdata (s : State) : s.popTurn.rdata = s.rdata := rfl
@[simp] theorem State.popTurn_hostProg (s : State) : s.popTurn.hostProg = s.hostProg := rfl
@[simp] theorem State.popTurn_turns (s : State) : s.popTurn.turns = s.turns.tail := rfl
@[simp] theorem State.popTurn_draws (s : State) : s.popTurn.draws = s.draws := rfl
@[simp] theorem State.popTurn_epoch (s : State) : s.popTurn.epoch = s.epoch := rfl
@[simp] theorem State.popTurn_inGen (s : State) : s.popTurn.inGen = s.inGen := rfl

/-! ### setHostProg -/

@[simp] theorem State.setHostProg_phase (prog : List HostStmt) (s : State) : (s.setHostProg prog).phase = s.phase := rfl
@[simp] theorem State.setHostProg_rp (prog : List HostStmt) (s : State) : (s.setHostProg prog).rp = s.rp := rfl
@[simp] theorem State.setHostProg_cur (prog : List HostStmt) (s : State) : (s.setHostProg prog).cur = s.cur := rfl
@[simp] theorem State.setHostProg_n (prog : List HostStmt) (s : State) : (s.setHostProg prog).n = s.n := rfl
@[simp] theorem State.setHostProg_codes (prog : List HostStmt) (s : State) : (s.setHostProg prog).codes = s.codes := rfl
@[simp] theorem State.setHostProg_dict (prog : List HostStmt) (s : State) : (s.setHostProg prog).dict = s.dict := rfl
@[simp] theorem State.setHostProg_next (prog : List HostStmt) (s : State) : (s.setHostProg prog).next = s.next := rfl
@[simp] theorem State.setHostProg_prev (prog : List HostStmt) (s : State) : (s.setHostProg prog).prev = s.prev := rfl
@[simp] theorem State.setHostProg_olen (prog : List HostStmt) (s : State) : (s.setHostProg prog).olen = s.olen := rfl
@[simp] theorem State.setHostProg_inMem (prog : List HostStmt) (s : State) : (s.setHostProg prog).inMem = s.inMem := rfl
@[simp] theorem State.setHostProg_outMem (prog : List HostStmt) (s : State) : (s.setHostProg prog).outMem = s.outMem := rfl
@[simp] theorem State.setHostProg_tailDropped (prog : List HostStmt) (s : State) : (s.setHostProg prog).tailDropped = s.tailDropped := rfl
@[simp] theorem State.setHostProg_err (prog : List HostStmt) (s : State) : (s.setHostProg prog).err = s.err := rfl
@[simp] theorem State.setHostProg_errPos (prog : List HostStmt) (s : State) : (s.setHostProg prog).errPos = s.errPos := rfl
@[simp] theorem State.setHostProg_errVal (prog : List HostStmt) (s : State) : (s.setHostProg prog).errVal = s.errVal := rfl
@[simp] theorem State.setHostProg_dictResets (prog : List HostStmt) (s : State) : (s.setHostProg prog).dictResets = s.dictResets := rfl
@[simp] theorem State.setHostProg_inLen (prog : List HostStmt) (s : State) : (s.setHostProg prog).inLen = s.inLen := rfl
@[simp] theorem State.setHostProg_inMax (prog : List HostStmt) (s : State) : (s.setHostProg prog).inMax = s.inMax := rfl
@[simp] theorem State.setHostProg_outMax (prog : List HostStmt) (s : State) : (s.setHostProg prog).outMax = s.outMax := rfl
@[simp] theorem State.setHostProg_rdata (prog : List HostStmt) (s : State) : (s.setHostProg prog).rdata = s.rdata := rfl
@[simp] theorem State.setHostProg_hostProg (prog : List HostStmt) (s : State) : (s.setHostProg prog).hostProg = prog := rfl
@[simp] theorem State.setHostProg_turns (prog : List HostStmt) (s : State) : (s.setHostProg prog).turns = s.turns := rfl
@[simp] theorem State.setHostProg_draws (prog : List HostStmt) (s : State) : (s.setHostProg prog).draws = s.draws := rfl
@[simp] theorem State.setHostProg_epoch (prog : List HostStmt) (s : State) : (s.setHostProg prog).epoch = s.epoch := rfl
@[simp] theorem State.setHostProg_inGen (prog : List HostStmt) (s : State) : (s.setHostProg prog).inGen = s.inGen := rfl

/-! ### refuseRun -/

@[simp] theorem refuseRun_phase (s : State) : (refuseRun s).phase = .error := rfl
@[simp] theorem refuseRun_rp (s : State) : (refuseRun s).rp = 0 := rfl
@[simp] theorem refuseRun_cur (s : State) : (refuseRun s).cur = 0 := rfl
@[simp] theorem refuseRun_n (s : State) : (refuseRun s).n = 0 := rfl
@[simp] theorem refuseRun_codes (s : State) : (refuseRun s).codes = [] := rfl
@[simp] theorem refuseRun_dict (s : State) : (refuseRun s).dict = [] := rfl
@[simp] theorem refuseRun_next (s : State) : (refuseRun s).next = Config.freeNext s.epoch := rfl
@[simp] theorem refuseRun_prev (s : State) : (refuseRun s).prev = Config.freePrev s.epoch := rfl
@[simp] theorem refuseRun_olen (s : State) : (refuseRun s).olen = 0 := rfl
@[simp] theorem refuseRun_inMem (s : State) : (refuseRun s).inMem = s.inMem := rfl
@[simp] theorem refuseRun_outMem (s : State) : (refuseRun s).outMem = [] := rfl
@[simp] theorem refuseRun_tailDropped (s : State) : (refuseRun s).tailDropped = false := rfl
@[simp] theorem refuseRun_err (s : State) : (refuseRun s).err = 4 := rfl
@[simp] theorem refuseRun_errPos (s : State) : (refuseRun s).errPos = 0 := rfl
@[simp] theorem refuseRun_errVal (s : State) : (refuseRun s).errVal = 0 := rfl
@[simp] theorem refuseRun_dictResets (s : State) : (refuseRun s).dictResets = 0 := rfl
@[simp] theorem refuseRun_inLen (s : State) : (refuseRun s).inLen = s.inLen := rfl
@[simp] theorem refuseRun_inMax (s : State) : (refuseRun s).inMax = s.inMax := rfl
@[simp] theorem refuseRun_outMax (s : State) : (refuseRun s).outMax = s.outMax := rfl
@[simp] theorem refuseRun_rdata (s : State) : (refuseRun s).rdata = s.rdata := rfl
@[simp] theorem refuseRun_hostProg (s : State) : (refuseRun s).hostProg = s.hostProg := rfl
@[simp] theorem refuseRun_turns (s : State) : (refuseRun s).turns = s.turns := rfl
@[simp] theorem refuseRun_draws (s : State) : (refuseRun s).draws = s.draws := rfl
@[simp] theorem refuseRun_epoch (s : State) : (refuseRun s).epoch = s.epoch + 1 := rfl
@[simp] theorem refuseRun_inGen (s : State) : (refuseRun s).inGen = s.inGen := rfl

/-! ### abortRun -/

@[simp] theorem abortRun_phase (s : State) : (abortRun s).phase = .idle := rfl
@[simp] theorem abortRun_rp (s : State) : (abortRun s).rp = 0 := rfl
@[simp] theorem abortRun_cur (s : State) : (abortRun s).cur = 0 := rfl
@[simp] theorem abortRun_n (s : State) : (abortRun s).n = 0 := rfl
@[simp] theorem abortRun_codes (s : State) : (abortRun s).codes = [] := rfl
@[simp] theorem abortRun_dict (s : State) : (abortRun s).dict = [] := rfl
@[simp] theorem abortRun_next (s : State) : (abortRun s).next = Config.freeNext s.epoch := rfl
@[simp] theorem abortRun_prev (s : State) : (abortRun s).prev = Config.freePrev s.epoch := rfl
@[simp] theorem abortRun_olen (s : State) : (abortRun s).olen = 0 := rfl
@[simp] theorem abortRun_inMem (s : State) : (abortRun s).inMem = s.inMem := rfl
@[simp] theorem abortRun_outMem (s : State) : (abortRun s).outMem = [] := rfl
@[simp] theorem abortRun_tailDropped (s : State) : (abortRun s).tailDropped = false := rfl
@[simp] theorem abortRun_err (s : State) : (abortRun s).err = 0 := rfl
@[simp] theorem abortRun_errPos (s : State) : (abortRun s).errPos = 0 := rfl
@[simp] theorem abortRun_errVal (s : State) : (abortRun s).errVal = 0 := rfl
@[simp] theorem abortRun_dictResets (s : State) : (abortRun s).dictResets = 0 := rfl
@[simp] theorem abortRun_inLen (s : State) : (abortRun s).inLen = s.inLen := rfl
@[simp] theorem abortRun_inMax (s : State) : (abortRun s).inMax = s.inMax := rfl
@[simp] theorem abortRun_outMax (s : State) : (abortRun s).outMax = s.outMax := rfl
@[simp] theorem abortRun_rdata (s : State) : (abortRun s).rdata = s.rdata := rfl
@[simp] theorem abortRun_hostProg (s : State) : (abortRun s).hostProg = s.hostProg := rfl
@[simp] theorem abortRun_turns (s : State) : (abortRun s).turns = s.turns := rfl
@[simp] theorem abortRun_draws (s : State) : (abortRun s).draws = s.draws := rfl
@[simp] theorem abortRun_epoch (s : State) : (abortRun s).epoch = s.epoch + 1 := rfl
@[simp] theorem abortRun_inGen (s : State) : (abortRun s).inGen = s.inGen := rfl

/-! ### blockReset -/

@[simp] theorem blockReset_phase (s : State) : (blockReset s).phase = .idle := rfl
@[simp] theorem blockReset_rp (s : State) : (blockReset s).rp = 0 := rfl
@[simp] theorem blockReset_cur (s : State) : (blockReset s).cur = 0 := rfl
@[simp] theorem blockReset_n (s : State) : (blockReset s).n = 0 := rfl
@[simp] theorem blockReset_codes (s : State) : (blockReset s).codes = [] := rfl
@[simp] theorem blockReset_dict (s : State) : (blockReset s).dict = [] := rfl
@[simp] theorem blockReset_next (s : State) : (blockReset s).next = Config.freeNext s.epoch := rfl
@[simp] theorem blockReset_prev (s : State) : (blockReset s).prev = Config.freePrev s.epoch := rfl
@[simp] theorem blockReset_olen (s : State) : (blockReset s).olen = 0 := rfl
@[simp] theorem blockReset_inMem (s : State) : (blockReset s).inMem = [] := rfl
@[simp] theorem blockReset_outMem (s : State) : (blockReset s).outMem = [] := rfl
@[simp] theorem blockReset_tailDropped (s : State) : (blockReset s).tailDropped = false := rfl
@[simp] theorem blockReset_err (s : State) : (blockReset s).err = 0 := rfl
@[simp] theorem blockReset_errPos (s : State) : (blockReset s).errPos = 0 := rfl
@[simp] theorem blockReset_errVal (s : State) : (blockReset s).errVal = 0 := rfl
@[simp] theorem blockReset_dictResets (s : State) : (blockReset s).dictResets = 0 := rfl
@[simp] theorem blockReset_inLen (s : State) : (blockReset s).inLen = 0 := rfl
@[simp] theorem blockReset_inMax (s : State) : (blockReset s).inMax = s.inMax := rfl
@[simp] theorem blockReset_outMax (s : State) : (blockReset s).outMax = s.outMax := rfl
@[simp] theorem blockReset_rdata (s : State) : (blockReset s).rdata = s.rdata := rfl
@[simp] theorem blockReset_hostProg (s : State) : (blockReset s).hostProg = s.hostProg := rfl
@[simp] theorem blockReset_turns (s : State) : (blockReset s).turns = s.turns := rfl
@[simp] theorem blockReset_draws (s : State) : (blockReset s).draws = s.draws := rfl
@[simp] theorem blockReset_epoch (s : State) : (blockReset s).epoch = s.epoch + 1 := rfl
@[simp] theorem blockReset_inGen (s : State) : (blockReset s).inGen = s.inGen + 1 := rfl

end Sys2Proof.Machine
end

