-- ==== Sys2Proof/Laws/Ops.lean ====
section
/-! SUPPORT. For each shared operation, one lemma that says once everything it can do. -/

namespace Sys2Proof.Machine

/-- Append answers OutputOverflow, or goes on with the chunk appended (41_decoder.md R110). -/
theorem appendThen_cases (chunk : Str) (c : Code) (s : State) (rest : State → Result) :
    (s.outMax.toNat < s.olen.toNat + chunk.length ∧
      appendThen chunk c s rest = .next (s.raise .outputOverflow s.cur (c.setWidth 32))) ∨
    (s.olen.toNat + chunk.length ≤ s.outMax.toNat ∧ appendThen chunk c s rest = rest (s.appendOut chunk)) := by
  unfold appendThen
  split
  · next h => exact .inl ⟨h, rfl⟩
  · next h => exact .inr ⟨by omega, rfl⟩

/-- The end of a main-loop step raises on an empty chunk, grows the dictionary, or stops outside it (R105, R113). -/
theorem defineEntry_cases (chunk : Str) (c : Code) (s : State) :
    (chunk = [] ∧ defineEntry chunk c s = .next (s.raise .malformedInput s.cur (c.setWidth 32))) ∨
    (∃ first rest, chunk = first :: rest ∧ s.next.toNat < Config.dictCap ∧
      defineEntry chunk c s = .next (s.grow first chunk)) ∨
    (chunk ≠ [] ∧ Config.dictCap ≤ s.next.toNat ∧ defineEntry chunk c s = .fault .outsideSpace) := by
  cases chunk with
  | nil => exact .inl ⟨rfl, rfl⟩
  | cons first rest =>
    by_cases h : s.next.toNat < Config.dictCap
    · exact .inr (.inl ⟨first, rest, rfl, h, by simp [defineEntry, h]⟩)
    · exact .inr (.inr ⟨by simp, by omega, by simp [defineEntry, h]⟩)

/-- START is ignored, refused, or starts a run (42_host.md R122). -/
theorem startRun_cases (s : State) :
    (s.phase.busy = true ∧ startRun s = s) ∨
    (s.phase.busy = false ∧ s.inMax.toNat < s.inLen.toNat ∧
      startRun s = refuseRun s) ∨
    (s.phase.busy = false ∧ s.inLen.toNat ≤ s.inMax.toNat ∧
      startRun s = { s.clearRun.forget with phase := .unpack }) := by
  unfold startRun
  cases h : s.phase.busy
  · by_cases h2 : s.inMax.toNat < s.inLen.toNat
    · exact .inr (.inl ⟨rfl, h2, by simp [h2]⟩)
    · exact .inr (.inr ⟨rfl, by omega, by simp [h2]⟩)
  · exact .inl ⟨rfl, by simp⟩

/-- A write of IN_LEN is ignored while BUSY and stored otherwise (R119). -/
theorem writeInLen_cases (v : Word) (s : State) :
    (s.phase.busy = true ∧ writeInLen v s = s) ∨
    (s.phase.busy = false ∧ writeInLen v s = { s with inLen := v }) := by
  unfold writeInLen
  cases s.phase.busy <;> simp

/-- A fetch from the stream stops above IN_LEN or outside IN, or presents the bytes that are left, at most three
(40_unpacker.md R83). -/
theorem fetchStream_cases (s : State) :
    (s.inLen.toNat < s.rp.toNat ∧ fetchStream s = .error .noOperation) ∨
    (s.rp.toNat ≤ s.inLen.toNat ∧ s.inMax.toNat < s.rp.toNat + min 3 (s.inLen.toNat - s.rp.toNat) ∧
      fetchStream s = .error .outsideSpace) ∨
    (s.rp.toNat ≤ s.inLen.toNat ∧ s.rp.toNat + min 3 (s.inLen.toNat - s.rp.toNat) ≤ s.inMax.toNat ∧
      fetchStream s = .ok (.stream (s.inBytes s.rp.toNat (min 3 (s.inLen.toNat - s.rp.toNat))))) := by
  unfold fetchStream
  by_cases h : s.inLen.toNat < s.rp.toNat
  · exact .inl ⟨h, by simp [h]⟩
  · by_cases h2 : s.inMax.toNat < s.rp.toNat + min 3 (s.inLen.toNat - s.rp.toNat)
    · exact .inr (.inl ⟨by omega, h2, by simp [h, h2]⟩)
    · exact .inr (.inr ⟨by omega, by omega, by simp [h, h2]⟩)

/-- A fetch at CUR ends the codes, stops, or presents the code (41_decoder.md R94). -/
theorem fetchCode_cases (s : State) (atEnd : Fetch) (withCode : Code → Fetch) :
    (s.cur = s.n ∧ fetchCode s atEnd withCode = .ok atEnd) ∨
    (s.n.toNat < s.cur.toNat ∧ fetchCode s atEnd withCode = .error .noOperation) ∨
    (s.cur.toNat < s.n.toNat ∧ s.nMax ≤ s.cur.toNat ∧ fetchCode s atEnd withCode = .error .outsideSpace) ∨
    (s.cur.toNat < s.n.toNat ∧ s.cur.toNat < s.nMax ∧
      fetchCode s atEnd withCode = .ok (withCode (s.code s.cur.toNat))) := by
  unfold fetchCode
  by_cases h : s.cur = s.n
  · exact .inl ⟨h, by simp [h]⟩
  · have hne : s.cur.toNat ≠ s.n.toNat := fun e => h (BitVec.eq_of_toNat_eq e)
    by_cases h2 : s.n.toNat < s.cur.toNat
    · exact .inr (.inl ⟨h2, by simp [h, h2]⟩)
    · by_cases h3 : s.nMax ≤ s.cur.toNat
      · exact .inr (.inr (.inl ⟨by omega, h3, by simp [h, h2, h3]⟩))
      · exact .inr (.inr (.inr ⟨by omega, by omega, by simp [h, h2, h3]⟩))

/-- The bytes of a run of IN, one by one. -/
theorem State.inBytes_length (s : State) (a count : Nat) : (s.inBytes a count).length = count := by
  induction count generalizing a with
  | zero => rfl
  | succ k ih => simp [State.inBytes, ih]

theorem State.inBytes_get (s : State) (a count j : Nat) (h : j < count) :
    (s.inBytes a count)[j]? = some (s.inByte (a + j)) := by
  induction count generalizing a j with
  | zero => omega
  | succ k ih =>
    cases j with
    | zero => simp [State.inBytes]
    | succ j =>
      simp only [State.inBytes, List.getElem?_cons_succ]
      rw [ih (a + 1) j (by omega)]
      congr 2
      omega

end Sys2Proof.Machine
end

