-- ==== Sys2Proof/Laws/PerInstr.lean ====
section
/-! SUPPORT. Per instruction: the words its encoder writes have the format, the match and the mask that its row of
spec/opcode_table.json gives (30_encoding.md R81). The rows below are written from the table, not from the encoder. -/

namespace Sys2Proof.Laws.TableRow

/-- The formats of the table (R66, R69 to R71, R76, R78); NONE decodes no word. -/
inductive Format where
  | chunk24
  | tail16
  | tail8
  | code16
  | ctrl32
  | hostRegRead
  | hostRegWrite
  | hostInWrite
  | hostInRead
  | hostOutRead
  | none
  deriving DecidableEq, Repr

/-- A row of the table: its format, and the fixed pattern of the word where there is one. -/
structure Row where
  format : Format
  pattern : Nat
  mask : Nat
  deriving DecidableEq, Repr

/-- The table's row of an instruction. -/
def row : Instr → Row
  | .unpack3 _ _ => ⟨.chunk24, 0x000000, 0x000000⟩
  | .unpackTail2 _ => ⟨.tail16, 0x0000, 0x0000⟩
  | .unpackTail1 _ => ⟨.tail8, 0x00, 0x00⟩
  | .unpackEnd => ⟨.none, 0, 0⟩
  | .decEmpty => ⟨.none, 0, 0⟩
  | .decInit _ => ⟨.code16, 0x0000, 0xFF00⟩
  | .decInitUndef _ => ⟨.code16, 0x0000, 0x0000⟩
  | .decStepDefined _ => ⟨.code16, 0x0000, 0x0000⟩
  | .decStepSelfref _ => ⟨.code16, 0x0000, 0x0000⟩
  | .decStepUndef _ => ⟨.code16, 0x0000, 0x0000⟩
  | .decDictReset => ⟨.none, 0, 0⟩
  | .decDone => ⟨.none, 0, 0⟩
  | .hostRd32 _ => ⟨.hostRegRead, 0, 0⟩
  | .hostWr32 _ _ => ⟨.hostRegWrite, 0, 0⟩
  | .hostStart _ => ⟨.ctrl32, 0x00000001, 0x00000003⟩
  | .hostAbort _ _ => ⟨.ctrl32, 0x00000002, 0x00000002⟩
  | .hostWrInLen _ => ⟨.hostRegWrite, 0, 0⟩
  | .hostWrin _ _ => ⟨.hostInWrite, 0, 0⟩
  | .hostRdin _ => ⟨.hostInRead, 0, 0⟩
  | .hostRdout _ => ⟨.hostOutRead, 0, 0⟩

/-- The words of a format: how wide each is and its value, the first byte most significant (R66, R69). -/
def word (format : Format) (f : Fetch) : Option Nat :=
  match format, f with
  | .chunk24, .stream [b0, b1, b2] => some (b0.toNat * 2 ^ 16 + b1.toNat * 2 ^ 8 + b2.toNat)
  | .tail16, .stream [p, u] => some (p.toNat * 2 ^ 8 + u.toNat)
  | .tail8, .stream [x] => some x.toNat
  | .code16, .firstCode c => some c.toNat
  | .code16, .loopCode _ c => some c.toNat
  | .ctrl32, .host (.wr32 off v) => if off = 0x00 then some v.toNat else none
  | .hostRegRead, .host (.rd32 _) => some 0
  | .hostRegWrite, .host (.wr32 _ _) => some 0
  | .hostInWrite, .host (.wrin _ _) => some 0
  | .hostInRead, .host (.rdin _) => some 0
  | .hostOutRead, .host (.rdout _) => some 0
  | .none, .stream [] => some 0
  | .none, .noFirstCode => some 0
  | .none, .endOfCodes => some 0
  | .none, .dictFull => some 0
  | _, _ => none

/-- The encoder's words fit the table's row. -/
def Statement (i : Instr) : Prop :=
  i.wellFormed = true → ∃ w, word (row i).format (encode i) = some w ∧ w &&& (row i).mask = (row i).pattern

theorem unpack3 (a b : Code12) : Statement (.unpack3 a b) := fun _ => ⟨_, rfl, Nat.and_zero _⟩

theorem unpackTail2 (c : Code) : Statement (.unpackTail2 c) := fun _ => ⟨_, rfl, Nat.and_zero _⟩

theorem unpackTail1 (x : Byte) : Statement (.unpackTail1 x) := fun _ => ⟨_, rfl, Nat.and_zero _⟩

theorem unpackEnd : Statement .unpackEnd := fun _ => ⟨_, rfl, rfl⟩

theorem decEmpty : Statement .decEmpty := fun _ => ⟨_, rfl, rfl⟩

theorem decInit (c : Byte) : Statement (.decInit c) := fun _ => by
  refine ⟨_, rfl, ?_⟩
  have literal : (c.setWidth 16 : Code) &&& 0xFF00#16 = 0#16 := by
    rw [literal_mask_iff, BitVec.toNat_setWidth]
    have := c.isLt
    omega
  exact congrArg BitVec.toNat literal

theorem decInitUndef (c : Code) : Statement (.decInitUndef c) := fun _ => ⟨_, rfl, Nat.and_zero _⟩

theorem decStepDefined (c : Code) : Statement (.decStepDefined c) := fun _ => ⟨_, rfl, Nat.and_zero _⟩

theorem decStepSelfref (c : Code) : Statement (.decStepSelfref c) := fun _ => ⟨_, rfl, Nat.and_zero _⟩

theorem decStepUndef (c : Code) : Statement (.decStepUndef c) := fun _ => ⟨_, rfl, Nat.and_zero _⟩

theorem decDictReset : Statement .decDictReset := fun _ => ⟨_, rfl, rfl⟩

theorem decDone : Statement .decDone := fun _ => ⟨_, rfl, rfl⟩

theorem hostRd32 (off : Word) : Statement (.hostRd32 off) := fun _ => ⟨_, rfl, Nat.and_zero _⟩

theorem hostWr32 (off v : Word) : Statement (.hostWr32 off v) := fun _ => ⟨_, rfl, Nat.and_zero _⟩

theorem hostStart (ign : BitVec 30) : Statement (.hostStart ign) := fun _ => by
  refine ⟨_, rfl, ?_⟩
  have bits : startWord ign &&& 3#32 = 1#32 := by
    apply BitVec.eq_of_getLsbD_eq
    intro i hi
    simp only [startWord, BitVec.getLsbD_and, BitVec.getLsbD_or, BitVec.getLsbD_shiftLeft, BitVec.getLsbD_setWidth]
    interval_cases i <;> simp
  exact congrArg BitVec.toNat bits

theorem hostAbort (ign : BitVec 30) (start : BitVec 1) : Statement (.hostAbort ign start) := fun _ => by
  refine ⟨_, rfl, ?_⟩
  have bits : abortWord ign start &&& 2#32 = 2#32 := by
    apply BitVec.eq_of_getLsbD_eq
    intro i hi
    simp only [abortWord, BitVec.getLsbD_and, BitVec.getLsbD_or, BitVec.getLsbD_shiftLeft, BitVec.getLsbD_setWidth]
    interval_cases i <;> simp
  exact congrArg BitVec.toNat bits

theorem hostWrInLen (v : Word) : Statement (.hostWrInLen v) := fun _ => ⟨_, rfl, Nat.and_zero _⟩

theorem hostWrin (a : Word) (b : Byte) : Statement (.hostWrin a b) := fun _ => ⟨_, rfl, Nat.and_zero _⟩

theorem hostRdin (a : Word) : Statement (.hostRdin a) := fun _ => ⟨_, rfl, Nat.and_zero _⟩

theorem hostRdout (a : Word) : Statement (.hostRdout a) := fun _ => ⟨_, rfl, Nat.and_zero _⟩

end Sys2Proof.Laws.TableRow
end

