-- ==== Sys2Proof/Laws/Reference.lean ====
section
/-! SUPPORT. Small facts of the whole-run functions: how many codes Unpack makes (40_unpacker.md R85, R89), where it can be
cut, and the arithmetic of the 32-bit counters. -/

namespace Sys2Proof.Machine

theorem word_add_one (x : Word) (h : x.toNat + 1 < 2 ^ 32) : (x + 1).toNat = x.toNat + 1 := by
  rw [BitVec.toNat_add]
  show (x.toNat + 1) % 2 ^ 32 = _
  omega

theorem word_add (x : Word) (k : Nat) (h : x.toNat + k < 2 ^ 32) : (x + BitVec.ofNat 32 k).toNat = x.toNat + k := by
  rw [BitVec.toNat_add, BitVec.toNat_ofNat]
  omega

theorem next_add_one (x : SlotIndex) (h : x.toNat < Config.dictCap) : (x + 1).toNat = x.toNat + 1 := by
  simp only [Config.dictCap] at h
  rw [BitVec.toNat_add]
  show (x.toNat + 1) % 2 ^ 13 = _
  omega

theorem codeCount_mono {a b : Nat} (h : a ≤ b) : codeCount a ≤ codeCount b := by
  unfold codeCount
  split <;> split <;> omega

/-- N_MAX leaves room in a 32-bit counter (10_state.md R17). -/
theorem nMax_lt (s : State) : s.nMax < 2 ^ 32 - 4 := by
  have := s.inMax.isLt
  unfold State.nMax codeCount
  split <;> omega

/-- Unpack makes N(L) codes of L bytes (R89). -/
theorem refUnpack_length (bytes : List Byte) : (refUnpack bytes).length = codeCount bytes.length := by
  induction bytes using refUnpack.induct with
  | case1 => simp [refUnpack, codeCount]
  | case2 => simp [refUnpack, codeCount]
  | case3 => simp [refUnpack, codeCount]
  | case4 b0 b1 b2 rest ih =>
    have hdiv : (rest.length + 1 + 1 + 1) / 3 = rest.length / 3 + 1 := by omega
    have hmod : (rest.length + 1 + 1 + 1) % 3 = rest.length % 3 := by omega
    simp only [refUnpack, List.length_cons, ih, codeCount, hdiv, hmod]
    omega

/-- Unpack can be cut after any number of whole chunks (R85). -/
theorem refUnpack_split (bytes : List Byte) (k : Nat) (h : 3 * k ≤ bytes.length) :
    ∃ front, front.length = 2 * k ∧ refUnpack bytes = front ++ refUnpack (bytes.drop (3 * k)) := by
  induction k generalizing bytes with
  | zero => exact ⟨[], rfl, by simp⟩
  | succ k ih =>
    match bytes, h with
    | b0 :: b1 :: b2 :: rest, h =>
      obtain ⟨front, hlen, heq⟩ := ih rest (by simp at h; omega)
      refine ⟨(codeA b0 b1).setWidth 16 :: (codeB b1 b2).setWidth 16 :: front, by simp [hlen]; omega, ?_⟩
      rw [refUnpack, heq, show 3 * (k + 1) = 3 * k + 1 + 1 + 1 by omega]
      simp
    | [], h => simp at h
    | [_], h => simp at h; omega
    | [_, _], h => simp at h; omega

theorem refBase_length : refBase.length = 256 := by simp [refBase]

/-! ### One code of Decode (41_decoder.md R93) -/

/-- A literal as the first code of a generation. -/
theorem refDecodeFrom_literal {outMax i : Nat} {out : Str} {c : Code} (rest : List Code) (hc : c.toNat < 256)
    (hfit : out.length + 1 ≤ outMax) :
    refDecodeFrom outMax none i out (c :: rest) =
      refDecodeFrom outMax (some (refBase, [c.setWidth 8])) (i + 1) (out ++ [c.setWidth 8]) rest := by
  simp only [refDecodeFrom, Option.filter]
  rw [if_neg (by omega), if_neg (by omega)]

/-- A full table is discarded when a code remains. -/
theorem refDecodeFrom_full {outMax i : Nat} {out : Str} {dict : List Str} {prev : Str} (rest : List Code)
    (hfull : dict.length = Config.dictCap) (hne : rest ≠ []) :
    refDecodeFrom outMax (some (dict, prev)) i out rest = refDecodeFrom outMax none i out rest := by
  cases rest with
  | nil => exact absurd rfl hne
  | cons c rest => simp [refDecodeFrom, Option.filter, hfull]

/-- A main-loop code whose chunk is defined and fits. -/
theorem refDecodeFrom_consume {outMax i : Nat} {out : Str} {dict : List Str} {prev chunk : Str} {c : Code}
    (rest : List Code) (hroom : dict.length < Config.dictCap) (hchunk : refChunk dict prev c = some chunk)
    (hfit : out.length + chunk.length ≤ outMax) :
    refDecodeFrom outMax (some (dict, prev)) i out (c :: rest) =
      refDecodeFrom outMax (some (dict ++ [prev ++ chunk.take 1], chunk)) (i + 1) (out ++ chunk) rest := by
  simp only [refDecodeFrom, Option.filter, hroom, decide_true, if_true, hchunk]
  rw [if_neg (by omega)]

theorem State.inBytes_drop (s : State) (a count j : Nat) : (s.inBytes a count).drop j = s.inBytes (a + j) (count - j) := by
  induction j generalizing a count with
  | zero => simp
  | succ j ih =>
    cases count with
    | zero => simp [State.inBytes]
    | succ k =>
      simp only [State.inBytes, List.drop_succ_cons, ih]
      rw [show a + 1 + j = a + (j + 1) by omega, show k - j = k + 1 - (j + 1) by omega]

/-- The bytes of a run of IN depend on IN alone. -/
theorem State.inBytes_congr {s t : State} (hm : t.inMem = s.inMem) (hg : t.inGen = s.inGen) (a count : Nat) :
    t.inBytes a count = s.inBytes a count := by
  induction count generalizing a with
  | zero => rfl
  | succ k ih => simp only [State.inBytes, State.inByte, hm, hg, ih]

end Sys2Proof.Machine
end

