-- ==== Sys2Proof/Laws/Run.lean ====
section
/-! SUPPORT. How runs of `Host.Core.run` are taken apart and put together. -/

namespace Sys2Proof.Machine

theorem run_succ (M : Host.Core) (k : Nat) {s t : M.State} (h : M.step s = .next t) : M.run (k + 1) s = M.run k t := by
  simp only [Host.Core.run, h]

theorem run_succ_next (M : Host.Core) (k : Nat) {s t : M.State} (h : M.run (k + 1) s = .next t) :
    ∃ u, M.step s = .next u ∧ M.run k u = .next t := by
  simp only [Host.Core.run] at h
  split at h
  · next u hu => exact ⟨u, hu, h⟩
  · cases h
  · cases h

/-- A run of j steps that answers a next state, then k more. -/
theorem run_add (M : Host.Core) (j k : Nat) {s t : M.State} (h : M.run j s = .next t) : M.run (j + k) s = M.run k t := by
  induction j generalizing s with
  | zero =>
    cases h
    rw [Nat.zero_add]
  | succ j ih =>
    obtain ⟨u, hu, hr⟩ := run_succ_next M j h
    rw [show j + 1 + k = (j + k) + 1 by omega, run_succ M _ hu]
    exact ih hr

end Sys2Proof.Machine
end

