-- ==== Sys2Proof/Laws/Safety.lean ====
section
/-! SUPPORT. How the invariant of a phase is read and built, and that it depends on the block's own fields alone. -/

namespace Sys2Proof.Machine

theorem phaseInv_idle {s : State} (h : s.phase = .idle) : PhaseInv s ↔ IdleInv s := by
  unfold PhaseInv
  rw [h]

theorem phaseInv_unpack {s : State} (h : s.phase = .unpack) : PhaseInv s ↔ UnpackInv s := by
  unfold PhaseInv
  rw [h]

theorem phaseInv_decInit {s : State} (h : s.phase = .decInit) : PhaseInv s ↔ InitInv s := by
  unfold PhaseInv
  rw [h]

theorem phaseInv_decLoop {s : State} (h : s.phase = .decLoop) : PhaseInv s ↔ LoopInv s := by
  unfold PhaseInv
  rw [h]

theorem phaseInv_done {s : State} (h : s.phase = .done) : PhaseInv s ↔ DoneInv s := by
  unfold PhaseInv
  rw [h]

theorem phaseInv_error {s : State} (h : s.phase = .error) : PhaseInv s := by
  unfold PhaseInv
  rw [h]
  trivial

theorem recordInv_clear {s : State} (h : s.phase ≠ .error) :
    RecordInv s ↔ (s.err = 0 ∧ s.errPos = 0 ∧ s.errVal = 0) := by
  unfold RecordInv
  cases hp : s.phase <;> simp_all

theorem recordInv_error {s : State} (h : s.phase = .error) :
    RecordInv s ↔ (1 ≤ s.err.toNat ∧ s.err.toNat ≤ 4 ∧ s.errVal.toNat < 65536) := by
  unfold RecordInv
  rw [h]

/-- The bounds of the memories depend on the memories, N and the parameters alone. -/
theorem spaceInv_congr {s t : State} (h : SpaceInv s) (hin : t.inMem = s.inMem) (hinMax : t.inMax = s.inMax)
    (hout : t.outMem = s.outMem) (houtMax : t.outMax = s.outMax) (hcodes : t.codes = s.codes) (hdict : t.dict = s.dict)
    (hn : t.n = s.n) : SpaceInv t := by
  refine ⟨?_, ?_, ?_, ?_, ?_, ?_, ?_, ?_, ?_⟩ <;>
    simp only [State.nMax, hin, hinMax, hout, houtMax, hcodes, hdict, hn]
  exacts [h.in_wf, h.in_below, h.out_wf, h.out_below, h.codes_wf, h.codes_below, h.dict_wf, h.dict_below, h.n_le]

theorem State.input_congr {s t : State} (hm : t.inMem = s.inMem) (hg : t.inGen = s.inGen) (hl : t.inLen = s.inLen) :
    t.input = s.input := by
  simp only [State.input, hl, State.inBytes_congr hm hg]

theorem State.codeList_congr {s t : State} (hc : t.codes = s.codes) (he : t.epoch = s.epoch) (hn : t.n = s.n) :
    t.codeList = s.codeList := by
  have hcode : t.code = s.code := by
    funext k
    simp [State.code, hc, he]
  simp only [State.codeList, hcode, hn]

theorem State.dictList_length (s : State) : s.dictList.length = s.next.toNat := by simp [State.dictList]

theorem State.dictList_get (s : State) (k : Nat) (h : k < s.next.toNat) : s.dictList[k]? = some (s.slot k) := by
  simp [State.dictList, h]

theorem State.output_length (s : State) : s.output.length = s.olen.toNat := by simp [State.output]

theorem State.dictList_congr {s t : State} (hd : t.dict = s.dict) (he : t.epoch = s.epoch) (hn : t.next = s.next) :
    t.dictList = s.dictList := by
  have hslot : t.slot = s.slot := by
    funext k
    simp [State.slot, hd, he]
  simp only [State.dictList, hslot, hn]

theorem State.codeList_length (s : State) : s.codeList.length = s.n.toNat := by simp [State.codeList]

theorem State.codeList_get (s : State) (k : Nat) (h : k < s.n.toNat) : s.codeList[k]? = some (s.code k) := by
  simp [State.codeList, h]

/-- The codes up to and including CODES[k]. -/
theorem State.codeList_take_succ (s : State) (k : Nat) (h : k < s.n.toNat) :
    s.codeList.take (k + 1) = s.codeList.take k ++ [s.code k] := by
  rw [List.take_add_one, State.codeList_get s k h]
  rfl

/-- The codes from CODES[k] on. -/
theorem State.codeList_drop (s : State) (k : Nat) (h : k < s.n.toNat) :
    s.codeList.drop k = s.code k :: s.codeList.drop (k + 1) := by
  rw [List.drop_eq_getElem_cons (by rw [State.codeList_length]; exact h)]
  simp [State.codeList]

/-- The output after Append. -/
theorem State.output_append {s : State} (chunk : Str) (hfit : s.olen.toNat + chunk.length < 2 ^ 32) :
    (s.appendOut chunk).output = s.output ++ chunk := by
  apply List.ext_getElem?
  intro k
  have hlen : (s.olen + BitVec.ofNat 32 chunk.length).toNat = s.olen.toNat + chunk.length := word_add _ _ hfit
  simp only [State.output, State.appendOut, hlen, List.getElem?_map]
  rw [List.getElem?_append]
  simp only [List.length_map, List.length_range]
  by_cases h1 : k < s.olen.toNat
  · rw [if_pos h1, List.getElem?_range (by omega)]
    simp only [Option.map_some, List.getElem?_map, List.getElem?_range h1, Memory.read_writeAll]
    rw [if_neg (by omega)]
  · rw [if_neg h1]
    by_cases h2 : k < s.olen.toNat + chunk.length
    · rw [List.getElem?_range h2]
      simp only [Option.map_some, Memory.read_writeAll]
      rw [if_pos (by omega), List.getElem?_eq_getElem (by omega)]
      rfl
    · rw [List.getElem?_eq_none (by simp; omega), List.getElem?_eq_none (by omega)]
      rfl

/-- The defined slots after the growth of a main-loop step (41_decoder.md R105). -/
theorem State.dictList_grow {s : State} (first : Byte) (chunk : Str) (hn : s.next.toNat < Config.dictCap) :
    (s.grow first chunk).dictList = s.dictList ++ [s.prev ++ [first]] := by
  show (List.range (s.next + 1).toNat).map _ = _
  rw [next_add_one s.next hn, List.range_succ, List.map_append]
  congr 1
  · apply List.map_congr_left
    intro k hk
    rw [List.mem_range] at hk
    simp only [State.slot, State.grow]
    rw [Memory.read_write_other _ _ (by omega)]
  · simp [State.slot, State.grow]

theorem State.decodesOnFrom_congr {s t : State} {gen : Option (List Str × Str)} {rest : List Code}
    (h : s.DecodesOnFrom gen rest) (hcodes : t.codeList = s.codeList) (hcur : t.cur = s.cur)
    (houtMax : t.outMax = s.outMax) (hout : t.output = s.output) : t.DecodesOnFrom gen rest := by
  simp only [State.DecodesOnFrom, hcodes, hcur, houtMax, hout]
  exact h

/-- At the start of a run Decode goes on from nothing. -/
theorem State.decodesOnFrom_start {s : State} (hcur : s.cur = 0) (holen : s.olen = 0) (rest : List Code) :
    s.DecodesOnFrom none rest := by
  simp [State.DecodesOnFrom, State.output, hcur, holen, refDecode]

/-- The invariant does not depend on the agents outside the block. -/
theorem inv_agents {s : State} (h : Inv s) (rdata : Word) (hostProg : List HostStmt) (turns : List Turn) (draws : Nat) :
    Inv { s with rdata := rdata, hostProg := hostProg, turns := turns, draws := draws } := by
  have hin : State.input { s with rdata := rdata, hostProg := hostProg, turns := turns, draws := draws } = s.input :=
    State.input_congr rfl rfl rfl
  have hcodes : State.codeList { s with rdata := rdata, hostProg := hostProg, turns := turns, draws := draws } =
      s.codeList := State.codeList_congr rfl rfl rfl
  have hdec : DecodeInv s →
      DecodeInv { s with rdata := rdata, hostProg := hostProg, turns := turns, draws := draws } :=
    fun q => ⟨q.inLen_le, q.rp, q.n, q.tailDropped, by rw [hcodes, hin]; exact q.codes, q.olen_outMax, q.olen_cur,
      q.listed⟩
  refine ⟨spaceInv_congr h.space rfl rfl rfl rfl rfl rfl rfl, h.record, ?_⟩
  have hphase := h.phase
  cases hp : s.phase
  · rw [phaseInv_idle hp] at hphase
    exact (phaseInv_idle rfl).2 ⟨hphase.rp, hphase.n, hphase.cur, hphase.olen, hphase.dictResets, hphase.tailDropped⟩
  · rw [phaseInv_unpack hp] at hphase
    rw [hp] at hin hcodes
    exact (phaseInv_unpack rfl).2 ⟨hphase.inLen_le, hphase.rp_le, hphase.rp_mod, hphase.n, hphase.cur, hphase.olen,
      hphase.dictResets, hphase.tailDropped, by rw [hcodes, hin]; exact hphase.codes⟩
  · rw [phaseInv_decInit hp] at hphase
    rw [hp] at hdec hcodes
    exact (phaseInv_decInit rfl).2 ⟨hdec hphase.toDecodeInv, hphase.cur_resets, hphase.cur_n,
      fun rest hr => State.decodesOnFrom_congr (hphase.decoded rest hr) hcodes rfl rfl rfl⟩
  · rw [phaseInv_decLoop hp] at hphase
    rw [hp] at hdec hcodes
    exact (phaseInv_decLoop rfl).2 ⟨hdec hphase.toDecodeInv, hphase.next_ge, hphase.next_le, hphase.cur_ge,
      hphase.cur_le, hphase.cur_next, hphase.base, hphase.defined, hphase.prev_ne, hphase.prev_len,
      hphase.last_defined, hphase.prev_last, fun rest => by
        have hdict := State.dictList_congr (s := s) (t := { s with
          rdata := rdata, hostProg := hostProg, turns := turns, draws := draws }) rfl rfl rfl
        rw [hp] at hdict
        rw [hdict]
        exact State.decodesOnFrom_congr (hphase.decoded rest) hcodes rfl rfl rfl⟩
  · rw [phaseInv_done hp] at hphase
    exact (phaseInv_done rfl).2 ⟨hphase.n_ge, hphase.olen_outMax, hphase.listed, hphase.dictResets⟩
  · exact phaseInv_error rfl

end Sys2Proof.Machine
end

