-- ==== Sys2Proof/Laws/Step.lean ====
section
/-! SUPPORT. What a step can do, said once: who moves, which operation it runs, and what an operation of the host or of the
block can change. Later proofs cite these instead of unfolding `step` and `exec`. -/

namespace Sys2Proof.Machine

/-! ### Who moves -/

theorem mover_block {s : State} (h : s.turns.head? = some .block ∨ (s.turns = [] ∧ s.phase.busy = true)) :
    s.mover = .block := by
  unfold State.mover
  rcases h with h | ⟨h, hb⟩
  · cases ht : s.turns <;> simp_all
  · simp [h, hb]

theorem mover_host {s : State} (h : s.turns.head? = some .host ∨ (s.turns = [] ∧ s.phase.busy = false)) :
    s.mover = .host := by
  unfold State.mover
  rcases h with h | ⟨h, hb⟩
  · cases ht : s.turns <;> simp_all
  · simp [h, hb]

theorem mover_blockReset {s : State} (h : s.turns.head? = some .blockReset) : s.mover = .blockReset := by
  unfold State.mover
  cases ht : s.turns <;> simp_all

theorem popTurn_of_nil {s : State} (h : s.turns = []) : s.popTurn = s := by
  cases s
  simp only at h
  subst h
  rfl

/-- With no turns left, a BUSY machine takes the block's step. -/
theorem step_of_busy {s : State} (ht : s.turns = []) (hb : s.phase.busy = true) : step s = stepBlock s := by
  simp only [step, mover_block (.inr ⟨ht, hb⟩), popTurn_of_nil ht]

/-- With no turns left, a machine that is not BUSY takes the host's step. -/
theorem step_of_not_busy {s : State} (ht : s.turns = []) (hb : s.phase.busy = false) : step s = stepHost s := by
  simp only [step, mover_host (.inr ⟨ht, hb⟩), popTurn_of_nil ht]

/-- `advance` uses up a turn and at most a host statement. -/
theorem advance_eq (s : State) : s.advance = { s with turns := s.turns.tail, hostProg := s.advance.hostProg } := by
  unfold State.advance
  split
  · rfl
  · split <;> rfl
  · rfl

@[simp] theorem advance_phase (s : State) : s.advance.phase = s.phase := by rw [advance_eq]

/-! ### What is decoded -/

theorem decodeHost_isHost (a : HostAccess) : (decodeHost a).isHost = true := by
  cases a with
  | wr32 off v =>
    rcases decodeWr32_cases off v with ⟨_, _, e, _⟩ | ⟨_, e, _⟩ | ⟨e, _⟩ | ⟨e, _⟩ <;>
      exact (congrArg Instr.isHost e).trans rfl
  | rd32 off => rfl
  | wrin a b => rfl
  | rdin a => rfl
  | rdout a => rfl

theorem decodeStream_notHost (bytes : List Byte) : (decodeStream bytes).isHost = false := by
  match bytes with
  | [] => rfl
  | [_] => rfl
  | [_, _] => rfl
  | _ :: _ :: _ :: _ => rfl

theorem decodeFirstCode_notHost (c : Code) : (decodeFirstCode c).isHost = false := by
  unfold decodeFirstCode
  split <;> rfl

theorem decodeLoopCode_notHost {next : SlotIndex} {c : Code} {i : Instr} (h : decodeLoopCode next c = .ok i) :
    i.isHost = false := by
  unfold decodeLoopCode at h
  split at h
  · split at h
    · cases h
      rfl
    · split at h <;> cases h <;> rfl
  · cases h

theorem fetchBlock_busy {s : State} {r : Except Fault Fetch} (h : fetchBlock s = some r) : s.phase.busy = true := by
  unfold fetchBlock at h
  cases hp : s.phase <;> simp [hp, Phase.busy] at h ⊢

@[simp] theorem fetchBlock_popTurn (s : State) : fetchBlock s.popTurn = fetchBlock s := by
  have hbytes : ∀ a count, s.popTurn.inBytes a count = s.inBytes a count := by
    intro a count
    induction count generalizing a with
    | zero => rfl
    | succ k ih => simp only [State.inBytes, ih]; rfl
  unfold fetchBlock fetchStream
  simp only [hbytes]
  rfl

/-- The block runs the block's own operations. -/
theorem fetchBlock_notHost {s : State} {f : Fetch} {i : Instr} (h : fetchBlock s = some (.ok f))
    (hd : decode f = .ok i) : i.isHost = false := by
  unfold fetchBlock at h
  cases hp : s.phase <;> simp only [hp] at h
  · cases h
  · rcases fetchStream_cases s with ⟨_, e⟩ | ⟨_, _, e⟩ | ⟨_, _, e⟩ <;> rw [e] at h <;> cases h
    cases hd
    exact decodeStream_notHost _
  · rcases fetchCode_cases s .noFirstCode .firstCode with ⟨_, e⟩ | ⟨_, e⟩ | ⟨_, _, e⟩ | ⟨_, _, e⟩ <;>
      rw [e] at h <;> cases h
    · cases hd
      rfl
    · cases hd
      exact decodeFirstCode_notHost _
  · split at h
    · cases h
      cases hd
      rfl
    · rcases fetchCode_cases s .endOfCodes (.loopCode s.next) with ⟨_, e⟩ | ⟨_, e⟩ | ⟨_, _, e⟩ | ⟨_, _, e⟩ <;>
        rw [e] at h <;> cases h
      · cases hd
        rfl
      · exact decodeLoopCode_notHost hd
  · cases h
  · cases h

/-! ### Inversion of a step -/

/-- A step is a block reset, a turn with nothing to do, a host operation, or a block operation. -/
theorem step_cases {s t : State} (h : step s = .next t) :
    (s.mover = .blockReset ∧ t = blockReset s.popTurn) ∨
    (s.operation = none ∧ t = s.popTurn) ∨
    (∃ i, s.operation = some i ∧ exec i s.advance = .next t ∧ i.isHost = true ∧ s.mover = .host) ∨
    (∃ f i, s.operation = some i ∧ exec i s.advance = .next t ∧ i.isHost = false ∧ s.mover = .block ∧
      s.phase.busy = true ∧ s.advance = s.popTurn ∧ fetchBlock s = some (.ok f) ∧ decode f = .ok i) := by
  unfold step at h
  cases hm : s.mover <;> simp only [hm] at h
  · unfold stepBlock at h
    rw [fetchBlock_popTurn] at h
    have hadv : s.advance = s.popTurn := by simp [State.advance, hm]
    cases hf : fetchBlock s with
    | none =>
      rw [hf] at h
      cases h
      exact .inr (.inl ⟨by simp [State.operation, hm, hf], rfl⟩)
    | some r =>
      rw [hf] at h
      cases r with
      | error e => cases h
      | ok f =>
        simp only at h
        cases hd : decode f with
        | error e =>
          rw [hd] at h
          cases e
          cases h
        | ok i =>
          rw [hd] at h
          exact .inr (.inr (.inr ⟨f, i, by simp [State.operation, hm, hf, hd, Except.toOption], by rw [hadv]; exact h,
            fetchBlock_notHost hf hd, rfl, fetchBlock_busy hf, hadv, rfl, hd⟩))
  · unfold stepHost at h
    rw [show s.popTurn.hostProg = s.hostProg from rfl] at h
    cases hp : s.hostProg with
    | nil =>
      rw [hp] at h
      cases h
      exact .inr (.inl ⟨by simp [State.operation, hm, hp], rfl⟩)
    | cons statement rest =>
      rw [hp] at h
      cases statement with
      | access a =>
        refine .inr (.inr (.inl ⟨decodeHost a, by simp [State.operation, hm, hp], ?_, decodeHost_isHost a, rfl⟩))
        simp only [State.advance, hm, hp]
        exact h
      | wait =>
        refine .inr (.inr (.inl ⟨.hostRd32 0x04, by simp [State.operation, hm, hp], ?_, rfl, rfl⟩))
        simp only [State.advance, hm, hp]
        exact h
  · cases h
    exact .inl ⟨rfl, rfl⟩

/-! ### Inversion of an operation -/

theorem bit_ne_one {b : BitVec 1} (h : b ≠ 1#1) : b = 0#1 := by
  have hne : b.toNat ≠ 1 := fun e => h (BitVec.eq_of_toNat_eq e)
  have := b.isLt
  apply BitVec.eq_of_toNat_eq
  simp only [BitVec.toNat_ofNat]
  omega

/-- A host operation is ABORT, START, a write of IN_LEN, a write of a byte of IN, or changes the host's variable only. -/
theorem execHost_cases {i : Instr} {s t : State} (hi : i.isHost = true) (h : exec i s = .next t) :
    (i.isAbort = true ∧ t = abortRun s) ∨ (i.isStart = true ∧ t = startRun s) ∨
    (i.isAbort = false ∧ i.isStart = false ∧
      ((∃ v, (i = .hostWrInLen v ∨ i = .hostWr32 0x08 v) ∧ t = writeInLen v s) ∨
        (∃ a b, i = .hostWrin a b ∧ s.phase.busy = false ∧ a.toNat < s.inMax.toNat ∧
          t = { s with inMem := Memory.write s.inMem a.toNat b }) ∨
        t = { s with rdata := t.rdata, draws := t.draws })) := by
  cases i <;> simp only [Instr.isHost] at hi <;> try (cases hi)
  case hostRd32 off =>
    cases h
    exact .inr (.inr ⟨rfl, rfl, .inr (.inr rfl)⟩)
  case hostWr32 off v =>
    simp only [exec, execHostWr32] at h
    split at h
    · next h0 =>
      split at h
      · next h1 =>
        cases h
        exact .inl ⟨decide_eq_true ⟨h0, h1⟩, rfl⟩
      · next h1 =>
        split at h
        · next h2 =>
          cases h
          exact .inr (.inl ⟨decide_eq_true ⟨h0, bit_ne_one h1, h2⟩, rfl⟩)
        · next h2 =>
          cases h
          exact .inr (.inr ⟨decide_eq_false fun e => h1 e.2, decide_eq_false fun e => h2 e.2.2, .inr (.inr rfl)⟩)
    · next h0 =>
      refine .inr (.inr ⟨decide_eq_false fun e => h0 e.1, decide_eq_false fun e => h0 e.1, ?_⟩)
      split at h
      · next h8 =>
        cases h
        exact .inl ⟨v, .inr (by rw [h8]), rfl⟩
      · cases h
        exact .inr (.inr rfl)
  case hostStart ign =>
    cases h
    exact .inr (.inl ⟨rfl, rfl⟩)
  case hostAbort ign start =>
    cases h
    exact .inl ⟨rfl, rfl⟩
  case hostWrInLen v =>
    cases h
    exact .inr (.inr ⟨rfl, rfl, .inl ⟨v, .inl rfl, rfl⟩⟩)
  case hostWrin a b =>
    refine .inr (.inr ⟨rfl, rfl, ?_⟩)
    simp only [exec, execHostWrin] at h
    split at h
    · next hc =>
      cases h
      exact .inr (.inl ⟨a, b, rfl, hc.1, hc.2, rfl⟩)
    · cases h
      exact .inr (.inr rfl)
  case hostRdin a =>
    refine .inr (.inr ⟨rfl, rfl, .inr (.inr ?_)⟩)
    simp only [exec, execHostRdin] at h
    split at h <;> cases h <;> rfl
  case hostRdout a =>
    refine .inr (.inr ⟨rfl, rfl, .inr (.inr ?_)⟩)
    simp only [exec, execHostRdout] at h
    split at h
    · cases h
      rfl
    · split at h
      · split at h <;> cases h <;> rfl
      · cases h
        rfl

/-- What an operation of the block leaves alone, and the phases it can end in. -/
structure BlockFrame (i : Instr) (s t : State) : Prop where
  inLen : t.inLen = s.inLen
  inMem : t.inMem = s.inMem
  inGen : t.inGen = s.inGen
  inMax : t.inMax = s.inMax
  outMax : t.outMax = s.outMax
  rdata : t.rdata = s.rdata
  turns : t.turns = s.turns
  hostProg : t.hostProg = s.hostProg
  tailDropped : t.tailDropped = s.tailDropped ∨ (t.tailDropped = true ∧ ∃ x, i = .unpackTail1 x)
  dictResets : t.dictResets = s.dictResets ∨ (t.dictResets = s.dictResets + 1 ∧ i = .decDictReset)
  phase : t.phase = .error ∨ t.phase = s.phase ∨ t.phase = .decInit ∨ t.phase = .decLoop ∨
    (t.phase = .done ∧ i = .decDone)

theorem raise_frame (i : Instr) (kind : ErrorKind) (pos val : Word) (s : State) :
    BlockFrame i s (s.raise kind pos val) :=
  ⟨rfl, rfl, rfl, rfl, rfl, rfl, rfl, rfl, .inl rfl, .inl rfl, .inl rfl⟩

theorem appendThen_next {chunk : Str} {c : Code} {s t : State} {rest : State → Result}
    (h : appendThen chunk c s rest = .next t) :
    t = s.raise .outputOverflow s.cur (c.setWidth 32) ∨ rest (s.appendOut chunk) = .next t := by
  rcases appendThen_cases chunk c s rest with ⟨_, e⟩ | ⟨_, e⟩
  · rw [e] at h
    cases h
    exact .inl rfl
  · rw [e] at h
    exact .inr h

theorem defineEntry_next {chunk : Str} {c : Code} {s t : State} (h : defineEntry chunk c s = .next t) :
    t = s.raise .malformedInput s.cur (c.setWidth 32) ∨ ∃ first, t = s.grow first chunk := by
  rcases defineEntry_cases chunk c s with ⟨_, e⟩ | ⟨first, _, _, _, e⟩ | ⟨_, _, e⟩
  · rw [e] at h
    cases h
    exact .inl rfl
  · rw [e] at h
    cases h
    exact .inr ⟨first, rfl⟩
  · rw [e] at h
    cases h

/-- The end of a main-loop step keeps the frame. -/
theorem consume_frame (i : Instr) {chunk : Str} {c : Code} {s t : State}
    (h : appendThen chunk c s (defineEntry chunk c) = .next t) : BlockFrame i s t := by
  rcases appendThen_next h with rfl | h
  · exact raise_frame i _ _ _ s
  · rcases defineEntry_next h with rfl | ⟨first, rfl⟩
    · exact ⟨rfl, rfl, rfl, rfl, rfl, rfl, rfl, rfl, .inl rfl, .inl rfl, .inl rfl⟩
    · exact ⟨rfl, rfl, rfl, rfl, rfl, rfl, rfl, rfl, .inl rfl, .inl rfl, .inr (.inl rfl)⟩

theorem execBlock_frame {i : Instr} {s t : State} (hi : i.isHost = false) (h : exec i s = .next t) :
    BlockFrame i s t := by
  cases i <;> simp only [Instr.isHost] at hi <;> try (cases hi)
  case unpack3 a b =>
    simp only [exec, execUnpack3] at h
    split at h <;> cases h
    exact ⟨rfl, rfl, rfl, rfl, rfl, rfl, rfl, rfl, .inl rfl, .inl rfl, .inr (.inl rfl)⟩
  case unpackTail2 c =>
    simp only [exec, execUnpackTail2] at h
    split at h <;> cases h
    exact ⟨rfl, rfl, rfl, rfl, rfl, rfl, rfl, rfl, .inl rfl, .inl rfl, .inr (.inl rfl)⟩
  case unpackTail1 x =>
    cases h
    exact ⟨rfl, rfl, rfl, rfl, rfl, rfl, rfl, rfl, .inr ⟨rfl, x, rfl⟩, .inl rfl, .inr (.inl rfl)⟩
  case unpackEnd =>
    cases h
    exact ⟨rfl, rfl, rfl, rfl, rfl, rfl, rfl, rfl, .inl rfl, .inl rfl, .inr (.inr (.inl rfl))⟩
  case decEmpty =>
    cases h
    exact raise_frame _ _ _ _ s
  case decInit c =>
    simp only [exec, execDecInit] at h
    rcases appendThen_next h with rfl | h
    · exact ⟨rfl, rfl, rfl, rfl, rfl, rfl, rfl, rfl, .inl rfl, .inl rfl, .inl rfl⟩
    · cases h
      exact ⟨rfl, rfl, rfl, rfl, rfl, rfl, rfl, rfl, .inl rfl, .inl rfl, .inr (.inr (.inr (.inl rfl)))⟩
  case decInitUndef c =>
    cases h
    exact raise_frame _ _ _ _ s
  case decStepDefined c =>
    simp only [exec, execDecStepDefined] at h
    split at h
    · exact consume_frame _ h
    · cases h
  case decStepSelfref c =>
    simp only [exec, execDecStepSelfref] at h
    split at h
    · cases h
      exact raise_frame _ _ _ _ s
    · exact consume_frame _ h
  case decStepUndef c =>
    cases h
    exact raise_frame _ _ _ _ s
  case decDictReset =>
    cases h
    exact ⟨rfl, rfl, rfl, rfl, rfl, rfl, rfl, rfl, .inl rfl, .inr ⟨rfl, rfl⟩, .inr (.inr (.inl rfl))⟩
  case decDone =>
    cases h
    exact ⟨rfl, rfl, rfl, rfl, rfl, rfl, rfl, rfl, .inl rfl, .inl rfl, .inr (.inr (.inr (.inr ⟨rfl, rfl⟩)))⟩

end Sys2Proof.Machine
end

