-- ==== Sys2Proof/Tests/Slice0.lean ====
section
/-! SUPPORT. The model's own tests: ill-formed terms, words written out from 30_encoding.md, one step each of every
operation with the results of 95_test_vectors.md, and for every obligation with hypotheses a witness that meets them. -/

namespace Sys2Proof.Tests

open Sys2Proof.Machine

/-! ### Ill-formed terms (30_encoding.md R73, R74, R76) -/

theorem test_wellFormed_decInitUndef : (Instr.decInitUndef 255).wellFormed = false := by decide
theorem test_wellFormed_decStepDefined : (Instr.decStepDefined 4095).wellFormed = false := by decide
theorem test_wellFormed_decStepSelfref_low : (Instr.decStepSelfref 255).wellFormed = false := by decide
theorem test_wellFormed_decStepSelfref_high : (Instr.decStepSelfref 4096).wellFormed = false := by decide
theorem test_wellFormed_decStepUndef : (Instr.decStepUndef 256).wellFormed = false := by decide
theorem test_wellFormed_hostWr32_inLen : (Instr.hostWr32 0x08 5).wellFormed = false := by decide
theorem test_wellFormed_hostWr32_start : (Instr.hostWr32 0x00 0x1).wellFormed = false := by decide
theorem test_wellFormed_hostWr32_abort : (Instr.hostWr32 0x00 0x2).wellFormed = false := by decide

/-! ### Words written out from the spec's encodings -/

/-- S2: W = 0xABCDEF, code_a = W[23:12], code_b = W[11:0]. -/
theorem test_decode_unpack3 : decode (.stream [0xAB, 0xCD, 0xEF, 0x00]) = .ok (.unpack3 0xABC 0xDEF) := by decide
/-- S3. -/
theorem test_decode_unpackTail2 : decode (.stream [0x01, 0x02]) = .ok (.unpackTail2 258) := by decide
/-- P4. -/
theorem test_decode_unpackTail1 : decode (.stream [0xFF]) = .ok (.unpackTail1 0xFF) := by decide
theorem test_decode_unpackEnd : decode (.stream []) = .ok .unpackEnd := by decide
theorem test_decode_decEmpty : decode .noFirstCode = .ok .decEmpty := by decide
/-- P2. -/
theorem test_decode_decInit : decode (.firstCode 0x0048) = .ok (.decInit 0x48) := by decide
/-- W5. -/
theorem test_decode_decInitUndef : decode (.firstCode 0x0100) = .ok (.decInitUndef 256) := by decide
/-- W11, third code: c = NEXT - 1. -/
theorem test_decode_decStepDefined : decode (.loopCode 257 0x0100) = .ok (.decStepDefined 256) := by decide
/-- W9. -/
theorem test_decode_decStepSelfref : decode (.loopCode 256 0x0100) = .ok (.decStepSelfref 256) := by decide
/-- W10. -/
theorem test_decode_decStepUndef : decode (.loopCode 256 0x0101) = .ok (.decStepUndef 257) := by decide
theorem test_decode_decDictReset : decode .dictFull = .ok .decDictReset := by decide
theorem test_decode_decDone : decode .endOfCodes = .ok .decDone := by decide
/-- Y3. -/
theorem test_decode_hostRd32 : decode (.host (.rd32 0x28)) = .ok (.hostRd32 0x28) := by decide
/-- Y15: v[1:0] = 0. -/
theorem test_decode_hostWr32 :
    decode (.host (.wr32 0x00 0xFFFFFFFC)) = .ok (.hostWr32 0x00 0xFFFFFFFC) := by decide
/-- v[1:0] = 0b01, v[31:2] = 0x3FFFFFFF ignored. -/
theorem test_decode_hostStart : decode (.host (.wr32 0x00 0xFFFFFFFD)) = .ok (.hostStart 0x3FFFFFFF) := by decide
/-- Y8: ABORT before START. -/
theorem test_decode_hostAbort : decode (.host (.wr32 0x00 0x3)) = .ok (.hostAbort 0 1) := by decide
/-- Y5. -/
theorem test_decode_hostWrInLen : decode (.host (.wr32 0x08 6)) = .ok (.hostWrInLen 6) := by decide
/-- Y6. -/
theorem test_decode_hostWrin : decode (.host (.wrin 5 0x42)) = .ok (.hostWrin 5 0x42) := by decide
theorem test_decode_hostRdin : decode (.host (.rdin 5)) = .ok (.hostRdin 5) := by decide
/-- Y12. -/
theorem test_decode_hostRdout : decode (.host (.rdout 64)) = .ok (.hostRdout 64) := by decide
/-- A NEXT that R21 excludes selects no main-loop operation. -/
theorem test_decode_rejects : decode (.loopCode 4097 0x0000) = .error .nextOutOfRange := by decide

/-- The packing examples of 95_test_vectors.md, section 2. -/
theorem test_encode_packing :
    encode (.unpack3 65 256) = .stream [0x04, 0x11, 0x00] ∧ encode (.unpack3 4093 4094) = .stream [0xFF, 0xDF, 0xFE] ∧
      encode (.unpackTail2 4095) = .stream [0x0F, 0xFF] := by decide
theorem test_encode_start : encode (.hostStart 0) = .host (.wr32 0x00 0x1) := by decide
theorem test_encode_abort : encode (.hostAbort 0 0) = .host (.wr32 0x00 0x2) := by decide

/-! ### The words of the opcode table -/

theorem test_table_chunk : decodeTableWord 24 0xABCDEF = some (.unpack3 0xABC 0xDEF) := by decide
theorem test_table_ctrl : decodeTableWord 32 0x1 = some (.hostStart 0) := by decide
theorem test_table_code : decodeTableWord 16 0x0048 = some (.decInit 0x48) := by decide

/-! ### Small states -/

/-- The state of 95_test_vectors.md, section 5: after block reset, IN_MAX = 16 and OUT_MAX = 64. -/
def blank : State := State.resetWith 16 64

/-- The host has loaded `bytes` and set IN_LEN. -/
def loaded (bytes : List Byte) : State :=
  { blank with inMem := Memory.writeAll [] 0 bytes, inLen := BitVec.ofNat 32 bytes.length }

/-- PHASE = UNPACK with `rp` bytes consumed. -/
def unpacking (bytes : List Byte) (rp : Nat) : State :=
  { loaded bytes with
    phase := .unpack, rp := BitVec.ofNat 32 rp, n := BitVec.ofNat 32 (codeCount rp)
    codes := Memory.writeAll [] 0 ((refUnpack bytes).take (codeCount rp)), tailDropped := decide (rp % 3 = 1) }

/-- PHASE = DEC_INIT, no code decoded yet. -/
def unpacked (bytes : List Byte) : State := { unpacking bytes bytes.length with phase := .decInit }

/-- PHASE = DEC_LOOP after DEC_INIT on the code 65, the first code of `bytes`. -/
def begun (bytes : List Byte) : State :=
  { unpacked bytes with
    phase := .decLoop, cur := 1, dict := Memory.write blank.buildBase.dict 256 [0x41], next := 256, prev := [0x41]
    outMem := [(0, 0x41)], olen := 1 }

/-- PHASE = DONE with the output "AB" (the end of `DECODE 04 10 42`). -/
def ended : State :=
  { blank with phase := .done, rp := 3, n := 2, cur := 2, outMem := [(0, 0x41), (1, 0x42)], olen := 2 }

/-- PHASE = ERROR with the record of W10. -/
def failed : State := { blank with phase := .error, err := 2, errPos := 1, errVal := 257 }

/-- The next state, where there is one. -/
def nextOf : Result → Option State
  | .next t => some t
  | .fault _ => none
  | .refused _ => none

/-- One field of the next state. -/
def shows {α : Type} (r : Result) (field : State → α) : Option α := (nextOf r).map field

/-! ### One step each -/

/-- P1, step 2: CODES[2] = 0x100, CODES[3] = 0x102; RP 6, N 4. -/
theorem test_unpack3 :
    shows (step (unpacking [0x04, 0x10, 0x42, 0x10, 0x01, 0x02] 3)) (fun t => (t.codes, t.rp, t.n)) =
      some ([(0, 0x41), (1, 0x42), (2, 0x100), (3, 0x102)], 6, 4) := by decide
/-- V10: the tail code is not split in two. -/
theorem test_unpackTail2 :
    shows (step (unpacking [0x04, 0x10, 0x42, 0x00, 0x21] 3)) (fun t => (t.codes, t.rp, t.n)) =
      some ([(0, 65), (1, 66), (2, 33)], 5, 3) := by decide
/-- V12. -/
theorem test_unpackTail1 :
    shows (step (unpacking [0x07] 0)) (fun t => (t.codes, t.rp, t.n, t.tailDropped)) = some ([], 1, 0, true) := by
  decide
/-- V13. -/
theorem test_unpackEnd :
    shows (step (unpacking [] 0)) (fun t => (t.phase, t.n, t.tailDropped)) = some (.decInit, 0, false) := by decide
/-- W1. -/
theorem test_decEmpty :
    shows (step (unpacked [])) (fun t => (t.phase, t.err, t.errPos, t.errVal)) = some (.error, 1, 0, 0) := by decide
/-- P1, step 4. -/
theorem test_decInit :
    shows (step (unpacked [0x04, 0x10, 0x42])) (fun t => (t.outMem, t.olen, t.next, t.prev, t.cur)) =
      some ([(0, 0x41)], 1, 256, [0x41], 1) := by decide
/-- X1, with OUT_MAX = 0. -/
theorem test_decInit_overflow :
    shows (step { unpacked [0x04, 0x10, 0x42] with outMax := 0 }) (fun t => (t.phase, t.err, t.errPos, t.errVal)) =
      some (.error, 3, 0, 65) := by decide
/-- W7. -/
theorem test_decInitUndef :
    shows (step (unpacked [0xFF, 0xFF])) (fun t => (t.phase, t.err, t.errPos, t.errVal)) =
      some (.error, 2, 0, 65535) := by decide
set_option maxRecDepth 4000 in
/-- P1, step 5. -/
theorem test_decStepDefined :
    shows (step (begun [0x04, 0x10, 0x42])) (fun t => (t.outMem, t.olen, t.next, t.prev, t.cur)) =
      some ([(0, 0x41), (1, 0x42)], 2, 257, [0x42], 2) := by decide
/-- P1, step 5: DICT[256] = "AB" replaces the placeholder. -/
theorem test_decStepDefined_slot :
    shows (step (begun [0x04, 0x10, 0x42])) (fun t => Memory.read t.dict 256) = some (some [0x41, 0x42]) := by
  decide +kernel
/-- W9. -/
theorem test_decStepSelfref :
    shows (step (begun [0x04, 0x11, 0x00])) (fun t => (t.outMem, t.next, t.prev, Memory.read t.dict 256)) =
      some ([(0, 0x41), (1, 0x41), (2, 0x41)], 257, [0x41, 0x41], some [0x41, 0x41]) := by decide +kernel
/-- X4, with OUT_MAX = 2. -/
theorem test_decStepSelfref_overflow :
    shows (step { begun [0x04, 0x11, 0x00] with outMax := 2 }) (fun t => (t.phase, t.err, t.errPos, t.errVal)) =
      some (.error, 3, 1, 256) := by decide
/-- X5, with OUT_MAX = 1: the class of the code is settled first. -/
theorem test_decStepUndef :
    shows (step { begun [0x04, 0x11, 0x2C] with outMax := 1 }) (fun t => (t.phase, t.err, t.errPos, t.errVal)) =
      some (.error, 2, 1, 300) := by decide
/-- W17: the reset is silent. -/
theorem test_decDictReset :
    shows (step { begun [0x04, 0x10, 0x42] with next := 4096 }) (fun t => (t.phase, t.dictResets, t.err, t.cur)) =
      some (.decInit, 1, 0, 1) := by decide
/-- S8. -/
theorem test_decDone :
    shows (step (begun [0x00, 0x41])) (fun t => (t.phase, t.status, t.outLen)) = some (.done, 0x02, 1) := by decide
/-- The end-of-codes test comes before the full-dictionary test (W16). -/
theorem test_decDone_full :
    shows (step { begun [0x00, 0x41] with next := 4096 }) (fun t => (t.phase, t.dictResets)) = some (.done, 0) := by
  decide
/-- Y2. -/
theorem test_hostRd32 :
    shows (exec (.hostRd32 0x24) blank) (fun t => t.rdata) = some 64 := by decide
/-- Y3. -/
theorem test_hostRd32_unmapped : shows (exec (.hostRd32 0x06) failed) (fun t => t.rdata) = some 0 := by decide
/-- Y4. -/
theorem test_hostWr32 : exec (.hostWr32 0x04 0xFFFFFFFF) blank = .next blank := by rfl
/-- Y15. -/
theorem test_hostWr32_ctrl : exec (.hostWr32 0x00 0xFFFFFFFC) blank = .next blank := by rfl
/-- Y14. -/
theorem test_hostStart :
    shows (exec (.hostStart 0) ended) (fun t => (t.phase, t.status, t.n, t.outLen)) = some (.unpack, 0x01, 0, 0) := by
  decide
/-- Y7, from a state whose RP, CUR and OLEN are not 0; R154's table for the three. -/
theorem test_hostStart_range :
    shows (exec (.hostStart 0) { ended with inLen := 17 })
      (fun t => (t.status, t.errPos, t.errVal, t.inLen, t.n, t.rp, t.cur, t.olen)) =
      some (0x43, 0, 0, 17, 0, 0, 0, 0) := by decide
/-- P7. -/
theorem test_hostAbort :
    shows (exec (.hostAbort 0 0) (unpacking [0x04, 0x10, 0x42] 3)) (fun t => (t.status, t.n, t.inLen, t.inByte 0)) =
      some (0x00, 0, 3, 0x04) := by decide
/-- Y9. -/
theorem test_hostAbort_done :
    shows (exec (.hostAbort 0 0) ended) (fun t => (t.status, t.outLen)) = some (0, 0) := by decide
/-- Y5. -/
theorem test_hostWrInLen : shows (exec (.hostWrInLen 6) blank) (fun t => t.inLen) = some 6 := by decide
/-- Y10. -/
theorem test_hostWrInLen_busy :
    shows (exec (.hostWrInLen 9) (unpacking [0x04, 0x10, 0x42] 0)) (fun t => t.inLen) = some 3 := by decide
/-- Y6. -/
theorem test_hostWrin : shows (exec (.hostWrin 5 0x42) blank) (fun t => t.inByte 5) = some 0x42 := by decide
/-- Y10. -/
theorem test_hostWrin_busy :
    shows (exec (.hostWrin 0 0xFF) (unpacking [0x04, 0x10, 0x42] 0)) (fun t => t.inByte 0) = some 0x04 := by decide
/-- Y10, RDIN 0. -/
theorem test_hostRdin : shows (exec (.hostRdin 0) (loaded [0x04, 0x10, 0x42])) (fun t => t.rdata) = some 0x04 := by
  decide
/-- Y6: a = IN_MAX. -/
theorem test_hostRdin_range : shows (exec (.hostRdin 16) blank) (fun t => t.rdata) = some 0 := by decide
/-- Y12, RDOUT 1. -/
theorem test_hostRdout : shows (exec (.hostRdout 1) ended) (fun t => t.rdata) = some 0x42 := by decide
/-- Y12, RDOUT 64. -/
theorem test_hostRdout_range : shows (exec (.hostRdout 64) ended) (fun t => (t.rdata, t.draws)) = some (0, 0) := by
  decide

/-- The host's word as the first instruction after reset. -/
theorem test_withFetchWord_chunk :
    shows (step (State.reset.withFetchWord 24 0xABCDEF)) (fun t => (t.codes, t.n)) =
      some ([(0, 0xABC), (1, 0xDEF)], 2) := by decide
theorem test_withFetchWord_code :
    shows (step (State.reset.withFetchWord 16 0x0048)) (fun t => (t.phase, t.prev)) = some (.decLoop, [0x48]) := by
  decide
theorem test_withFetchWord_ctrl :
    shows (step (State.reset.withFetchWord 32 0x1)) (fun t => t.phase) = some .unpack := by decide

/-! ### States of the invariant -/

theorem blank_space : SpaceInv blank :=
  ⟨by decide, by decide, by decide, by decide, by decide, by decide, by decide, by decide, by decide⟩

theorem blank_inv : Inv blank := ⟨blank_space, ⟨rfl, rfl, rfl⟩, ⟨rfl, rfl, rfl, rfl, rfl, rfl⟩⟩

/-- IDLE with IN_LEN = 3, = IN_MAX, and above. -/
theorem loaded_inv : Inv (loaded [0x04, 0x10, 0x42]) ∧ Inv { blank with inLen := 16 } ∧ Inv { blank with inLen := 17 } := by
  refine ⟨⟨?_, ⟨rfl, rfl, rfl⟩, ⟨rfl, rfl, rfl, rfl, rfl, rfl⟩⟩, ⟨?_, ⟨rfl, rfl, rfl⟩, ⟨rfl, rfl, rfl, rfl, rfl, rfl⟩⟩,
    ⟨?_, ⟨rfl, rfl, rfl⟩, ⟨rfl, rfl, rfl, rfl, rfl, rfl⟩⟩⟩ <;>
    exact ⟨by decide, by decide, by decide, by decide, by decide, by decide, by decide, by decide, by decide⟩

/-- UNPACK with 3, 2, 1 and 0 bytes left. -/
theorem unpacking_inv :
    Inv (unpacking [0x04, 0x10, 0x42] 0) ∧ Inv (unpacking [0x04, 0x10, 0x42, 0x00, 0x21] 3) ∧
      Inv (unpacking [0x04, 0x10, 0x42, 0xFF] 3) ∧ Inv (unpacking [0x04, 0x10, 0x42] 3) := by
  refine ⟨⟨?_, ⟨rfl, rfl, rfl⟩, ?_⟩, ⟨?_, ⟨rfl, rfl, rfl⟩, ?_⟩, ⟨?_, ⟨rfl, rfl, rfl⟩, ?_⟩, ⟨?_, ⟨rfl, rfl, rfl⟩, ?_⟩⟩ <;>
    exact ⟨by decide, by decide, by decide, by decide, by decide, by decide, by decide, by decide, by decide⟩

/-- DEC_INIT with no code, a literal and a code that is none. -/
theorem unpacked_inv :
    Inv (unpacked []) ∧ Inv (unpacked [0x04, 0x10, 0x42]) ∧ Inv (unpacked [0xFF, 0xFF]) := by
  refine ⟨⟨?_, ⟨rfl, rfl, rfl⟩, ⟨⟨?_, ?_, ?_, ?_, ?_, ?_, ?_, ?_⟩, ?_, ?_, ?_⟩⟩,
    ⟨?_, ⟨rfl, rfl, rfl⟩, ⟨⟨?_, ?_, ?_, ?_, ?_, ?_, ?_, ?_⟩, ?_, ?_, ?_⟩⟩,
    ⟨?_, ⟨rfl, rfl, rfl⟩, ⟨⟨?_, ?_, ?_, ?_, ?_, ?_, ?_, ?_⟩, ?_, ?_, ?_⟩⟩⟩ <;>
    first
    | decide
    | exact ⟨by decide, by decide, by decide, by decide, by decide, by decide, by decide, by decide, by decide⟩
    | exact fun rest _ => State.decodesOnFrom_start rfl rfl rest
    | exact fun a h => absurd h (Nat.not_lt_zero a)

theorem begun_dict (bytes : List Byte) (k : Nat) :
    Memory.read (begun bytes).dict k =
      if k = 256 then some [0x41] else if k < 256 then some [BitVec.ofNat 8 k] else none := by
  show Memory.read (Memory.write blank.buildBase.dict 256 [0x41]) k = _
  rw [Memory.read_write, State.read_buildBase]
  rfl

theorem begun_dict_wf (bytes : List Byte) : Memory.wf (begun bytes).dict :=
  Memory.wf_write (State.buildBase_wf (by decide)) 256 [0x41]

theorem begun_dict_below (bytes : List Byte) : Memory.below (begun bytes).dict Config.dictCap :=
  Memory.below_write (State.buildBase_below (s := blank) (by decide)) (show 256 < Config.dictCap by decide) [0x41]

theorem begun_dictList (bytes : List Byte) : (begun bytes).dictList = refBase := by
  apply List.map_congr_left
  intro k hk
  have hk : k < 256 := List.mem_range.1 hk
  rw [State.slot, begun_dict, if_neg (by omega), if_pos hk]
  rfl

theorem begun_decoded (bytes : List Byte) (hn : 1 ≤ (begun bytes).n.toNat) (hc : (begun bytes).code 0 = 65)
    (rest : List Code) : (begun bytes).DecodesOnFrom (some ((begun bytes).dictList, (begun bytes).prev)) rest := by
  have hcode : (begun bytes).codeList.take (begun bytes).cur.toNat = [65] := by
    show (begun bytes).codeList.take (0 + 1) = [65]
    rw [State.codeList_take_succ _ 0 (by omega), hc]
    rfl
  rw [State.DecodesOnFrom, hcode, begun_dictList]
  exact refDecodeFrom_literal rest (by decide) (show 0 + 1 ≤ 64 by decide)

theorem begun_loop (bytes : List Byte) (hd : DecodeInv (begun bytes)) (hn : 1 ≤ (begun bytes).n.toNat)
    (hc : (begun bytes).code 0 = 65) : LoopInv (begun bytes) where
  toDecodeInv := hd
  next_ge := Nat.le_refl 256
  next_le := show 256 ≤ 4096 by decide
  cur_ge := Nat.le_refl 1
  cur_le := hn
  cur_next := rfl
  base := fun k hk => by rw [begun_dict, if_neg (by omega), if_pos hk]
  defined := fun k hk => by
    have hk : k < 256 := hk
    exact ⟨[BitVec.ofNat 8 k], by rw [begun_dict, if_neg (by omega), if_pos hk], by simp, by simp⟩
  prev_ne := List.cons_ne_nil 0x41 []
  prev_len := by
    have hp : (begun bytes).prev.length = 1 := rfl
    have hn : (begun bytes).next.toNat = 256 := rfl
    omega
  last_defined := by
    show ((begun bytes).code 0).toNat < 256
    rw [hc]
    decide
  prev_last := by
    show Memory.read (begun bytes).dict ((begun bytes).code 0).toNat = some [0x41]
    rw [hc]
    have h := begun_dict bytes 65
    simpa using h
  decoded := begun_decoded bytes hn hc

/-- DEC_LOOP with no code left, and with a code below, equal to and above NEXT. -/
theorem begun_inv :
    Inv (begun [0x00, 0x41]) ∧ Inv (begun [0x04, 0x10, 0x42]) ∧ Inv (begun [0x04, 0x11, 0x00]) ∧
      Inv (begun [0x04, 0x11, 0x01]) := by
  refine ⟨⟨⟨?_, ?_, ?_, ?_, ?_, ?_, begun_dict_wf _, begun_dict_below _, ?_⟩, ⟨rfl, rfl, rfl⟩,
      begun_loop _ ⟨?_, ?_, ?_, ?_, ?_, ?_, ?_, ?_⟩ ?_ ?_⟩,
    ⟨⟨?_, ?_, ?_, ?_, ?_, ?_, begun_dict_wf _, begun_dict_below _, ?_⟩, ⟨rfl, rfl, rfl⟩,
      begun_loop _ ⟨?_, ?_, ?_, ?_, ?_, ?_, ?_, ?_⟩ ?_ ?_⟩,
    ⟨⟨?_, ?_, ?_, ?_, ?_, ?_, begun_dict_wf _, begun_dict_below _, ?_⟩, ⟨rfl, rfl, rfl⟩,
      begun_loop _ ⟨?_, ?_, ?_, ?_, ?_, ?_, ?_, ?_⟩ ?_ ?_⟩,
    ⟨⟨?_, ?_, ?_, ?_, ?_, ?_, begun_dict_wf _, begun_dict_below _, ?_⟩, ⟨rfl, rfl, rfl⟩,
      begun_loop _ ⟨?_, ?_, ?_, ?_, ?_, ?_, ?_, ?_⟩ ?_ ?_⟩⟩ <;>
    first
    | decide
    | (intro a h; have h : a < 1 := h; obtain rfl : a = 0 := by omega
       rfl)

theorem ended_inv : Inv ended := by
  refine ⟨⟨by decide, by decide, by decide, by decide, by decide, by decide, by decide, by decide, by decide⟩, ⟨rfl, rfl, rfl⟩,
    ⟨by decide, by decide, ?_, by decide⟩⟩
  intro a h
  have h : a < 2 := h
  obtain rfl | rfl : a = 0 ∨ a = 1 := by omega
  · rfl
  · rfl

theorem failed_inv : Inv failed :=
  ⟨⟨by decide, by decide, by decide, by decide, by decide, by decide, by decide, by decide, by decide⟩,
    ⟨by decide, by decide, by decide⟩, trivial⟩

/-- A memory of `n` zeros. -/
@[irreducible] def zeros (w n : Nat) : Memory (BitVec w) := (List.range n).map fun j => (j, 0#w)

theorem read_zeros (w n k : Nat) : Memory.read (zeros w n) k = if k < n then some 0#w else none := by
  unfold zeros
  exact Memory.read_table _ _ _

theorem wf_zeros (w n : Nat) : Memory.wf (zeros w n) := by
  unfold zeros
  exact Memory.wf_table _ _

theorem below_zeros (w : Nat) {n bound : Nat} (h : n ≤ bound) : Memory.below (zeros w n) bound := by
  unfold zeros
  exact Memory.below_table _ h

/-- The base alphabet and 3840 strings of two zero bytes. -/
@[irreducible] def zeroDict : Memory Str :=
  (List.range 4096).map fun k => (k, if k < 256 then [BitVec.ofNat 8 k] else [0x00, 0x00])

theorem read_zeroDict (k : Nat) :
    Memory.read zeroDict k =
      if k < 4096 then some (if k < 256 then [BitVec.ofNat 8 k] else [0x00, 0x00]) else none := by
  unfold zeroDict
  exact Memory.read_table _ _ _

theorem zeroDict_wf : Memory.wf zeroDict := by
  unfold zeroDict
  exact Memory.wf_table _ _

theorem zeroDict_below : Memory.below zeroDict Config.dictCap := by
  unfold zeroDict
  exact Memory.below_table _ (Nat.le_refl 4096)

/-- The full dictionary (W17, with zeros): 3842 codes 0, of which 3841 are decoded, so NEXT = 4096. -/
def full : State :=
  { State.resetWith 5763 4000 with
    phase := .decLoop
    inMem := zeros 8 5763, inLen := 5763, rp := 5763
    codes := zeros 16 3842, n := 3842, cur := 3841
    dict := zeroDict
    next := 4096, prev := [0x00]
    outMem := zeros 8 3841, olen := 3841 }

theorem full_inBytes (a count : Nat) (h : a + count ≤ 5763) : full.inBytes a count = List.replicate count 0 := by
  induction count generalizing a with
  | zero => rfl
  | succ k ih =>
    have hb : full.inByte a = 0 := by
      show (Memory.read (zeros 8 5763) a).getD _ = 0
      rw [read_zeros, if_pos (by omega)]
      rfl
    rw [State.inBytes, hb, ih (a + 1) (by omega), List.replicate_succ]

theorem refUnpack_zeros (k : Nat) : refUnpack (List.replicate (3 * k) 0) = List.replicate (2 * k) 0 := by
  induction k with
  | zero => rfl
  | succ k ih =>
    rw [show 3 * (k + 1) = 3 * k + 1 + 1 + 1 by omega, show 2 * (k + 1) = 2 * k + 1 + 1 by omega]
    simp only [List.replicate_succ, refUnpack, ih]
    rfl

theorem full_codeList : full.codeList = refUnpack full.input := by
  have hin : full.input = List.replicate (3 * 1921) 0 := full_inBytes 0 5763 (Nat.le_refl 5763)
  rw [hin, refUnpack_zeros, State.codeList, List.eq_replicate_iff]
  refine ⟨by rw [List.length_map, List.length_range]; rfl, ?_⟩
  intro c hc
  rw [List.mem_map] at hc
  obtain ⟨k, hk, rfl⟩ := hc
  have hk : k < 3842 := List.mem_range.1 hk
  show (Memory.read (zeros 16 3842) k).getD _ = 0
  rw [read_zeros, if_pos hk]
  rfl

theorem full_code (k : Nat) (h : k < 3842) : full.code k = 0 := by
  show (Memory.read (zeros 16 3842) k).getD _ = 0
  rw [read_zeros, if_pos h]
  rfl

theorem full_space : SpaceInv full where
  in_wf := wf_zeros 8 5763
  in_below := below_zeros 8 (Nat.le_refl 5763)
  out_wf := wf_zeros 8 3841
  out_below := below_zeros 8 (show 3841 ≤ 4000 by decide)
  codes_wf := wf_zeros 16 3842
  codes_below := below_zeros 16 (show 3842 ≤ full.nMax by decide)
  dict_wf := zeroDict_wf
  dict_below := zeroDict_below
  n_le := by decide

theorem full_decode : DecodeInv full where
  inLen_le := by decide
  rp := rfl
  n := by decide
  tailDropped := by decide
  codes := full_codeList
  olen_outMax := by decide
  olen_cur := by decide
  listed := fun a h => by
    have h : a < 3841 := h
    show (Memory.read (zeros 8 3841) a).isSome
    rw [read_zeros, if_pos h]
    rfl

/-- Decode of zeros while the table has room: each defines the string of two zero bytes. -/
theorem refDecode_zeros (j : Nat) : ∀ (i : Nat) (out : Str) (dict : List Str) (rest : List Code),
    dict[0]? = some [0x00] → dict.length + j ≤ 4096 → out.length + j ≤ 4000 →
    refDecodeFrom 4000 (some (dict, [0x00])) i out (List.replicate j 0 ++ rest) =
      refDecodeFrom 4000 (some (dict ++ List.replicate j [0x00, 0x00], [0x00])) (i + j) (out ++ List.replicate j 0)
        rest := by
  induction j with
  | zero => simp
  | succ j ih =>
    intro i out dict rest hzero hdict hout
    have hlen : 0 < dict.length := (List.getElem?_eq_some_iff.1 hzero).1
    have hchunk : refChunk dict [0x00] 0 = some [0x00] := by
      rw [refChunk, if_pos (by exact hlen)]
      exact hzero
    rw [List.replicate_succ, List.cons_append, refDecodeFrom_consume _ (show dict.length < 4096 by omega) hchunk
      (by simp only [List.length_singleton]; omega)]
    rw [ih _ _ _ _ (by rw [List.getElem?_append_left hlen]; exact hzero)
      (by simp only [List.length_append, List.length_singleton]; omega)
      (by simp only [List.length_append, List.length_singleton]; omega)]
    simp only [List.append_assoc, List.replicate_succ, List.singleton_append]
    rw [show i + 1 + j = i + (j + 1) by omega]
    rfl

theorem full_dictList : full.dictList = refBase ++ List.replicate 3840 [0x00, 0x00] := by
  apply List.ext_getElem?
  intro k
  by_cases hk : k < 4096
  · rw [State.dictList_get full k hk]
    have hslot : full.slot k = if k < 256 then [BitVec.ofNat 8 k] else [0x00, 0x00] := by
      show (Memory.read zeroDict k).getD _ = _
      rw [read_zeroDict, if_pos hk]
      rfl
    rw [hslot, List.getElem?_append, refBase_length]
    split
    · next hb => simp [refBase, hb]
    · rw [List.getElem?_replicate, if_pos (by omega)]
  · rw [List.getElem?_eq_none (by rw [State.dictList_length]; show 4096 ≤ k; omega), List.getElem?_eq_none]
    rw [List.length_append, refBase_length, List.length_replicate]
    omega

theorem full_output : full.output = List.replicate 3841 0 := by
  rw [List.eq_replicate_iff]
  refine ⟨State.output_length full, ?_⟩
  intro b hb
  simp only [State.output, List.mem_map, List.mem_range] at hb
  obtain ⟨a, ha, rfl⟩ := hb
  have ha : a < 3841 := ha
  show (Memory.read (zeros 8 3841) a).getD 0 = 0
  rw [read_zeros, if_pos ha]
  rfl

theorem full_decoded (rest : List Code) : full.DecodesOnFrom (some (full.dictList, full.prev)) rest := by
  have hcodes : full.codeList.take 3841 = List.replicate 3841 0 := by
    rw [full_codeList, show full.input = List.replicate (3 * 1921) 0 from full_inBytes 0 5763 (Nat.le_refl 5763),
      refUnpack_zeros, List.take_replicate]
    rfl
  show refDecodeFrom 4000 none 0 [] (full.codeList.take 3841 ++ rest) =
    refDecodeFrom 4000 (some (full.dictList, [0x00])) 3841 full.output rest
  rw [hcodes, show List.replicate 3841 (0 : Code) = 0 :: List.replicate 3840 0 from List.replicate_succ,
    List.cons_append, refDecodeFrom_literal _ (by decide) (show 0 + 1 ≤ 4000 by decide), full_output, full_dictList]
  exact refDecode_zeros 3840 1 [0x00] refBase rest (by simp [refBase]) (by rw [refBase_length]) (by decide)

theorem full_loop : LoopInv full where
  toDecodeInv := full_decode
  next_ge := by decide
  next_le := by decide
  cur_ge := by decide
  cur_le := by decide
  cur_next := by decide
  base := fun k hk => by
    show Memory.read zeroDict k = _
    rw [read_zeroDict, if_pos (by omega), if_pos hk]
  defined := fun k hk => by
    have hk : k < 4096 := hk
    by_cases hb : k < 256
    · exact ⟨[BitVec.ofNat 8 k], by
        show Memory.read zeroDict k = _
        rw [read_zeroDict, if_pos hk, if_pos hb], by simp, by simp⟩
    · exact ⟨[0x00, 0x00], by
        show Memory.read zeroDict k = _
        rw [read_zeroDict, if_pos hk, if_neg hb], by simp,
        Nat.le_trans (show 2 ≤ k - 254 by omega) (Nat.le_max_right 1 (k - 254))⟩
  prev_ne := List.cons_ne_nil 0x00 []
  prev_len := by decide
  last_defined := by
    show (full.code 3840).toNat < full.next.toNat
    rw [full_code 3840 (by decide)]
    decide
  prev_last := by
    show Memory.read zeroDict (full.code 3840).toNat = some [0x00]
    rw [full_code 3840 (by decide), read_zeroDict]
    rfl
  decoded := full_decoded

theorem full_inv : Inv full := ⟨full_space, ⟨rfl, rfl, rfl⟩, full_loop⟩

/-! ### Witnesses: states and operands that meet the hypotheses of each obligation, one for each clause -/

theorem witness_BytesLeftSelectTheFormat :
    3 ≤ ([0xAB, 0xCD, 0xEF] : List Byte).length ∧ (∃ p u : Byte, ([0x01, 0x02] : List Byte) = [p, u]) ∧
      (∃ x : Byte, ([0xFF] : List Byte) = [x]) ∧ ([] : List Byte) = [] := ⟨by decide, ⟨_, _, rfl⟩, ⟨_, rfl⟩, rfl⟩

theorem witness_DecodeOfEncode :
    ((Instr.decStepDefined 4094).wellFormed = true ∧ (Instr.decStepDefined 4094).selectedAt 4095 = true) ∧
      ((Instr.decStepSelfref 4095).wellFormed = true ∧ (Instr.decStepSelfref 4095).selectedAt 4095 = true) ∧
      ((Instr.decStepUndef 257).wellFormed = true ∧ (Instr.decStepUndef 257).selectedAt 256 = true) ∧
      (Instr.decInitUndef 256).wellFormed = true ∧ (Instr.hostWr32 0x00 0xFFFFFFFC).wellFormed = true := by decide

theorem witness_EncodeOfDecode :
    (Fetch.loopCode 256 0x0100).inRange = true ∧ (Fetch.loopCode 4095 0xFFFF).inRange = true := by decide

/-- An odd sequence whose last code is 65535, and an even one. -/
theorem witness_UnpackOfPack :
    (∀ k (h : k < ([65, 256, 65535] : List Code).length),
      (k + 1 < ([65, 256, 65535] : List Code).length ∨ ([65, 256, 65535] : List Code).length % 2 = 0) →
        ([65, 256, 65535] : List Code)[k].toNat < 4096) ∧
      ([65, 256, 65535] : List Code).length = 2 * 1 + 1 ∧
      (∀ k (h : k < ([65, 4095] : List Code).length),
        (k + 1 < ([65, 4095] : List Code).length ∨ ([65, 4095] : List Code).length % 2 = 0) →
          ([65, 4095] : List Code)[k].toNat < 4096) ∧
      ([65, 4095] : List Code).length = 2 * 1 := by decide

theorem witness_StepRunsTheDecodedInstruction_block :
    (unpacking [0x07] 0).turns = [] ∧ (unpacking [0x07] 0).phase.busy = true ∧
      fetchBlock (unpacking [0x07] 0) = some (.ok (.stream [0x07])) ∧
      decode (.stream [0x07]) = .ok (.unpackTail1 0x07) ∧
      ({ unpacking [0x07] 0 with turns := [.block, .host] } : State).turns.head? = some .block :=
  ⟨rfl, rfl, rfl, rfl, rfl⟩

theorem witness_StepRunsTheDecodedInstruction_host :
    ({ ended with hostProg := [.access (.rd32 0x04)] } : State).phase.busy = false ∧
      ({ unpacking [0x07] 0 with turns := [.host], hostProg := [.access (.rdin 0)] } : State).turns.head? = some .host ∧
      ({ unpacking [0x07] 0 with turns := [.host], hostProg := [.wait] } : State).hostProg = .wait :: [] ∧
      ({ ended with hostProg := [.wait] } : State).phase = .done := by decide

theorem witness_WaitingBlockTakesNoStep :
    ({ ended with turns := [.block] } : State).phase.busy = false ∧
      ({ ended with turns := [.block] } : State).turns.head? = some .block ∧
      blank.phase.busy = false ∧ blank.turns = [] ∧ blank.hostProg = [] := by decide

/-- Three, two, one and no byte left; IN_LEN = IN_MAX = 3. -/
theorem witness_UnpackStepChosenByBytesLeft :
    ∀ s ∈ [unpacking [0x04, 0x10, 0x42] 0, unpacking [0x04, 0x10, 0x42, 0x00, 0x21] 3,
        unpacking [0x04, 0x10, 0x42, 0xFF] 3, { unpacking [0x04, 0x10, 0x42] 3 with inMax := 3 }],
      s.phase = .unpack ∧ s.rp.toNat ≤ s.inLen.toNat ∧ s.inLen.toNat ≤ s.inMax.toNat := by decide

theorem witness_UnpackStepChosenByBytesLeft_clauses :
    (unpacking [0x04, 0x10, 0x42] 0).inLen.toNat - (unpacking [0x04, 0x10, 0x42] 0).rp.toNat = 3 ∧
      (unpacking [0x04, 0x10, 0x42, 0x00, 0x21] 3).inLen.toNat -
        (unpacking [0x04, 0x10, 0x42, 0x00, 0x21] 3).rp.toNat = 2 ∧
      (unpacking [0x04, 0x10, 0x42, 0xFF] 3).inLen.toNat - (unpacking [0x04, 0x10, 0x42, 0xFF] 3).rp.toNat = 1 ∧
      (unpacking [0x04, 0x10, 0x42] 3).inLen.toNat - (unpacking [0x04, 0x10, 0x42] 3).rp.toNat = 0 := by decide

/-- DEC_INIT: no code; the literal 65; the code 65535. -/
theorem witness_DecoderStepChosenByCodeAndNext_init :
    (Inv (unpacked []) ∧ (unpacked []).phase = .decInit ∧ (unpacked []).cur = (unpacked []).n) ∧
      (Inv (unpacked [0x04, 0x10, 0x42]) ∧ (unpacked [0x04, 0x10, 0x42]).cur ≠ (unpacked [0x04, 0x10, 0x42]).n ∧
        ((unpacked [0x04, 0x10, 0x42]).code 0).toNat < 256) ∧
      (Inv (unpacked [0xFF, 0xFF]) ∧ (unpacked [0xFF, 0xFF]).cur ≠ (unpacked [0xFF, 0xFF]).n ∧
        256 ≤ ((unpacked [0xFF, 0xFF]).code 0).toNat) :=
  ⟨⟨unpacked_inv.1, rfl, rfl⟩, ⟨unpacked_inv.2.1, by decide, by decide⟩, ⟨unpacked_inv.2.2, by decide, by decide⟩⟩

/-- DEC_LOOP: no code left; NEXT = 4096; a code below, equal to and just above NEXT. -/
theorem witness_DecoderStepChosenByCodeAndNext_loop :
    (Inv (begun [0x00, 0x41]) ∧ (begun [0x00, 0x41]).phase = .decLoop ∧ (begun [0x00, 0x41]).cur = (begun [0x00, 0x41]).n) ∧
      (Inv full ∧ full.phase = .decLoop ∧ full.cur ≠ full.n ∧ full.next = 4096) ∧
      (Inv (begun [0x04, 0x10, 0x42]) ∧ ((begun [0x04, 0x10, 0x42]).code 1).toNat < 256 ∧
        (begun [0x04, 0x10, 0x42]).cur = 1 ∧ (begun [0x04, 0x10, 0x42]).next = 256) ∧
      (Inv (begun [0x04, 0x11, 0x00]) ∧ ((begun [0x04, 0x11, 0x00]).code 1).toNat = 256) ∧
      (Inv (begun [0x04, 0x11, 0x01]) ∧ ((begun [0x04, 0x11, 0x01]).code 1).toNat = 257) :=
  ⟨⟨begun_inv.1, rfl, by decide⟩, ⟨full_inv, rfl, by decide, rfl⟩, ⟨begun_inv.2.1, by decide, rfl, rfl⟩,
    ⟨begun_inv.2.2.1, by decide⟩, ⟨begun_inv.2.2.2, by decide⟩⟩

/-- The chunk fills CODES exactly. -/
theorem witness_Unpack3StoresBothCodes :
    (State.resetWith 3 64).n.toNat + 2 = (State.resetWith 3 64).nMax ∧
      (unpacking [0x04, 0x10, 0x42] 0).phase = .unpack ∧
      3 ≤ (unpacking [0x04, 0x10, 0x42] 0).inLen.toNat - (unpacking [0x04, 0x10, 0x42] 0).rp.toNat ∧
      (unpacking [0x04, 0x10, 0x42] 0).inLen.toNat ≤ (unpacking [0x04, 0x10, 0x42] 0).inMax.toNat := by decide

theorem witness_UnpackTail2StoresTheTailCode :
    (State.resetWith 2 64).n.toNat + 1 = (State.resetWith 2 64).nMax ∧
      (unpacking [0x04, 0x10, 0x42, 0x00, 0x21] 3).phase = .unpack ∧
      (unpacking [0x04, 0x10, 0x42, 0x00, 0x21] 3).inLen.toNat ≤ 16 ∧
      (unpacking [0x04, 0x10, 0x42, 0x00, 0x21] 3).inLen.toNat -
        (unpacking [0x04, 0x10, 0x42, 0x00, 0x21] 3).rp.toNat = 2 ∧
      Inv (unpacking [0x04, 0x10, 0x42, 0x00, 0x21] 3) :=
  ⟨by decide, rfl, by decide, by decide, unpacking_inv.2.1⟩

theorem witness_UnpackTail1DropsTheByte :
    (unpacking [0x04, 0x10, 0x42, 0xFF] 3).phase = .unpack ∧
      (unpacking [0x04, 0x10, 0x42, 0xFF] 3).inLen.toNat ≤ (unpacking [0x04, 0x10, 0x42, 0xFF] 3).inMax.toNat ∧
      (unpacking [0x04, 0x10, 0x42, 0xFF] 3).inLen.toNat - (unpacking [0x04, 0x10, 0x42, 0xFF] 3).rp.toNat = 1 ∧
      Inv (unpacking [0x04, 0x10, 0x42, 0xFF] 3) := ⟨rfl, by decide, by decide, unpacking_inv.2.2.1⟩

theorem witness_UnpackEndEntersDecInit :
    (unpacking [0x04, 0x10, 0x42] 3).phase = .unpack ∧
      (unpacking [0x04, 0x10, 0x42] 3).rp = (unpacking [0x04, 0x10, 0x42] 3).inLen ∧
      (unpacking [0x04, 0x10, 0x42] 3).inLen.toNat ≤ (unpacking [0x04, 0x10, 0x42] 3).inMax.toNat ∧
      Inv (unpacking [0x04, 0x10, 0x42] 3) := ⟨rfl, rfl, by decide, unpacking_inv.2.2.2⟩

/-- The error entry meets `ErrorEntered`. -/
theorem witness_ErrorEntryIsWhatTheHostReads :
    ErrorEntered .undefinedCodeReference 1 257 (begun [0x04, 0x11, 0x01])
      ((begun [0x04, 0x11, 0x01]).raise .undefinedCodeReference 1 257) := rfl

/-- OUT full by one byte, and one byte short. -/
theorem witness_DecInitRebuildsAndEmitsTheLiteral :
    (State.resetWith 3 1).olen.toNat + 1 ≤ (State.resetWith 3 1).outMax.toNat ∧
      (State.resetWith 3 0).outMax.toNat < (State.resetWith 3 0).olen.toNat + 1 := by decide

theorem begun_slot (bytes : List Byte) (k : Nat) (h : k < 256) : (begun bytes).slot k = [BitVec.ofNat 8 k] := by
  rw [State.slot, begun_dict, if_neg (by omega), if_pos h]
  rfl

/-- The chunk "B" fills OUT exactly, and misses by one byte. -/
theorem witness_DecStepDefinedEmitsTheSlot :
    ((66 : Code).toNat < ({ begun [0x04, 0x10, 0x42] with outMax := 2 } : State).next.toNat ∧
      ({ begun [0x04, 0x10, 0x42] with outMax := 2 } : State).next.toNat < 4096) ∧
      State.slot { begun [0x04, 0x10, 0x42] with outMax := 2 } 66 = 0x42 :: [] ∧
      ({ begun [0x04, 0x10, 0x42] with outMax := 2 } : State).olen.toNat + [(0x42 : Byte)].length = 2 ∧
      1 < ({ begun [0x04, 0x10, 0x42] with outMax := 1 } : State).olen.toNat +
        (State.slot { begun [0x04, 0x10, 0x42] with outMax := 1 } 66).length := by
  refine ⟨by decide, begun_slot [0x04, 0x10, 0x42] 66 (by decide), by decide, ?_⟩
  have h : State.slot { begun [0x04, 0x10, 0x42] with outMax := 1 } 66 = [0x42] := begun_slot [0x04, 0x10, 0x42] 66 (by decide)
  rw [h]
  decide

/-- "AA" fills OUT exactly, and misses by one byte; NEXT = 4095, the last one. -/
theorem witness_DecStepSelfrefExtendsPrev :
    (begun [0x04, 0x11, 0x00]).next.toNat < 4096 ∧
      ({ begun [0x04, 0x11, 0x00] with next := 4095 } : State).next.toNat = 4095 ∧
      (begun [0x04, 0x11, 0x00]).prev = 0x41 :: [] ∧
      (begun [0x04, 0x11, 0x00]).olen.toNat + ((begun [0x04, 0x11, 0x00]).prev.length + 1) = 3 := by decide

/-- A slot that holds the empty string, which no step defines. -/
theorem witness_EmptyChunkGuardRaises :
    (66 : Code).toNat < 4096 ∧ State.slot { blank with dict := [(66, [])] } 66 = [] ∧
      blank.olen.toNat ≤ blank.outMax.toNat ∧ ({ blank with prev := [] } : State).prev = [] := by decide

theorem witness_DictResetIsSilent : full.phase = .decLoop := rfl

theorem witness_AccessOutsideItsSpaceStops :
    (State.resetWith 2 64).nMax < (State.resetWith 2 64).n.toNat + 2 ∧
      (State.resetWith 1 64).nMax < (State.resetWith 1 64).n.toNat + 1 ∧
      4096 ≤ (4096 : Code).toNat ∧
      4096 ≤ ({ blank with next := 4096 } : State).next.toNat ∧ blank.prev ≠ [] ∧
      ({ blank with next := 4096 } : State).olen.toNat + (({ blank with next := 4096 } : State).prev.length + 1) ≤ 64 := by
  decide

/-- DICT[NEXT] at NEXT = 4096. -/
theorem witness_AccessOutsideItsSpaceStops_write :
    (66 : Code).toNat < 4096 ∧ 4096 ≤ ({ blank with next := 4096, dict := [(66, [0x42])] } : State).next.toNat ∧
      State.slot { blank with next := 4096, dict := [(66, [0x42])] } 66 ≠ [] ∧
      blank.olen.toNat + (State.slot { blank with next := 4096, dict := [(66, [0x42])] } 66).length ≤
        blank.outMax.toNat := by decide

/-- CODES[CUR] at CUR = N_MAX = 2, in both phases that read one; IN[RP] at RP = IN_MAX = 3. -/
theorem witness_AccessOutsideItsSpaceStops_fetch :
    (∀ s ∈ [{ State.resetWith 3 64 with phase := .decInit, cur := 2, n := 3 },
        { State.resetWith 3 64 with phase := .decLoop, next := 256, cur := 2, n := 3 }],
      (s.phase = .decInit ∨ (s.phase = .decLoop ∧ s.next ≠ 4096)) ∧ s.nMax ≤ s.cur.toNat ∧
        s.cur.toNat < s.n.toNat) ∧
      ∀ s ∈ [{ State.resetWith 3 64 with phase := .unpack, rp := 3, inLen := 4 }],
        s.phase = .unpack ∧ s.rp.toNat ≤ s.inLen.toNat ∧
          s.inMax.toNat < s.rp.toNat + min 3 (s.inLen.toNat - s.rp.toNat) := by decide

/-- The last mapped offset, the first unmapped one, and an offset that is no multiple of 4. -/
theorem witness_HostRead32ReturnsTheRegister :
    (0x24 : Word) = 0x24 ∧ 0x24 < (0x28 : Word).toNat ∧ (0x06 : Word).toNat % 4 ≠ 0 := by decide

theorem witness_HostWrite32Commands :
    (0x3 : Word).getLsbD 1 = true ∧ ((0x1 : Word).getLsbD 1 = false ∧ (0x1 : Word).getLsbD 0 = true) ∧
      ((0xFFFFFFFC : Word).getLsbD 1 = false ∧ (0xFFFFFFFC : Word).getLsbD 0 = false) ∧
      (0x04 : Word) ≠ 0x00 ∧ (0x04 : Word) ≠ 0x08 := by decide

theorem witness_HostStartBeginsARun :
    (unpacking [0x07] 0).phase.busy = true ∧
      (ended.phase.busy = false ∧ ({ ended with inLen := 16 } : State).inLen.toNat ≤ ended.inMax.toNat) ∧
      ended.inMax.toNat < ({ ended with inLen := 17 } : State).inLen.toNat := by decide

theorem witness_HostWriteInLenStores :
    failed.phase.busy = false ∧ (begun [0x00, 0x41]).phase.busy = true := by decide

/-- The last address of IN, and IN_MAX. -/
theorem witness_HostWriteInStores :
    blank.phase.busy = false ∧ (15 : Word).toNat < blank.inMax.toNat ∧ (unpacking [0x07] 0).phase.busy = true ∧
      blank.inMax.toNat ≤ (16 : Word).toNat := by decide

theorem witness_HostReadInReturnsTheByte :
    (0 : Word).toNat < (loaded [0x07]).inMax.toNat ∧ Memory.read (loaded [0x07]).inMem 0 = some 0x07 ∧
      (loaded [0x07]).inMax.toNat ≤ (16 : Word).toNat := by decide

/-- OUT_MAX; the last byte of the output; the first address above it; and a phase that is not DONE. -/
theorem witness_HostReadOutReturnsTheByte :
    ended.outMax.toNat ≤ (64 : Word).toNat ∧
      ((1 : Word).toNat < ended.outMax.toNat ∧ ended.phase = .done ∧ (1 : Word).toNat < ended.olen.toNat ∧
        Memory.read ended.outMem 1 = some 0x42 ∧ Inv ended) ∧
      ((2 : Word).toNat < ended.outMax.toNat ∧ ended.olen.toNat ≤ (2 : Word).toNat) ∧
      failed.phase ≠ .done :=
  ⟨by decide, ⟨by decide, rfl, by decide, rfl, ended_inv⟩, by decide, by decide⟩

theorem witness_BusyRule :
    (begun [0x00, 0x41]).phase.busy = true ∧ (63 : Word).toNat < (begun [0x00, 0x41]).outMax.toNat := by decide

theorem witness_HostAccessesDoNotDisturbARun :
    (Instr.hostRdout 0).isHost = true ∧ (Instr.hostRdout 0).isAbort = false ∧ (begun [0x00, 0x41]).phase.busy = true ∧
      ∃ t, exec (.hostRdout 0) (begun [0x00, 0x41]) = .next t :=
  ⟨rfl, rfl, rfl, ⟨_, rfl⟩⟩

theorem witness_BlockResetValues :
    (∃ inMax outMax, blank = State.resetWith inMax outMax) ∧
      ∃ t, ({ begun [0x00, 0x41] with turns := [.blockReset] } : State).turns.head? = some .blockReset ∧
        step { begun [0x00, 0x41] with turns := [.blockReset] } = .next t := ⟨⟨16, 64, rfl⟩, ⟨_, rfl, rfl⟩⟩

theorem witness_BlockResetTurnCompletes :
    ({ begun [0x00, 0x41] with turns := [.blockReset, .block] } : State).turns.head? = some .blockReset := rfl

theorem step_full : ∃ t, stepBlock full = .next t ∧ step full = .next t ∧ t.phase = .decInit := ⟨_, rfl, rfl, rfl⟩

theorem witness_StepKeepsTheInvariant :
    (Inv blank ∧ ∃ t, step blank = .next t) ∧ (Inv (unpacking [0x04, 0x10, 0x42] 0) ∧
      ∃ t, step (unpacking [0x04, 0x10, 0x42] 0) = .next t) ∧
      (Inv (unpacked [0x04, 0x10, 0x42]) ∧ ∃ t, step (unpacked [0x04, 0x10, 0x42]) = .next t) ∧
      (Inv full ∧ ∃ t, step full = .next t) ∧ (Inv ended ∧ ∃ t, step ended = .next t) ∧
      (Inv failed ∧ ∃ t, step failed = .next t) :=
  ⟨⟨blank_inv, _, rfl⟩, ⟨unpacking_inv.1, _, rfl⟩, ⟨unpacked_inv.2.1, _, rfl⟩, ⟨full_inv, step_full.imp fun _ h => h.2.1⟩,
    ⟨ended_inv, _, rfl⟩, ⟨failed_inv, _, rfl⟩⟩

theorem witness_InvariantStatesNeverStop :
    Inv blank ∧ Inv (unpacking [0x04, 0x10, 0x42] 0) ∧ Inv (unpacked []) ∧ Inv (begun [0x04, 0x11, 0x01]) ∧ Inv full ∧
      Inv ended ∧ Inv failed :=
  ⟨blank_inv, unpacking_inv.1, unpacked_inv.1, begun_inv.2.2.2, full_inv, ended_inv, failed_inv⟩

/-- STATUS.STATE changes at termination, at an error, and at an ABORT of the host. -/
theorem witness_StateFieldChangesOnlyAtItsEvents :
    (∃ t, step (begun [0x00, 0x41]) = .next t ∧ t.phase.code ≠ (begun [0x00, 0x41]).phase.code) ∧
      (∃ t, step (unpacked []) = .next t ∧ t.phase.code ≠ (unpacked []).phase.code) ∧
      ∃ t, step { ended with hostProg := scriptAbort } = .next t ∧ t.phase.code ≠ ended.phase.code :=
  ⟨⟨_, rfl, by decide⟩, ⟨_, rfl, by decide⟩, ⟨_, rfl, by decide⟩⟩

theorem witness_EndedRunIsLeftOnlyByCommand :
    (ended.phase = .done ∧ ∃ t, step ended = .next t) ∧
      (failed.phase = .error ∧ ∃ t, step { failed with hostProg := scriptStart } = .next t) :=
  ⟨⟨rfl, _, rfl⟩, ⟨rfl, _, rfl⟩⟩

theorem witness_RegistersWrittenOnlyByTheirOperations :
    (∃ t, step (unpacking [0x07] 0) = .next t ∧ t.tailDropped = true) ∧
      (∃ t, step full = .next t) ∧
      ∃ t, step { ended with hostProg := scriptSetLen 6 } = .next t ∧ t.inLen = 6 :=
  ⟨⟨_, rfl, rfl⟩, step_full.imp fun _ h => h.2.1, ⟨_, rfl, rfl⟩⟩

theorem witness_InputIsFrozenWhileBusy :
    (unpacking [0x07] 0).phase.busy = true ∧ (unpacking [0x07] 0).mover ≠ .blockReset ∧
      ∃ t, step (unpacking [0x07] 0) = .next t := ⟨rfl, by decide, _, rfl⟩

theorem witness_RunRegistersOnlyAdvance :
    Inv (unpacked [0x04, 0x10, 0x42]) ∧ (unpacked [0x04, 0x10, 0x42]).phase.busy = true ∧
      ∃ t, step (unpacked [0x04, 0x10, 0x42]) = .next t ∧ t.phase.busy = true :=
  ⟨unpacked_inv.2.1, rfl, _, rfl, rfl⟩

/-- OUT_MAX = 3841 * N_MAX, and the record of an OutputOverflow: the invariant admits the state, no run reaches it. -/
theorem witness_LargeOutputBufferNeverOverflows :
    Inv { State.resetWith 3 7682 with phase := .error, err := 3 } ∧
      3841 * (State.resetWith 3 7682).nMax ≤ (State.resetWith 3 7682).outMax.toNat ∧
      ∃ t, step { State.resetWith 3 7682 with phase := .error, err := 3 } = .next t ∧ t.err = 3 :=
  ⟨⟨⟨by decide, by decide, by decide, by decide, by decide, by decide, by decide, by decide, by decide⟩,
    ⟨by decide, by decide, by decide⟩, trivial⟩, by decide, _, rfl, rfl⟩

theorem witness_MalformedInputOnlyWhenEmpty :
    Inv (unpacked []) ∧ ∃ t, step (unpacked []) = .next t ∧ t.err = 1 ∧ (unpacked []).err ≠ 1 :=
  ⟨unpacked_inv.1, _, rfl, rfl, by decide⟩

/-- Two states that differ in the unused slot 300. -/
theorem witness_StaleSlotsAreNeverRead :
    (∀ k < (begun [0x04, 0x11, 0x00]).next.toNat,
      Memory.read (Memory.write (begun [0x04, 0x11, 0x00]).dict 300 [0xFF]) k =
        Memory.read (begun [0x04, 0x11, 0x00]).dict k) ∧
      Memory.read (Memory.write (begun [0x04, 0x11, 0x00]).dict 300 [0xFF]) 300 = some [0xFF] ∧
      ∃ t, step (begun [0x04, 0x11, 0x00]) = .next t := by
  refine ⟨fun k hk => Memory.read_write_other _ _ ?_, Memory.read_write_same _ _ _, _, rfl⟩
  have hk : k < 256 := hk
  omega

/-- L = 0, 3 and IN_MAX. -/
theorem witness_UnpackPhaseYieldsTheCodes :
    ∀ s ∈ [blank, loaded [0x04, 0x10, 0x42], { blank with inLen := 16 }],
      Inv s ∧ s.phase.busy = false ∧ s.inLen.toNat ≤ s.inMax.toNat ∧ s.turns = [] := by
  intro s hs
  simp only [List.mem_cons, List.not_mem_nil, or_false] at hs
  obtain rfl | rfl | rfl := hs
  · exact ⟨blank_inv, rfl, by decide, rfl⟩
  · exact ⟨loaded_inv.1, rfl, by decide, rfl⟩
  · exact ⟨loaded_inv.2.1, rfl, by decide, rfl⟩

/-- L = 0, 3, IN_MAX and IN_MAX + 1. -/
theorem witness_RunShowsTheReferenceResult :
    ∀ s ∈ [blank, loaded [0x04, 0x10, 0x42], { blank with inLen := 16 }, { blank with inLen := 17 }],
      Inv s ∧ s.phase.busy = false ∧ s.turns = [] := by
  intro s hs
  simp only [List.mem_cons, List.not_mem_nil, or_false] at hs
  obtain rfl | rfl | rfl | rfl := hs
  · exact ⟨blank_inv, rfl, rfl⟩
  · exact ⟨loaded_inv.1, rfl, rfl⟩
  · exact ⟨loaded_inv.2.1, rfl, rfl⟩
  · exact ⟨loaded_inv.2.2, rfl, rfl⟩

/-- A state in ERROR, with another IN_MAX, a byte of IN beyond the input, and what an earlier run left. -/
def other : State :=
  { loaded [0x04, 0x10, 0x42] with
    phase := .error, err := 2, errPos := 1, errVal := 257, inMax := 32
    inMem := [(0, 0x04), (1, 0x10), (2, 0x42), (3, 0xFF)], next := 300, prev := [0x41, 0x42], dict := [(256, [0x41])] }

theorem witness_RunDependsOnItsInputOnly :
    Inv (loaded [0x04, 0x10, 0x42]) ∧ Inv other ∧ (loaded [0x04, 0x10, 0x42]).phase.busy = false ∧
      other.phase.busy = false ∧ (loaded [0x04, 0x10, 0x42]).turns = [] ∧ other.turns = [] ∧
      (loaded [0x04, 0x10, 0x42]).inLen = other.inLen ∧ (loaded [0x04, 0x10, 0x42]).input = other.input ∧
      (loaded [0x04, 0x10, 0x42]).outMax = other.outMax ∧
      (loaded [0x04, 0x10, 0x42]).inLen.toNat ≤ (loaded [0x04, 0x10, 0x42]).inMax.toNat ∧
      other.inLen.toNat ≤ other.inMax.toNat :=
  ⟨loaded_inv.1,
    ⟨⟨by decide, by decide, by decide, by decide, by decide, by decide, by decide, by decide, by decide⟩,
      ⟨by decide, by decide, by decide⟩, trivial⟩,
    rfl, rfl, rfl, rfl, rfl, by decide, rfl, by decide, by decide⟩

/-- A step to DEC_LOOP, to DEC_INIT, to DONE and to ERROR. -/
theorem witness_BlockStepKeepsTheRemainingResult :
    (Inv (begun [0x04, 0x11, 0x00]) ∧ ∃ t, stepBlock (begun [0x04, 0x11, 0x00]) = .next t ∧ t.phase = .decLoop) ∧
      (Inv full ∧ ∃ t, stepBlock full = .next t ∧ t.phase = .decInit) ∧
      (Inv (begun [0x00, 0x41]) ∧ ∃ t, stepBlock (begun [0x00, 0x41]) = .next t ∧ t.phase = .done) ∧
      (Inv (begun [0x04, 0x11, 0x01]) ∧ ∃ t, stepBlock (begun [0x04, 0x11, 0x01]) = .next t ∧ t.phase = .error) :=
  ⟨⟨begun_inv.2.2.1, _, rfl, rfl⟩, ⟨full_inv, step_full.imp fun _ h => ⟨h.1, h.2.2⟩⟩, ⟨begun_inv.1, _, rfl, rfl⟩,
    ⟨begun_inv.2.2.2, _, rfl, rfl⟩⟩

/-- Two codes, which fill OUT exactly. -/
theorem witness_LiteralsDecodeToThemselves :
    ([0, 255] : List Code) ≠ [] ∧ (∀ c ∈ ([0, 255] : List Code), c.toNat < 256) ∧ ([0, 255] : List Code).length ≤ 2 := by
  simp

/-- W9 with exactly the room of R111, W10 likewise. -/
theorem witness_DecodeSucceedsExactlyOnValidCodes :
    3841 * ([65, 256] : List Code).length ≤ 7682 ∧ 3841 * ([65, 257] : List Code).length ≤ 7682 ∧
      3841 * ([] : List Code).length ≤ 0 := by decide

/-- No byte, and IN_MAX bytes. -/
theorem witness_DecodeScriptStartsTheRun :
    ∀ bytes ∈ [[], List.replicate 16 (0x41 : Byte)],
      ({ blank with hostProg := scriptDecode bytes } : State).phase.busy = false ∧
        ({ blank with hostProg := scriptDecode bytes } : State).turns = [] ∧
        bytes.length ≤ ({ blank with hostProg := scriptDecode bytes } : State).inMax.toNat ∧
        ({ blank with hostProg := scriptDecode bytes } : State).hostProg = scriptDecode bytes ++ [] := by
  intro bytes hs
  simp only [List.mem_cons, List.not_mem_nil, or_false] at hs
  obtain rfl | rfl := hs
  · exact ⟨rfl, rfl, by decide, (List.append_nil _).symm⟩
  · exact ⟨rfl, rfl, by decide, (List.append_nil _).symm⟩

end Sys2Proof.Tests
end

section
/-! PROOFS of the family 00_scope.md: a turn of an agent as the operation it runs (R12, 20_memory.md R57). -/

namespace Sys2Proof.Machine

/-! ### A turn of the agent that moves -/

theorem step_of_mover_block {s : State} (h : s.mover = .block) : step s = stepBlock s.popTurn := by
  simp only [step, h]

theorem step_of_mover_host {s : State} (h : s.mover = .host) : step s = stepHost s.popTurn := by
  simp only [step, h]

/-- A block turn runs what the decoder reads from the block's fetch. -/
theorem stepBlock_of_decode {s : State} {f : Fetch} {i : Instr} (hf : fetchBlock s = some (.ok f))
    (hd : decode f = .ok i) : stepBlock s = exec i s := by
  simp only [stepBlock, hf, hd]

theorem stepHost_of_access {s : State} {a : HostAccess} {rest : List HostStmt} (h : s.hostProg = .access a :: rest) :
    stepHost s = exec (decodeHost a) (s.setHostProg rest) := by
  simp only [stepHost, h]

/-- `WAIT` is a read of STATUS (30_encoding.md R79). -/
theorem stepHost_of_wait {s : State} {rest : List HostStmt} (h : s.hostProg = .wait :: rest) :
    stepHost s = exec (.hostRd32 0x04) (if s.phase.ended then s.setHostProg rest else s) := by
  simp only [stepHost, h, decodeHost]

theorem Phase.ended_iff (p : Phase) : p.ended = true ↔ p = .done ∨ p = .error := by
  cases p <;> decide

/-- What a `WAIT` leaves of the host's program, as one record update. -/
theorem setHostProg_if_ended {s : State} {rest : List HostStmt} (h : s.hostProg = .wait :: rest) :
    (if s.phase.ended then s.setHostProg rest else s) =
      s.setHostProg (if s.phase = .done ∨ s.phase = .error then rest else .wait :: rest) := by
  simp only [Phase.ended_iff]
  split
  · rfl
  · rw [← h]
    rfl

/-- Settles O7: the mover is the agent the clause names, and its turn, with the entry of `turns` used up, is the
operation it decodes. -/
theorem stepRunsTheDecodedInstruction : Obligations.StepRunsTheDecodedInstruction := by
  intro s
  refine ⟨fun f i hm hf hd => ?block, fun a rest hm hp => ?access, fun rest hm hp => ?wait⟩
  case block =>
    have hf' : fetchBlock s.popTurn = some (.ok f) := (fetchBlock_popTurn s).trans hf
    exact (step_of_mover_block (mover_block hm)).trans (stepBlock_of_decode hf' hd)
  case access =>
    exact (step_of_mover_host (mover_host hm)).trans (stepHost_of_access (s := s.popTurn) hp)
  case wait =>
    have hp' : s.popTurn.hostProg = .wait :: rest := hp
    rw [step_of_mover_host (mover_host hm), stepHost_of_wait hp', setHostProg_if_ended hp']
    rfl

end Sys2Proof.Machine
end

section
/-! PROOFS of the family 10_state.md, first part: the operation that a block turn selects (40_unpacker.md R83,
41_decoder.md R94), and the state it leads to. -/

namespace Sys2Proof.Machine

/-! ### The operation a block turn selects -/

/-- The operations that R83 and R94 select in a state, each with what its selection says of the registers. -/
inductive Selected (s : State) : Instr → Prop
  | unpack3 (hp : s.phase = .unpack) (hleft : s.rp.toNat + 3 ≤ s.inLen.toNat) :
      Selected s (.unpack3 (codeA (s.inByte s.rp.toNat) (s.inByte (s.rp.toNat + 1)))
        (codeB (s.inByte (s.rp.toNat + 1)) (s.inByte (s.rp.toNat + 1 + 1))))
  | unpackTail2 (hp : s.phase = .unpack) (hleft : s.rp.toNat + 2 = s.inLen.toNat) :
      Selected s (.unpackTail2 (tailCode (s.inByte s.rp.toNat) (s.inByte (s.rp.toNat + 1))))
  | unpackTail1 (hp : s.phase = .unpack) (hleft : s.rp.toNat + 1 = s.inLen.toNat) :
      Selected s (.unpackTail1 (s.inByte s.rp.toNat))
  | unpackEnd (hp : s.phase = .unpack) (hleft : s.rp = s.inLen) : Selected s .unpackEnd
  | decEmpty (hp : s.phase = .decInit) (hcur : s.cur = s.n) : Selected s .decEmpty
  | decInit (hp : s.phase = .decInit) (hcur : s.cur.toNat < s.n.toNat) (hc : (s.code s.cur.toNat).toNat < 256) :
      Selected s (.decInit ((s.code s.cur.toNat).setWidth 8))
  | decInitUndef (hp : s.phase = .decInit) (hcur : s.cur.toNat < s.n.toNat)
      (hc : 256 ≤ (s.code s.cur.toNat).toNat) : Selected s (.decInitUndef (s.code s.cur.toNat))
  | decDone (hp : s.phase = .decLoop) (hcur : s.cur = s.n) : Selected s .decDone
  | decDictReset (hp : s.phase = .decLoop) (hcur : s.cur.toNat < s.n.toNat) (hnext : s.next = 4096) :
      Selected s .decDictReset
  | decStepDefined (hp : s.phase = .decLoop) (hcur : s.cur.toNat < s.n.toNat) (hnext : s.next.toNat < 4096)
      (hc : (s.code s.cur.toNat).toNat < s.next.toNat) : Selected s (.decStepDefined (s.code s.cur.toNat))
  | decStepSelfref (hp : s.phase = .decLoop) (hcur : s.cur.toNat < s.n.toNat) (hnext : s.next.toNat < 4096)
      (hc : (s.code s.cur.toNat).toNat = s.next.toNat) : Selected s (.decStepSelfref (s.code s.cur.toNat))
  | decStepUndef (hp : s.phase = .decLoop) (hcur : s.cur.toNat < s.n.toNat) (hnext : s.next.toNat < 4096)
      (hc : s.next.toNat < (s.code s.cur.toNat).toNat) : Selected s (.decStepUndef (s.code s.cur.toNat))

/-- R83: the bytes left select the operation of the BitUnpacker. -/
theorem selected_of_stream {s : State} (hp : s.phase = .unpack) (hrp : s.rp.toNat ≤ s.inLen.toNat) :
    Selected s (decodeStream (s.inBytes s.rp.toNat (min 3 (s.inLen.toNat - s.rp.toNat)))) := by
  obtain h | h | h | h : s.inLen.toNat - s.rp.toNat = 0 ∨ s.inLen.toNat - s.rp.toNat = 1 ∨
      s.inLen.toNat - s.rp.toNat = 2 ∨ 3 ≤ s.inLen.toNat - s.rp.toNat := by omega
  · rw [h]
    exact .unpackEnd hp (BitVec.eq_of_toNat_eq (by omega))
  · rw [h]
    exact .unpackTail1 hp (by omega)
  · rw [h]
    exact .unpackTail2 hp (by omega)
  · rw [Nat.min_eq_left h]
    exact .unpack3 hp (by omega)

/-- R73: a first code is a literal or none. -/
theorem selected_of_firstCode {s : State} (hp : s.phase = .decInit) (hcur : s.cur.toNat < s.n.toNat) :
    Selected s (decodeFirstCode (s.code s.cur.toNat)) := by
  unfold decodeFirstCode
  split
  · next hc => exact .decInit hp hcur ((literal_mask_iff _).1 hc)
  · next hc => exact .decInitUndef hp hcur (Nat.le_of_not_lt fun h => hc ((literal_mask_iff _).2 h))

/-- R74: a main-loop code is compared with NEXT. -/
theorem selected_of_loopCode {s : State} {i : Instr} (hp : s.phase = .decLoop) (hcur : s.cur.toNat < s.n.toNat)
    (hd : decodeLoopCode s.next (s.code s.cur.toNat) = .ok i) : Selected s i := by
  unfold decodeLoopCode at hd
  split at hd
  · next hnext =>
    split at hd
    · next hc =>
      cases hd
      exact .decStepDefined hp hcur hnext hc
    · next hge =>
      split at hd <;> cases hd
      · next hc => exact .decStepSelfref hp hcur hnext hc
      · next hne => exact .decStepUndef hp hcur hnext (by omega)
  · cases hd

/-- A block turn runs a selected operation. -/
theorem selected_of_fetchBlock {s : State} {f : Fetch} {i : Instr} (hf : fetchBlock s = some (.ok f))
    (hd : decode f = .ok i) : Selected s i := by
  unfold fetchBlock at hf
  cases hp : s.phase <;> simp only [hp] at hf
  case idle => cases hf
  case done => cases hf
  case error => cases hf
  case unpack =>
    rcases fetchStream_cases s with ⟨_, e⟩ | ⟨_, _, e⟩ | ⟨hrp, _, e⟩ <;> rw [e] at hf <;> cases hf
    cases hd
    exact selected_of_stream hp hrp
  case decInit =>
    rcases fetchCode_cases s .noFirstCode .firstCode with ⟨hcur, e⟩ | ⟨_, e⟩ | ⟨_, _, e⟩ | ⟨hcur, _, e⟩ <;>
      rw [e] at hf <;> cases hf <;> cases hd
    · exact .decEmpty hp hcur
    · exact selected_of_firstCode hp hcur
  case decLoop =>
    split at hf
    · next hfull =>
      cases hf
      cases hd
      exact .decDictReset hp hfull.1 hfull.2
    · rcases fetchCode_cases s .endOfCodes (.loopCode s.next) with ⟨hcur, e⟩ | ⟨_, e⟩ | ⟨_, _, e⟩ | ⟨hcur, _, e⟩ <;>
        rw [e] at hf <;> cases hf
      · cases hd
        exact .decDone hp hcur
      · exact selected_of_loopCode hp hcur hd

/-! ### The state a block turn leads to -/

/-- `k` bytes of IN consumed and their codes `new` stored in CODES from N up (40_unpacker.md R84, R87, R88): TAIL_DROPPED is
set by a TAIL8. -/
def State.unpackBytes (k : Nat) (new : List Code) (s : State) : State :=
  { s with
    codes := Memory.writeAll s.codes s.n.toNat new, n := s.n + BitVec.ofNat 32 new.length
    rp := s.rp + BitVec.ofNat 32 k, tailDropped := decide (k = 1) || s.tailDropped }

/-- DEC_INIT on a literal that fits OUT (41_decoder.md R97). -/
def State.beginGeneration (c : Byte) (s : State) : State :=
  { s.buildBase.appendOut [c] with
    dict := Memory.write s.buildBase.dict 256 [c], prev := [c], cur := s.cur + 1, phase := .decLoop }

/-- A main-loop step on a chunk that fits OUT (41_decoder.md R105, R110). -/
def State.consume (first : Byte) (chunk : Str) (s : State) : State := (s.appendOut chunk).grow first chunk

/-- After DEC_INIT: the base alphabet, the placeholder in slot 256, and what was there above (R95, R97, R107). -/
theorem State.read_beginGeneration (c : Byte) (s : State) (k : Nat) :
    Memory.read (s.beginGeneration c).dict k =
      if k = 256 then some [c] else if k < 256 then some [BitVec.ofNat 8 k] else Memory.read s.dict k := by
  rw [← State.read_buildBase]
  exact Memory.read_write _ _ _ _

/-- The states that a selected operation of the block can lead to. A chunk, a TAIL16 and a TAIL8 are one case: `k` bytes are
consumed, and their codes `new` are the first ones of `refUnpack` of the bytes left (R84, R87, R88). -/
inductive BlockStep (s : State) : State → Prop
  | unpack (k : Nat) (new : List Code) (hp : s.phase = .unpack) (hk : 1 ≤ k ∧ k ≤ 3)
      (hleft : s.rp.toNat + k ≤ s.inLen.toNat) (hend : k < 3 → s.rp.toNat + k = s.inLen.toNat)
      (hcount : new.length = codeCount k) (hroom : new ≠ [] → s.n.toNat + new.length ≤ s.nMax)
      (hnew : refUnpack (s.inBytes s.rp.toNat (s.inLen.toNat - s.rp.toNat)) =
        new ++ refUnpack (s.inBytes (s.rp.toNat + k) (s.inLen.toNat - (s.rp.toNat + k)))) :
      BlockStep s (s.unpackBytes k new)
  | unpackEnd (hp : s.phase = .unpack) (hleft : s.rp = s.inLen) : BlockStep s { s with phase := .decInit }
  | decInit (hp : s.phase = .decInit) (hcur : s.cur.toNat < s.n.toNat) (hc : (s.code s.cur.toNat).toNat < 256)
      (hfit : s.olen.toNat + 1 ≤ s.outMax.toNat) :
      BlockStep s (s.beginGeneration ((s.code s.cur.toNat).setWidth 8))
  | decStep (first : Byte) (rest : Str) (hp : s.phase = .decLoop) (hcur : s.cur.toNat < s.n.toNat)
      (hnext : s.next.toNat < 4096)
      (hchunk : refChunk s.dictList s.prev (s.code s.cur.toNat) = some (first :: rest))
      (hfit : s.olen.toNat + (first :: rest).length ≤ s.outMax.toNat) :
      BlockStep s (s.consume first (first :: rest))
  | decDictReset (hp : s.phase = .decLoop) (hcur : s.cur.toNat < s.n.toNat) (hnext : s.next = 4096) :
      BlockStep s { s with dictResets := s.dictResets + 1, phase := .decInit }
  | decDone (hp : s.phase = .decLoop) (hcur : s.cur = s.n) : BlockStep s { s with phase := .done }
  | raise (kind : ErrorKind) (pos : Word) (c : Code) : BlockStep s (s.raise kind pos (c.setWidth 32))

/-- The codes of three bytes left or more are those of the chunk, then those of the rest (R84). -/
theorem refUnpack_chunk {s : State} (hleft : s.rp.toNat + 3 ≤ s.inLen.toNat) :
    refUnpack (s.inBytes s.rp.toNat (s.inLen.toNat - s.rp.toNat)) =
      [(codeA (s.inByte s.rp.toNat) (s.inByte (s.rp.toNat + 1))).setWidth 16,
        (codeB (s.inByte (s.rp.toNat + 1)) (s.inByte (s.rp.toNat + 1 + 1))).setWidth 16] ++
      refUnpack (s.inBytes (s.rp.toNat + 3) (s.inLen.toNat - (s.rp.toNat + 3))) := by
  rw [show s.inLen.toNat - s.rp.toNat = s.inLen.toNat - (s.rp.toNat + 3) + 1 + 1 + 1 by omega]
  rfl

/-- Two bytes left have the tail code (R87). -/
theorem refUnpack_tail2 {s : State} (hleft : s.rp.toNat + 2 = s.inLen.toNat) :
    refUnpack (s.inBytes s.rp.toNat (s.inLen.toNat - s.rp.toNat)) =
      [tailCode (s.inByte s.rp.toNat) (s.inByte (s.rp.toNat + 1))] ++
      refUnpack (s.inBytes (s.rp.toNat + 2) (s.inLen.toNat - (s.rp.toNat + 2))) := by
  rw [← hleft, Nat.add_sub_cancel_left, Nat.sub_self]
  rfl

/-- One byte left has no code (R88). -/
theorem refUnpack_tail1 {s : State} (hleft : s.rp.toNat + 1 = s.inLen.toNat) :
    refUnpack (s.inBytes s.rp.toNat (s.inLen.toNat - s.rp.toNat)) =
      [] ++ refUnpack (s.inBytes (s.rp.toNat + 1) (s.inLen.toNat - (s.rp.toNat + 1))) := by
  rw [← hleft, Nat.add_sub_cancel_left, Nat.sub_self]
  rfl

/-- DEC_STEP_DEFINED and DEC_STEP_SELFREF end alike (R105, R110, R113). -/
theorem blockStep_of_chunk {s t : State} {chunk : Str} (hp : s.phase = .decLoop) (hcur : s.cur.toNat < s.n.toNat)
    (hnext : s.next.toNat < 4096) (hchunk : refChunk s.dictList s.prev (s.code s.cur.toNat) = some chunk)
    (h : appendThen chunk (s.code s.cur.toNat) s (defineEntry chunk (s.code s.cur.toNat)) = .next t) :
    BlockStep s t := by
  rcases appendThen_cases chunk (s.code s.cur.toNat) s (defineEntry chunk (s.code s.cur.toNat)) with
    ⟨_, e⟩ | ⟨hfit, e⟩ <;> rw [e] at h
  · cases h
    exact .raise _ _ _
  · rcases defineEntry_cases chunk (s.code s.cur.toNat) (s.appendOut chunk) with
      ⟨_, e⟩ | ⟨first, rest, rfl, _, e⟩ | ⟨_, _, e⟩ <;> rw [e] at h <;> cases h
    · exact .raise _ _ _
    · exact .decStep first rest hp hcur hnext hchunk hfit

/-- UNPACK3 as the consumption of three bytes; N does not wrap where CODES has room. -/
theorem pushCode_pushCode_eq {s : State} (a b : Code) (hn : s.n.toNat + 1 < 2 ^ 32) :
    { (s.pushCode a).pushCode b with rp := s.rp + 3 } = s.unpackBytes 3 [a, b] := by
  have hcodes : ((s.pushCode a).pushCode b).codes = Memory.writeAll s.codes s.n.toNat [a, b] := by
    show Memory.write _ (s.n + 1).toNat b = _
    rw [word_add_one s.n hn]
    rfl
  have hcount : ((s.pushCode a).pushCode b).n = s.n + BitVec.ofNat 32 [a, b].length := BitVec.add_assoc s.n 1 1
  simp only [State.unpackBytes, ← hcodes, ← hcount]
  rfl

/-- UNPACK_TAIL1 as the consumption of one byte. -/
theorem tailDropped_eq (s : State) : { s with tailDropped := true, rp := s.rp + 1 } = s.unpackBytes 1 [] := by
  simp [State.unpackBytes, Memory.writeAll]

/-- What a selected operation does. -/
theorem blockStep_of_exec {i : Instr} {s t : State} (hsel : Selected s i) (h : exec i s = .next t) : BlockStep s t := by
  cases hsel with
  | unpack3 hp hleft =>
    simp only [exec, execUnpack3] at h
    split at h <;> cases h
    next hroom =>
      have hroom' : s.n.toNat + 2 ≤ s.nMax := Nat.le_of_not_lt hroom
      have := nMax_lt s
      rw [pushCode_pushCode_eq _ _ (by omega)]
      exact .unpack 3 [_, _] hp (by omega) hleft (by omega) rfl
        (fun _ => hroom') (refUnpack_chunk hleft)
  | unpackTail2 hp hleft =>
    simp only [exec, execUnpackTail2] at h
    split at h <;> cases h
    next hroom =>
      exact .unpack 2 [_] hp (by omega) (by omega) (fun _ => hleft) rfl (fun _ => Nat.le_of_not_lt hroom)
        (refUnpack_tail2 hleft)
  | unpackTail1 hp hleft =>
    cases h
    rw [tailDropped_eq]
    exact .unpack 1 [] hp (by omega) (by omega) (fun _ => hleft) rfl (absurd rfl ·) (refUnpack_tail1 hleft)
  | unpackEnd hp hleft =>
    cases h
    exact .unpackEnd hp hleft
  | decEmpty _ _ =>
    cases h
    exact .raise .malformedInput 0 0
  | decInit hp hcur hc =>
    simp only [exec, execDecInit] at h
    rcases appendThen_cases [(s.code s.cur.toNat).setWidth 8] _ s.buildBase _ with ⟨_, e⟩ | ⟨hfit, e⟩ <;>
      rw [e] at h <;> cases h
    · exact .raise .outputOverflow s.cur _
    · exact .decInit hp hcur hc hfit
  | decInitUndef _ _ _ =>
    cases h
    exact .raise _ _ _
  | decDone hp hcur =>
    cases h
    exact .decDone hp hcur
  | decDictReset hp hcur hnext =>
    cases h
    exact .decDictReset hp hcur hnext
  | decStepDefined hp hcur hnext hc =>
    simp only [exec, execDecStepDefined] at h
    split at h
    · refine blockStep_of_chunk hp hcur hnext ?_ h
      rw [refChunk, State.dictList_length, if_pos hc, State.dictList_get s _ hc]
    · cases h
  | decStepSelfref hp hcur hnext hc =>
    simp only [exec, execDecStepSelfref] at h
    split at h
    · cases h
      exact .raise _ _ _
    · next first rest hprev =>
      refine blockStep_of_chunk hp hcur hnext ?_ h
      rw [refChunk, State.dictList_length, if_neg (by omega), if_pos hc, hprev]
      rfl
  | decStepUndef _ _ _ _ =>
    cases h
    exact .raise _ _ _

/-- A step with a block operation is a `BlockStep` from the state whose turn is used up. -/
theorem blockStep_of_fetchBlock {i : Instr} {f : Fetch} {s t : State} (hf : fetchBlock s = some (.ok f))
    (hd : decode f = .ok i) (h : exec i s.popTurn = .next t) : BlockStep s.popTurn t :=
  blockStep_of_exec (selected_of_fetchBlock ((fetchBlock_popTurn s).trans hf) hd) h

end Sys2Proof.Machine
end

section
/-! PROOFS of the family 10_state.md, second part: the invariant of 10_state.md R28 is kept by every step. -/

namespace Sys2Proof.Machine

/-! ### The memories and the record -/

/-- Where OUT, CODES and DICT list nothing, only IN and N are bounded. -/
theorem spaceInv_of_forgotten {t : State} (hwf : Memory.wf t.inMem) (hbelow : Memory.below t.inMem t.inMax.toNat)
    (hout : t.outMem = []) (hcodes : t.codes = []) (hdict : t.dict = []) (hn : t.n.toNat ≤ t.nMax) : SpaceInv t where
  in_wf := hwf
  in_below := hbelow
  out_wf := hout ▸ Memory.wf_nil
  out_below := hout ▸ Memory.below_nil _
  codes_wf := hcodes ▸ Memory.wf_nil
  codes_below := hcodes ▸ Memory.below_nil _
  dict_wf := hdict ▸ Memory.wf_nil
  dict_below := hdict ▸ Memory.below_nil _
  n_le := hn

/-- CODES has room for the codes of a step, also where there is none. -/
theorem SpaceInv.room {s : State} (h : SpaceInv s) {new : List Code}
    (hroom : new ≠ [] → s.n.toNat + new.length ≤ s.nMax) : s.n.toNat + new.length ≤ s.nMax := by
  by_cases hnil : new = []
  · rw [hnil]
    exact h.n_le
  · exact hroom hnil

theorem SpaceInv.unpackBytes {s : State} (h : SpaceInv s) (k : Nat) {new : List Code}
    (hroom : s.n.toNat + new.length ≤ s.nMax) : SpaceInv (s.unpackBytes k new) :=
  { h with
    codes_wf := Memory.wf_writeAll h.codes_wf _ _
    codes_below := Memory.below_writeAll h.codes_below _ hroom
    n_le := by
      have := nMax_lt s
      show (s.n + BitVec.ofNat 32 new.length).toNat ≤ s.nMax
      rw [word_add s.n _ (by omega)]
      exact hroom }

theorem SpaceInv.appendOut {s : State} (h : SpaceInv s) (chunk : Str)
    (hfit : s.olen.toNat + chunk.length ≤ s.outMax.toNat) : SpaceInv (s.appendOut chunk) :=
  { h with
    out_wf := Memory.wf_writeAll h.out_wf _ _
    out_below := Memory.below_writeAll h.out_below _ hfit }

theorem SpaceInv.grow {s : State} (h : SpaceInv s) (first : Byte) (chunk : Str) (hnext : s.next.toNat < 4096) :
    SpaceInv (s.grow first chunk) :=
  { h with
    dict_wf := Memory.wf_write h.dict_wf _ _
    dict_below := Memory.below_write h.dict_below hnext _ }

theorem SpaceInv.beginGeneration {s : State} (h : SpaceInv s) (c : Byte) (hfit : s.olen.toNat + 1 ≤ s.outMax.toNat) :
    SpaceInv (s.beginGeneration c) :=
  { h.appendOut [c] hfit with
    dict_wf := Memory.wf_write (State.buildBase_wf h.dict_wf) 256 [c]
    dict_below := Memory.below_write (State.buildBase_below h.dict_below) (show 256 < Config.dictCap by decide) [c] }

theorem recordInv_of_zero {t : State} (p : Phase) (hp : t.phase = p) (hne : p ≠ .error) (herr : t.err = 0)
    (hpos : t.errPos = 0) (hval : t.errVal = 0) : RecordInv t :=
  (recordInv_clear (hp ▸ hne)).2 ⟨herr, hpos, hval⟩

/-- The record stays zero in a step between states outside ERROR. -/
theorem recordInv_of_unchanged {s t : State} {p q : Phase} (h : RecordInv s) (hs : s.phase = p) (hp : p ≠ .error)
    (ht : t.phase = q) (hq : q ≠ .error) (herr : t.err = s.err) (hpos : t.errPos = s.errPos)
    (hval : t.errVal = s.errVal) : RecordInv t := by
  obtain ⟨e, epos, eval⟩ := (recordInv_clear (hs ▸ hp)).1 h
  exact recordInv_of_zero q ht hq (herr.trans e) (hpos.trans epos) (hval.trans eval)

/-! ### Error entry, START, ABORT, block reset -/

/-- The error entry with a code of CODES as its value (60_exceptions.md R135, R136). -/
theorem inv_raise {s : State} (h : SpaceInv s) (kind : ErrorKind) (pos : Word) (c : Code) :
    Inv (s.raise kind pos (c.setWidth 32)) where
  space := spaceInv_of_forgotten h.in_wf h.in_below rfl rfl rfl h.n_le
  record := by
    have hval : (c.setWidth 32 : Word).toNat < 65536 := by
      have := c.isLt
      rw [BitVec.toNat_setWidth]
      omega
    have hcode : 1 ≤ kind.code.toNat ∧ kind.code.toNat ≤ 4 := by cases kind <;> decide
    exact (recordInv_error rfl).2 ⟨hcode.1, hcode.2, hval⟩
  phase := phaseInv_error rfl

theorem inv_abortRun {s : State} (h : SpaceInv s) : Inv (abortRun s) where
  space := spaceInv_of_forgotten h.in_wf h.in_below rfl rfl rfl (Nat.zero_le _)
  record := recordInv_of_zero .idle rfl (by decide) rfl rfl rfl
  phase := (phaseInv_idle rfl).2 ⟨rfl, rfl, rfl, rfl, rfl, rfl⟩

theorem inv_blockReset (s : State) : Inv (blockReset s) where
  space := spaceInv_of_forgotten Memory.wf_nil (Memory.below_nil _) rfl rfl rfl (Nat.zero_le _)
  record := recordInv_of_zero .idle rfl (by decide) rfl rfl rfl
  phase := (phaseInv_idle rfl).2 ⟨rfl, rfl, rfl, rfl, rfl, rfl⟩

/-- Settles O37: the reset memories are empty and the run registers 0. -/
theorem resetMeetsTheInvariant : Obligations.ResetMeetsTheInvariant := by
  have hreset (inMax outMax : Word) : Inv (State.resetWith inMax outMax) :=
    { space := spaceInv_of_forgotten Memory.wf_nil (Memory.below_nil _) rfl rfl rfl (Nat.zero_le _)
      record := recordInv_of_zero .idle rfl (by decide) rfl rfl rfl
      phase := (phaseInv_idle rfl).2 ⟨rfl, rfl, rfl, rfl, rfl, rfl⟩ }
  exact ⟨hreset, hreset _ _⟩

theorem inv_refuseRun {s : State} (h : SpaceInv s) : Inv (refuseRun s) where
  space := spaceInv_of_forgotten h.in_wf h.in_below rfl rfl rfl (Nat.zero_le _)
  record := (recordInv_error rfl).2 ⟨show 1 ≤ 4 by decide, show 4 ≤ 4 by decide, show 0 < 65536 by decide⟩
  phase := phaseInv_error rfl

/-- An accepted START leaves nothing unpacked (42_host.md R122). -/
theorem inv_startedRun {s : State} (h : SpaceInv s) (hlen : s.inLen.toNat ≤ s.inMax.toNat) :
    Inv { s.clearRun.forget with phase := .unpack } where
  space := spaceInv_of_forgotten h.in_wf h.in_below rfl rfl rfl (Nat.zero_le _)
  record := recordInv_of_zero .unpack rfl (by decide) rfl rfl rfl
  phase := (phaseInv_unpack rfl).2
    { inLen_le := hlen
      rp_le := Nat.zero_le _
      rp_mod := fun hne => absurd rfl hne
      n := show 0 = codeCount 0 from rfl
      cur := rfl
      olen := rfl
      dictResets := rfl
      tailDropped := rfl
      codes := rfl }

theorem inv_startRun {s : State} (h : Inv s) : Inv (startRun s) := by
  rcases startRun_cases s with ⟨_, e⟩ | ⟨_, _, e⟩ | ⟨_, hlen, e⟩ <;> rw [e]
  · exact h
  · exact inv_refuseRun h.space
  · exact inv_startedRun h.space hlen

/-! ### Host writes of the input, which happen only while no run needs it -/

/-- Outside a run the invariant of a phase does not speak of IN and IN_LEN. -/
theorem phaseInv_of_not_busy {s : State} (h : PhaseInv s) (hb : s.phase.busy = false) (inMem : Memory Byte)
    (inLen : Word) : PhaseInv { s with inMem := inMem, inLen := inLen } := by
  cases hp : s.phase <;> simp only [hp, Phase.busy, Bool.true_eq_false] at hb
  · rw [phaseInv_idle hp] at h
    exact (phaseInv_idle rfl).2 { h with }
  · rw [phaseInv_done hp] at h
    exact (phaseInv_done rfl).2 { h with }
  · exact phaseInv_error rfl

theorem inv_writeInLen {s : State} (h : Inv s) (v : Word) : Inv (writeInLen v s) := by
  rcases writeInLen_cases v s with ⟨_, e⟩ | ⟨hb, e⟩ <;> rw [e]
  · exact h
  · exact ⟨{ h.space with }, h.record, phaseInv_of_not_busy h.phase hb s.inMem v⟩

theorem inv_writeIn {s : State} (h : Inv s) (hb : s.phase.busy = false) {a : Nat} (ha : a < s.inMax.toNat) (b : Byte) :
    Inv { s with inMem := Memory.write s.inMem a b } where
  space :=
    { h.space with
      in_wf := Memory.wf_write h.space.in_wf _ _
      in_below := Memory.below_write h.space.in_below ha _ }
  record := h.record
  phase := phaseInv_of_not_busy h.phase hb _ s.inLen

/-- Every operation of the host keeps the invariant. -/
theorem inv_execHost {i : Instr} {s t : State} (hinv : Inv s) (hi : i.isHost = true) (h : exec i s = .next t) :
    Inv t := by
  rcases execHost_cases hi h with ⟨_, rfl⟩ | ⟨_, rfl⟩ | ⟨_, _, ⟨v, _, rfl⟩ | ⟨a, b, _, hb, ha, rfl⟩ | e⟩
  · exact inv_abortRun hinv.space
  · exact inv_startRun hinv
  · exact inv_writeInLen hinv v
  · exact inv_writeIn hinv hb ha b
  · rw [e]
    exact inv_agents hinv t.rdata s.hostProg s.turns t.draws

/-! ### The BitUnpacker -/

theorem State.codeList_unpackBytes {s : State} (k : Nat) {new : List Code} (hn : s.n.toNat + new.length < 2 ^ 32) :
    (s.unpackBytes k new).codeList = s.codeList ++ new := by
  have hcount : (s.unpackBytes k new).n.toNat = s.n.toNat + new.length := word_add s.n _ hn
  have hcode (j : Nat) : (s.unpackBytes k new).code j =
      if s.n.toNat ≤ j ∧ j < s.n.toNat + new.length then new[j - s.n.toNat]?.getD (Config.freeCode s.epoch j)
      else s.code j := by
    simp only [State.code, State.unpackBytes, Memory.read_writeAll]
    split <;> rfl
  rw [State.codeList, hcount, List.range_add, List.map_append, List.map_map]
  congr 1
  · refine List.map_congr_left fun j hj => ?_
    rw [hcode, if_neg (by have := List.mem_range.1 hj; omega)]
  · refine List.ext_getElem (by simp) fun j _ hj => ?_
    simp [hcode, hj]

/-- Whole chunks are counted apart from what comes after them. -/
theorem codeCount_add {r : Nat} (h : r % 3 = 0) (k : Nat) : codeCount (r + k) = codeCount r + codeCount k := by
  have hdiv : (r + k) / 3 = r / 3 + k / 3 := by omega
  have hmod : (r + k) % 3 = k % 3 := by omega
  simp only [codeCount, hdiv, hmod, h]
  rw [if_neg (show ¬ 0 = 2 by decide)]
  omega

/-- While bytes are left, whole chunks were consumed (40_unpacker.md R85). -/
theorem UnpackInv.rp_mod_eq_zero {s : State} (h : UnpackInv s) (hleft : s.rp.toNat < s.inLen.toNat) :
    s.rp.toNat % 3 = 0 := by
  by_contra hne
  have := congrArg BitVec.toNat (h.rp_mod hne)
  omega

/-- The codes of the whole input are those stored, then those of the bytes left (R85). -/
theorem UnpackInv.refUnpack_input {s : State} (h : UnpackInv s) (hmod : s.rp.toNat % 3 = 0) :
    refUnpack s.input = s.codeList ++ refUnpack (s.inBytes s.rp.toNat (s.inLen.toNat - s.rp.toNat)) := by
  have hrp : 3 * (s.rp.toNat / 3) = s.rp.toNat := by omega
  obtain ⟨front, hfront, hsplit⟩ := refUnpack_split s.input (s.rp.toNat / 3) (by
    rw [State.input, State.inBytes_length, hrp]
    exact h.rp_le)
  have hn : s.n.toNat = front.length := by
    rw [h.n, hfront, codeCount, if_neg (by omega), Nat.add_zero]
  rw [hrp, State.input, State.inBytes_drop, Nat.zero_add] at hsplit
  have hcodes : s.codeList = front := by
    rw [h.codes, State.input, hsplit, hn, List.take_left]
  rw [hcodes]
  exact hsplit

/-- A step that consumes `k` bytes and stores their codes goes on with the unpacking (R84, R87, R88). -/
theorem UnpackInv.consume {s : State} (h : UnpackInv s) {k : Nat} {new : List Code} (hk : 1 ≤ k ∧ k ≤ 3)
    (hleft : s.rp.toNat + k ≤ s.inLen.toNat) (hend : k < 3 → s.rp.toNat + k = s.inLen.toNat)
    (hcount : new.length = codeCount k) (hroom : s.n.toNat + new.length < 2 ^ 32)
    (hnew : refUnpack (s.inBytes s.rp.toNat (s.inLen.toNat - s.rp.toNat)) =
      new ++ refUnpack (s.inBytes (s.rp.toNat + k) (s.inLen.toNat - (s.rp.toNat + k)))) :
    UnpackInv (s.unpackBytes k new) := by
  have hmod := h.rp_mod_eq_zero (by omega)
  have hrp : (s.unpackBytes k new).rp.toNat = s.rp.toNat + k := word_add s.rp k (by omega)
  have hn : (s.unpackBytes k new).n.toNat = s.n.toNat + new.length := word_add s.n _ hroom
  refine ⟨h.inLen_le, ?rp_le, fun hne => ?rp_mod, ?n, h.cur, h.olen, h.dictResets, ?tailDropped, ?codes⟩
  case rp_le =>
    rw [hrp]
    exact hleft
  case rp_mod =>
    apply BitVec.eq_of_toNat_eq
    rw [hrp] at hne ⊢
    exact hend (by omega)
  case n => rw [hrp, codeCount_add hmod, ← h.n, ← hcount, hn]
  case tailDropped =>
    have htail : (s.rp.toNat + k) % 3 = 1 ↔ k = 1 := by omega
    rw [hrp]
    simp [State.unpackBytes, h.tailDropped, hmod, htail]
  case codes =>
    rw [State.codeList_unpackBytes k hroom, State.input_congr (s := s) (t := s.unpackBytes k new) rfl rfl rfl,
      h.refUnpack_input hmod, hnew, ← List.append_assoc, hn]
    exact (List.take_left' (by rw [List.length_append, State.codeList_length])).symm

/-! ### What the BitUnpacker leaves to the decoder -/

/-- `t` has the parameters, the input and the unpacked codes of `s`: no step after the BitUnpacker's changes them. -/
structure SameCodes (s t : State) : Prop where
  inLen : t.inLen = s.inLen
  inMax : t.inMax = s.inMax
  outMax : t.outMax = s.outMax
  rp : t.rp = s.rp
  n : t.n = s.n
  tailDropped : t.tailDropped = s.tailDropped
  codes : t.codes = s.codes
  epoch : t.epoch = s.epoch
  inMem : t.inMem = s.inMem
  inGen : t.inGen = s.inGen

theorem SameCodes.codeList {s t : State} (same : SameCodes s t) : t.codeList = s.codeList :=
  State.codeList_congr same.codes same.epoch same.n

theorem SameCodes.input {s t : State} (same : SameCodes s t) : t.input = s.input :=
  State.input_congr same.inMem same.inGen same.inLen

theorem SameCodes.code {s t : State} (same : SameCodes s t) (k : Nat) : t.code k = s.code k := by
  simp only [State.code, same.codes, same.epoch]

/-- UNPACK_END leaves what DEC_INIT expects (40_unpacker.md R86, R89). -/
theorem UnpackInv.initInv {s : State} (h : UnpackInv s) (hleft : s.rp = s.inLen) :
    InitInv { s with phase := .decInit } where
  inLen_le := h.inLen_le
  rp := hleft
  n := hleft ▸ h.n
  tailDropped := hleft ▸ h.tailDropped
  codes := by
    have hlen : (refUnpack s.input).length = s.n.toNat := by
      rw [refUnpack_length, State.input, State.inBytes_length, h.n, hleft]
    have same : SameCodes s { s with phase := .decInit } := ⟨rfl, rfl, rfl, rfl, rfl, rfl, rfl, rfl, rfl, rfl⟩
    rw [same.codeList, same.input, h.codes, ← hlen, List.take_length]
  olen_outMax := by simp [h.olen]
  olen_cur := by simp [h.olen]
  listed := fun a ha => by simp [h.olen] at ha
  cur_resets := by simp [h.cur, h.dictResets]
  cur_n := by
    by_cases hn : s.n = 0
    · exact .inr ⟨hn, h.cur⟩
    · refine .inl ?_
      have : s.n.toNat ≠ 0 := fun e => hn (BitVec.eq_of_toNat_eq e)
      simp only [h.cur]
      exact Nat.pos_of_ne_zero this
  decoded := fun rest _ => State.decodesOnFrom_start h.cur h.olen rest

/-! ### What a decoder step leaves to the next -/

theorem SameCodes.decodeInv {s t : State} (same : SameCodes s t) (h : DecodeInv s)
    (holen : t.olen.toNat ≤ t.outMax.toNat) (hcur : t.olen.toNat ≤ Config.maxEntryLen * t.cur.toNat)
    (hlisted : t.outputListed) : DecodeInv t where
  inLen_le := by
    rw [same.inLen, same.inMax]
    exact h.inLen_le
  rp := by
    rw [same.rp, same.inLen]
    exact h.rp
  n := by
    rw [same.n, same.inLen]
    exact h.n
  tailDropped := by
    rw [same.tailDropped, same.inLen]
    exact h.tailDropped
  codes := by
    rw [same.codeList, same.input]
    exact h.codes
  olen_outMax := holen
  olen_cur := hcur
  listed := hlisted

/-- `t` is `s` with one code consumed and `chunk` appended (41_decoder.md R110); nothing is said of DICT, NEXT and PREV. -/
structure Emitted (chunk : Str) (s t : State) : Prop extends SameCodes s t where
  cur : t.cur = s.cur + 1
  olen : t.olen = s.olen + BitVec.ofNat 32 chunk.length
  outMem : t.outMem = Memory.writeAll s.outMem s.olen.toNat chunk

theorem emitted_beginGeneration (c : Byte) (s : State) : Emitted [c] s (s.beginGeneration c) :=
  ⟨⟨rfl, rfl, rfl, rfl, rfl, rfl, rfl, rfl, rfl, rfl⟩, rfl, rfl, rfl⟩

theorem emitted_consume (first : Byte) (chunk : Str) (s : State) : Emitted chunk s (s.consume first chunk) :=
  ⟨⟨rfl, rfl, rfl, rfl, rfl, rfl, rfl, rfl, rfl, rfl⟩, rfl, rfl, rfl⟩

section
variable {s t : State} {chunk : Str} (e : Emitted chunk s t)
include e

theorem Emitted.cur_toNat (hcur : s.cur.toNat < s.n.toNat) : t.cur.toNat = s.cur.toNat + 1 := by
  have := s.n.isLt
  rw [e.cur, word_add_one s.cur (by omega)]

theorem Emitted.olen_toNat (hfit : s.olen.toNat + chunk.length ≤ s.outMax.toNat) :
    t.olen.toNat = s.olen.toNat + chunk.length := by
  have := s.outMax.isLt
  rw [e.olen, word_add s.olen _ (by omega)]

theorem Emitted.output (hfit : s.olen.toNat + chunk.length ≤ s.outMax.toNat) : t.output = s.output ++ chunk := by
  have := s.outMax.isLt
  rw [← State.output_append chunk (by omega)]
  simp only [State.output, e.olen, e.outMem, State.appendOut_olen, State.appendOut_outMem]

theorem Emitted.listed (h : s.outputListed) (hfit : s.olen.toNat + chunk.length ≤ s.outMax.toNat) :
    t.outputListed := by
  intro a ha
  rw [e.olen_toNat hfit] at ha
  rw [e.outMem, Memory.read_writeAll]
  split
  · rw [List.getElem?_eq_getElem (by omega)]
    rfl
  · exact h a (by omega)

theorem Emitted.decodeInv (h : DecodeInv s) (hcur : s.cur.toNat < s.n.toNat)
    (hfit : s.olen.toNat + chunk.length ≤ s.outMax.toNat) (hlen : chunk.length ≤ 3841) : DecodeInv t := by
  have hcurLen := h.olen_cur
  refine e.toSameCodes.decodeInv h ?_ ?_ (e.listed h.listed hfit)
  · rw [e.olen_toNat hfit, e.outMax]
    exact hfit
  · rw [e.olen_toNat hfit, e.cur_toNat hcur]
    simp only [Config.maxEntryLen] at hcurLen ⊢
    omega

/-- Where Decode of the code at CUR appends `chunk`, it goes on after the step from the generation that the code leaves. -/
theorem Emitted.decodesOnFrom {gen gen' : Option (List Str × Str)} {rest : List Code} (hcur : s.cur.toNat < s.n.toNat)
    (hfit : s.olen.toNat + chunk.length ≤ s.outMax.toNat)
    (h : s.DecodesOnFrom gen (s.code s.cur.toNat :: rest))
    (hstep : refDecodeFrom s.outMax.toNat gen s.cur.toNat s.output (s.code s.cur.toNat :: rest) =
      refDecodeFrom s.outMax.toNat gen' (s.cur.toNat + 1) (s.output ++ chunk) rest) : t.DecodesOnFrom gen' rest := by
  rw [State.DecodesOnFrom, e.codeList, e.outMax, e.cur_toNat hcur, e.output hfit, State.codeList_take_succ s _ hcur,
    List.append_assoc, List.singleton_append, ← hstep]
  exact h

end

/-! ### DEC_INIT -/

theorem State.dictList_beginGeneration (c : Byte) (s : State) : (s.beginGeneration c).dictList = refBase := by
  refine List.map_congr_left fun k hk => ?_
  have hk : k < 256 := List.mem_range.1 hk
  rw [State.slot, State.read_beginGeneration, if_neg (by omega), if_pos hk]
  rfl

/-- A literal as the first code begins a generation (41_decoder.md R97). -/
theorem InitInv.beginGeneration {s : State} (h : InitInv s) {c : Code} (hcur : s.cur.toNat < s.n.toNat)
    (hcode : s.code s.cur.toNat = c) (hc : c.toNat < 256) (hfit : s.olen.toNat + 1 ≤ s.outMax.toNat) :
    LoopInv (s.beginGeneration (c.setWidth 8)) := by
  have e := emitted_beginGeneration (c.setWidth 8) s
  have hcur' := e.cur_toNat hcur
  have hlast : (s.beginGeneration (c.setWidth 8)).code (s.cur.toNat + 1 - 1) = c :=
    (e.code s.cur.toNat).trans hcode
  have hbase (k : Nat) (hk : k < 256) :
      Memory.read (s.beginGeneration (c.setWidth 8)).dict k = some [BitVec.ofNat 8 k] := by
    rw [State.read_beginGeneration, if_neg (by omega), if_pos hk]
  have hnext : (s.beginGeneration (c.setWidth 8)).next.toNat = 256 := rfl
  refine ⟨e.decodeInv h.toDecodeInv hcur hfit (by simp), hnext.ge, by omega, ?cur_ge, ?cur_le, ?cur_next, hbase,
    fun k hk => ⟨_, hbase k (hnext ▸ hk), by simp, by simp⟩, List.cons_ne_nil _ _, ?prev_len, ?last_defined, ?prev_last,
    fun rest => ?decoded⟩
  case cur_ge => omega
  case cur_le =>
    rw [hcur', e.n]
    exact hcur
  case cur_next =>
    have hresets := h.cur_resets
    rw [hcur', hnext]
    show s.cur.toNat + 1 + 255 = 3841 * s.dictResets.toNat + 256
    omega
  case prev_len =>
    rw [hnext]
    exact Nat.le_refl 1
  case last_defined =>
    rw [hcur', hlast, hnext]
    exact hc
  case prev_last =>
    rw [hcur', hlast, hbase _ hc]
    exact congrArg (fun b => some [b]) (BitVec.eq_of_toNat_eq (by simp))
  case decoded =>
    rw [State.dictList_beginGeneration]
    refine e.decodesOnFrom hcur hfit (h.decoded _ (List.cons_ne_nil _ _)) ?_
    rw [hcode]
    refine refDecodeFrom_literal rest hc ?_
    rw [State.output_length]
    exact hfit

/-! ### DEC_LOOP -/

/-- The chunk of a code is the string of its slot, or PREV extended for the slot about to be defined (R100, R101). -/
theorem LoopInv.chunk_cases {s : State} (h : LoopInv s) {c : Code} {chunk : Str}
    (hchunk : refChunk s.dictList s.prev c = some chunk) :
    (c.toNat < s.next.toNat ∧ Memory.read s.dict c.toNat = some chunk) ∨
    (c.toNat = s.next.toNat ∧ chunk = s.prev ++ s.prev.take 1) := by
  rw [refChunk, State.dictList_length] at hchunk
  split at hchunk
  · next hc =>
    obtain ⟨str, hread, _⟩ := h.defined _ hc
    rw [State.dictList_get s _ hc, State.slot, hread] at hchunk
    exact .inl ⟨hc, hread.trans hchunk⟩
  · split at hchunk
    · next hc => exact .inr ⟨hc, (Option.some.inj hchunk).symm⟩
    · cases hchunk

/-- R111: a chunk is no longer than the entry that the step defines. -/
theorem LoopInv.chunk_length {s : State} (h : LoopInv s) {c : Code} {chunk : Str}
    (hchunk : refChunk s.dictList s.prev c = some chunk) : chunk.length ≤ s.next.toNat - 254 := by
  have hge := h.next_ge
  rcases h.chunk_cases hchunk with ⟨hc, hread⟩ | ⟨_, rfl⟩
  · obtain ⟨str, hread', _, hlen⟩ := h.defined _ hc
    obtain rfl : chunk = str := Option.some.inj (hread.symm.trans hread')
    omega
  · have hprev := h.prev_len
    rw [List.length_append, List.length_take]
    omega

/-- The step defines the slot of a self-referring code as its chunk, and keeps every other slot (R101, R105). -/
theorem LoopInv.read_chunk {s : State} (h : LoopInv s) {c : Code} {first : Byte} {rest : Str}
    (hchunk : refChunk s.dictList s.prev c = some (first :: rest)) :
    Memory.read (Memory.write s.dict s.next.toNat (s.prev ++ [first])) c.toNat = some (first :: rest) := by
  rw [Memory.read_write]
  rcases h.chunk_cases hchunk with ⟨hc, hread⟩ | ⟨hc, hself⟩
  · rw [if_neg (by omega), hread]
  · obtain ⟨b, tail, hprev⟩ := List.exists_cons_of_ne_nil h.prev_ne
    rw [hprev] at hself ⊢
    obtain ⟨rfl, -⟩ := List.cons.inj hself
    rw [if_pos hc, hself]
    rfl

/-- A main-loop step whose chunk fits keeps the invariant of DEC_LOOP (R105, R110, R111). -/
theorem LoopInv.consume {s : State} (h : LoopInv s) {first : Byte} {rest : Str} (hcur : s.cur.toNat < s.n.toNat)
    (hnext : s.next.toNat < 4096) (hchunk : refChunk s.dictList s.prev (s.code s.cur.toNat) = some (first :: rest))
    (hfit : s.olen.toNat + (first :: rest).length ≤ s.outMax.toNat) :
    LoopInv (s.consume first (first :: rest)) := by
  have e := emitted_consume first (first :: rest) s
  have hcur' := e.cur_toNat hcur
  have hge := h.next_ge
  have hnext' : (s.consume first (first :: rest)).next.toNat = s.next.toNat + 1 :=
    next_add_one s.next hnext
  have hlast : (s.consume first (first :: rest)).code (s.cur.toNat + 1 - 1) =
      s.code s.cur.toNat := e.code s.cur.toNat
  have hlen := h.chunk_length hchunk
  have hprev := h.prev_len
  have hprev' : (s.consume first (first :: rest)).prev = first :: rest := rfl
  have hdict (k : Nat) : Memory.read (s.consume first (first :: rest)).dict k =
      if k = s.next.toNat then some (s.prev ++ [first]) else Memory.read s.dict k := Memory.read_write _ _ _ _
  refine ⟨e.decodeInv h.toDecodeInv hcur hfit (by omega), ?next_ge, ?next_le, ?cur_ge, ?cur_le, ?cur_next,
    fun k hk => ?base, fun k hk => ?defined, List.cons_ne_nil _ _, ?prev_len, ?last_defined, ?prev_last,
    fun codes => ?decoded⟩
  case next_ge => omega
  case next_le => omega
  case cur_ge => omega
  case cur_le =>
    rw [hcur', e.n]
    exact hcur
  case cur_next =>
    have hcn := h.cur_next
    rw [hcur', hnext']
    show s.cur.toNat + 1 + 255 = 3841 * s.dictResets.toNat + (s.next.toNat + 1)
    omega
  case base =>
    rw [hdict, if_neg (by omega)]
    exact h.base k hk
  case defined =>
    rw [hnext'] at hk
    rw [hdict]
    by_cases hkn : k = s.next.toNat
    · exact ⟨_, if_pos hkn, by simp, by rw [List.length_append, List.length_singleton]; omega⟩
    · rw [if_neg hkn]
      exact h.defined k (by omega)
  case prev_len =>
    rw [hprev', hnext']
    exact hlen.trans (by omega)
  case last_defined =>
    rw [hcur', hlast, hnext']
    rcases h.chunk_cases hchunk with ⟨hc, _⟩ | ⟨hc, _⟩ <;> omega
  case prev_last =>
    rw [hcur', hlast]
    show Memory.read (Memory.write s.dict s.next.toNat (s.prev ++ [first])) _ = some (first :: rest)
    exact h.read_chunk hchunk
  case decoded =>
    have hgrown : (s.consume first (first :: rest)).dictList =
        s.dictList ++ [s.prev ++ [first]] := State.dictList_grow (s := s.appendOut (first :: rest)) _ _ hnext
    rw [hgrown]
    refine e.decodesOnFrom hcur hfit (h.decoded _) (refDecodeFrom_consume codes ?_ hchunk ?_)
    · rw [State.dictList_length]
      exact hnext
    · rw [State.output_length]
      exact hfit

/-- DEC_DICT_RESET counts a whole generation (R103, R112). -/
theorem LoopInv.dictReset {s : State} (h : LoopInv s) (hcur : s.cur.toNat < s.n.toNat) (hnext : s.next = 4096) :
    InitInv { s with dictResets := s.dictResets + 1, phase := .decInit } := by
  have hfull : s.next.toNat = 4096 := congrArg BitVec.toNat hnext
  have hcn := h.cur_next
  have hlt := s.cur.isLt
  have same : SameCodes s { s with dictResets := s.dictResets + 1, phase := .decInit } :=
    ⟨rfl, rfl, rfl, rfl, rfl, rfl, rfl, rfl, rfl, rfl⟩
  refine ⟨same.decodeInv h.toDecodeInv h.olen_outMax h.olen_cur h.listed, ?_, .inl hcur, fun rest hrest => ?_⟩
  · show s.cur.toNat = 3841 * (s.dictResets + 1).toNat
    rw [word_add_one s.dictResets (by omega)]
    omega
  · have hlen : s.dictList.length = Config.dictCap := (State.dictList_length s).trans hfull
    refine State.decodesOnFrom_congr ?_ same.codeList rfl rfl rfl
    exact (h.decoded rest).trans (refDecodeFrom_full rest hlen hrest)

/-- DEC_DONE comes after the last code (R104, R112). -/
theorem LoopInv.done {s : State} (h : LoopInv s) (hcur : s.cur = s.n) : DoneInv { s with phase := .done } where
  n_ge := hcur ▸ h.cur_ge
  olen_outMax := h.olen_outMax
  listed := h.listed
  dictResets := by
    have hcn := h.cur_next
    have hge := h.next_ge
    have hle := h.next_le
    show s.dictResets.toNat = (s.n.toNat - 1) / 3841
    rw [hcur] at hcn
    omega

/-! ### Every step -/

theorem inv_blockStep {s t : State} (h : Inv s) (hstep : BlockStep s t) : Inv t := by
  have hphase := h.phase
  cases hstep with
  | unpack k new hp hk hleft hend hcount hroom hnew =>
    have hroom' := h.space.room hroom
    have := nMax_lt s
    exact
      { space := h.space.unpackBytes k hroom'
        record := recordInv_of_unchanged h.record hp (by decide) hp (by decide) rfl rfl rfl
        phase := (phaseInv_unpack (s := s.unpackBytes k new) hp).2
          (((phaseInv_unpack hp).1 hphase).consume hk hleft hend hcount (by omega) hnew) }
  | unpackEnd hp hleft =>
    exact
      { space := { h.space with }
        record := recordInv_of_unchanged (q := .decInit) h.record hp (by decide) rfl (by decide) rfl rfl rfl
        phase := (phaseInv_decInit rfl).2 (((phaseInv_unpack hp).1 hphase).initInv hleft) }
  | decInit hp hcur hc hfit =>
    exact
      { space := h.space.beginGeneration _ hfit
        record := recordInv_of_unchanged (q := .decLoop) h.record hp (by decide) rfl (by decide) rfl rfl rfl
        phase := (phaseInv_decLoop rfl).2 (((phaseInv_decInit hp).1 hphase).beginGeneration hcur rfl hc hfit) }
  | decStep first rest hp hcur hnext hchunk hfit =>
    exact
      { space := (h.space.appendOut _ hfit).grow _ _ hnext
        record := recordInv_of_unchanged h.record hp (by decide) hp (by decide) rfl rfl rfl
        phase := (phaseInv_decLoop (s := s.consume first (first :: rest)) hp).2
          (((phaseInv_decLoop hp).1 hphase).consume hcur hnext hchunk hfit) }
  | decDictReset hp hcur hnext =>
    exact
      { space := { h.space with }
        record := recordInv_of_unchanged (q := .decInit) h.record hp (by decide) rfl (by decide) rfl rfl rfl
        phase := (phaseInv_decInit rfl).2 (((phaseInv_decLoop hp).1 hphase).dictReset hcur hnext) }
  | decDone hp hcur =>
    exact
      { space := { h.space with }
        record := recordInv_of_unchanged (q := .done) h.record hp (by decide) rfl (by decide) rfl rfl rfl
        phase := (phaseInv_done rfl).2 (((phaseInv_decLoop hp).1 hphase).done hcur) }
  | raise kind pos c => exact inv_raise h.space kind pos c

theorem inv_popTurn {s : State} (h : Inv s) : Inv s.popTurn := inv_agents h s.rdata s.hostProg s.turns.tail s.draws

theorem inv_advance {s : State} (h : Inv s) : Inv s.advance := by
  rw [advance_eq]
  exact inv_agents h s.rdata s.advance.hostProg s.turns.tail s.draws

/-- Settles O38: block reset, the host's operations and the block's each keep the invariant. -/
theorem stepKeepsTheInvariant : Obligations.StepKeepsTheInvariant := by
  intro s t hinv hstep
  rcases step_cases hstep with ⟨_, rfl⟩ | ⟨_, rfl⟩ | ⟨i, _, hexec, hi, _⟩ | ⟨f, i, _, hexec, _, _, _, hadv, hf, hd⟩
  · exact inv_blockReset s.popTurn
  · exact inv_popTurn hinv
  · exact inv_execHost (inv_advance hinv) hi hexec
  · rw [hadv] at hexec
    exact inv_blockStep (inv_popTurn hinv) (blockStep_of_fetchBlock hf hd hexec)

end Sys2Proof.Machine
end

section
/-! PROOFS of the family 10_state.md, third part: when STATUS.STATE and the registers change (R25 to R40), and how far the
registers of a run move (R16 to R23). -/

namespace Sys2Proof.Machine

/-! ### STATUS -/

/-- STATUS bit by bit (10_state.md R31). -/
theorem State.status_getLsbD (s : State) {i : Nat} (hi : i < 32) :
    s.status.getLsbD i =
      (s.phase.code.getLsbD i || (decide (i = 2) && s.tailDropped) || (decide (4 ≤ i) && s.err.getLsbD (i - 4))) := by
  have htail : ((if s.tailDropped then 1#32 else 0#32) <<< 2).getLsbD i = (decide (i = 2) && s.tailDropped) := by
    cases s.tailDropped
    · simp
    · simp only [if_true, BitVec.getLsbD_shiftLeft, BitVec.getLsbD_one, Bool.and_true, hi, decide_true, Bool.true_and]
      grind
  have herr : (s.err.setWidth 32 <<< 4).getLsbD i = (decide (4 ≤ i) && s.err.getLsbD (i - 4)) := by
    simp only [BitVec.getLsbD_shiftLeft, BitVec.getLsbD_setWidth, hi, decide_true, Bool.true_and]
    grind
  simp only [State.status, BitVec.getLsbD_or, BitVec.getLsbD_setWidth, hi, decide_true, Bool.true_and, htail, herr]

/-- Settles O25: each field is read off the bits of STATUS. -/
theorem statusFields : Obligations.StatusFields := by
  intro s
  have hcode (i : Nat) (hi : 2 ≤ i) : s.phase.code.getLsbD i = false := BitVec.getLsbD_of_ge _ _ hi
  refine ⟨?state, ?tail, ?zero, ?err, ?high⟩
  case state =>
    have hfield : s.status.extractLsb' 0 2 = s.phase.code := by
      refine BitVec.eq_of_getLsbD_eq fun i hi => ?_
      rw [BitVec.getLsbD_extractLsb', Nat.zero_add, s.status_getLsbD (by omega)]
      simp [hi, show i ≠ 2 by omega, show ¬ 4 ≤ i by omega]
    rw [hfield]
    cases s.phase <;> rfl
  case tail =>
    rw [s.status_getLsbD (by decide), hcode 2 (Nat.le_refl 2)]
    simp
  case zero =>
    rw [s.status_getLsbD (by decide), hcode 3 (by decide)]
    simp
  case err =>
    refine BitVec.eq_of_getLsbD_eq fun i hi => ?_
    rw [BitVec.getLsbD_extractLsb', s.status_getLsbD (by omega), hcode _ (by omega)]
    simp [hi, show 4 + i ≠ 2 by omega]
  case high =>
    refine BitVec.eq_of_getLsbD_eq fun i hi => ?_
    rw [BitVec.getLsbD_extractLsb', s.status_getLsbD (by omega), hcode _ (by omega),
      BitVec.getLsbD_of_ge s.err (8 + i - 4) (by omega)]
    simp [show 8 + i ≠ 2 by omega]

/-! ### Block reset -/

theorem step_of_blockReset {s : State} (h : s.turns.head? = some .blockReset) :
    step s = .next (blockReset s.popTurn) := by
  simp only [step, mover_blockReset h]

/-- Settles O35: after block reset the machine is an IDLE state of the invariant, whose record and run registers are 0, and
IN_LEN is 0 too. -/
theorem blockResetValues : Obligations.BlockResetValues := by
  intro t ht
  obtain ⟨hinv, hphase, hinLen⟩ : Inv t ∧ t.phase = .idle ∧ t.inLen = 0 := by
    rcases ht with ⟨inMax, outMax, rfl⟩ | ⟨s, hs, hstep⟩
    · exact ⟨resetMeetsTheInvariant.1 inMax outMax, rfl, rfl⟩
    · rw [step_of_blockReset hs] at hstep
      cases hstep
      exact ⟨inv_blockReset _, rfl, rfl⟩
  obtain ⟨herr, hpos, hval⟩ := (recordInv_clear (by simp [hphase])).1 hinv.record
  obtain ⟨hrp, hn, hcur, holen, hresets, htail⟩ := (phaseInv_idle hphase).1 hinv.phase
  refine ⟨hphase, hrp, hcur, hn, holen, htail, herr, hpos, hval, hresets, hinLen, ?_⟩
  simp [State.regRead, State.status, State.outLen, Phase.code, hphase, hn, htail, herr, hpos, hval, hresets, hinLen]

/-! ### Which steps change STATUS.STATE -/

theorem advance_inLen (s : State) : s.advance.inLen = s.inLen := by rw [advance_eq]

theorem advance_inMax (s : State) : s.advance.inMax = s.inMax := by rw [advance_eq]

theorem advance_outMax (s : State) : s.advance.outMax = s.outMax := by rw [advance_eq]

theorem advance_inMem (s : State) : s.advance.inMem = s.inMem := by rw [advance_eq]

theorem advance_tailDropped (s : State) : s.advance.tailDropped = s.tailDropped := by rw [advance_eq]

theorem advance_dictResets (s : State) : s.advance.dictResets = s.dictResets := by rw [advance_eq]

theorem writeInLen_phase (v : Word) (s : State) : (writeInLen v s).phase = s.phase := by
  rcases writeInLen_cases v s with ⟨_, e⟩ | ⟨_, e⟩ <;> rw [e]

/-- In the three phases of a run STATUS.STATE reads BUSY. -/
theorem Phase.code_of_busy {p : Phase} (h : p.busy = true) : p.code = 1#2 := by
  cases p <;> simp_all [Phase.busy, Phase.code]

/-- A host operation that changes PHASE is ABORT or a START outside a run (42_host.md R122, R123). -/
theorem execHost_phase {i : Instr} {s t : State} (hi : i.isHost = true) (h : exec i s = .next t) :
    t.phase = s.phase ∨ (i.isAbort = true ∧ t.phase = .idle) ∨
    (i.isStart = true ∧ s.phase.busy = false ∧
      ((s.inLen.toNat ≤ s.inMax.toNat ∧ t.phase = .unpack) ∨ (s.inMax.toNat < s.inLen.toNat ∧ t.phase = .error))) := by
  rcases execHost_cases hi h with ⟨ha, rfl⟩ | ⟨hs, rfl⟩ | ⟨_, _, ⟨v, _, rfl⟩ | ⟨a, b, _, _, _, rfl⟩ | e⟩
  · exact .inr (.inl ⟨ha, rfl⟩)
  · rcases startRun_cases s with ⟨_, e⟩ | ⟨hb, hlen, e⟩ | ⟨hb, hlen, e⟩ <;> rw [e]
    · exact .inl rfl
    · exact .inr (.inr ⟨hs, hb, .inr ⟨hlen, rfl⟩⟩)
    · exact .inr (.inr ⟨hs, hb, .inl ⟨hlen, rfl⟩⟩)
  · exact .inl (writeInLen_phase v s)
  · exact .inl rfl
  · exact .inl (by rw [e])

/-- Settles O40: the phases an operation can end in, by the agent that runs it. -/
theorem stateFieldChangesOnlyAtItsEvents : Obligations.StateFieldChangesOnlyAtItsEvents := by
  intro s t hstep hne
  rcases step_cases hstep with ⟨hm, rfl⟩ | ⟨_, rfl⟩ | ⟨i, hop, hexec, hi, _⟩ |
    ⟨_, i, hop, hexec, hi, _, hbusy, _, _, _⟩
  · exact .inl ⟨hm, rfl⟩
  · exact absurd rfl hne
  · have hphase := execHost_phase hi hexec
    rw [advance_phase, advance_inLen, advance_inMax] at hphase
    rcases hphase with e | ⟨ha, e⟩ | ⟨hs, hb, e⟩
    · exact absurd (congrArg Phase.code e) hne
    · exact .inr (.inl ⟨i, hop, ha, e⟩)
    · exact .inr (.inr (.inl ⟨i, hop, hs, hb, e⟩))
  · have hcode := Phase.code_of_busy hbusy
    have hphase := (execBlock_frame hi hexec).phase
    rw [advance_phase] at hphase
    rcases hphase with e | e | e | e | ⟨e, rfl⟩
    · exact .inr (.inr (.inr (.inr ⟨i, hop, hi, hbusy, e⟩)))
    · exact absurd (congrArg Phase.code e) hne
    · exact absurd (by rw [e, hcode]; rfl) hne
    · exact absurd (by rw [e, hcode]; rfl) hne
    · exact .inr (.inr (.inr (.inl ⟨hop, e⟩)))

/-! ### Which operations write the registers a run keeps -/

/-- Of the host's operations only the commands clear TAIL_DROPPED and DICT_RESETS; the input is written outside a run only,
and the parameters never (10_state.md R25, R27, R32, R38; 20_memory.md R45). -/
theorem execHost_registers {i : Instr} {s t : State} (hi : i.isHost = true) (h : exec i s = .next t) :
    ((t.tailDropped = s.tailDropped ∧ t.dictResets = s.dictResets) ∨
      (t.tailDropped = false ∧ t.dictResets = 0 ∧ (i.isStart = true ∨ i.isAbort = true))) ∧
    (t.inLen = s.inLen ∨ (s.phase.busy = false ∧ (i = .hostWrInLen t.inLen ∨ i = .hostWr32 0x08 t.inLen))) ∧
    (t.inMem = s.inMem ∨ (s.phase.busy = false ∧ ∃ a b, i = .hostWrin a b)) ∧
    t.inMax = s.inMax ∧ t.outMax = s.outMax := by
  rcases execHost_cases hi h with ⟨ha, rfl⟩ | ⟨hs, rfl⟩ | ⟨_, _, ⟨v, hv, rfl⟩ | ⟨a, b, hab, hb, _, rfl⟩ | e⟩
  · exact ⟨.inr ⟨rfl, rfl, .inr ha⟩, .inl rfl, .inl rfl, rfl, rfl⟩
  · rcases startRun_cases s with ⟨_, e⟩ | ⟨_, _, e⟩ | ⟨_, _, e⟩ <;> rw [e]
    · exact ⟨.inl ⟨rfl, rfl⟩, .inl rfl, .inl rfl, rfl, rfl⟩
    · exact ⟨.inr ⟨rfl, rfl, .inl hs⟩, .inl rfl, .inl rfl, rfl, rfl⟩
    · exact ⟨.inr ⟨rfl, rfl, .inl hs⟩, .inl rfl, .inl rfl, rfl, rfl⟩
  · rcases writeInLen_cases v s with ⟨_, e⟩ | ⟨hb, e⟩ <;> rw [e]
    · exact ⟨.inl ⟨rfl, rfl⟩, .inl rfl, .inl rfl, rfl, rfl⟩
    · exact ⟨.inl ⟨rfl, rfl⟩, .inr ⟨hb, hv⟩, .inl rfl, rfl, rfl⟩
  · exact ⟨.inl ⟨rfl, rfl⟩, .inl rfl, .inr ⟨hb, a, b, hab⟩, rfl, rfl⟩
  · rw [e]
    exact ⟨.inl ⟨rfl, rfl⟩, .inl rfl, .inl rfl, rfl, rfl⟩

/-- Settles O42: block reset, the host's operations and the block's, each by what it writes. -/
theorem registersWrittenOnlyByTheirOperations : Obligations.RegistersWrittenOnlyByTheirOperations := by
  intro s t hstep cleared
  rcases step_cases hstep with ⟨hm, rfl⟩ | ⟨_, rfl⟩ | ⟨i, hop, hexec, hi, _⟩ | ⟨_, i, hop, hexec, hi, _⟩
  · exact ⟨.inr (.inr ⟨rfl, .inl hm⟩), .inr (.inr ⟨rfl, .inl hm⟩), .inr (.inr hm), .inr (.inr hm), rfl, rfl⟩
  · exact ⟨.inl rfl, .inl rfl, .inl rfl, .inl rfl, rfl, rfl⟩
  · obtain ⟨hflags, hinLen, hinMem, hinMax, houtMax⟩ := execHost_registers hi hexec
    rw [advance_tailDropped, advance_dictResets] at hflags
    rw [advance_inLen, advance_phase] at hinLen
    rw [advance_inMem, advance_phase] at hinMem
    refine ⟨?_, ?_, ?_, ?_, hinMax.trans (advance_inMax s), houtMax.trans (advance_outMax s)⟩
    · exact hflags.imp And.left fun ⟨htail, _, hcommand⟩ => .inr ⟨htail, .inr ⟨i, hop, hcommand⟩⟩
    · exact hflags.imp And.right fun ⟨_, hresets, hcommand⟩ => .inr ⟨hresets, .inr ⟨i, hop, hcommand⟩⟩
    · exact hinLen.imp_right fun ⟨hb, hv⟩ => .inl ⟨hb, i, hop, hv⟩
    · exact hinMem.imp_right fun ⟨hb, a, b, hab⟩ => .inl ⟨hb, a, b, hab ▸ hop⟩
  · have frame := execBlock_frame hi hexec
    have htail := frame.tailDropped
    have hresets := frame.dictResets
    rw [advance_tailDropped] at htail
    rw [advance_dictResets] at hresets
    refine ⟨?_, ?_, .inl (frame.inLen.trans (advance_inLen s)), .inl (frame.inMem.trans (advance_inMem s)),
      frame.inMax.trans (advance_inMax s), frame.outMax.trans (advance_outMax s)⟩
    · exact htail.imp_right fun ⟨e, x, hx⟩ => .inl ⟨e, x, hx ▸ hop⟩
    · exact hresets.imp_right fun ⟨e, hx⟩ => .inl ⟨e, hx ▸ hop⟩

/-! ### How far the registers of a run move -/

/-- RP, N, OLEN and DICT_RESETS do not decrease, and CUR moves by at most one code (10_state.md R16 to R18, R23, R27). -/
structure RunAdvances (s t : State) : Prop where
  rp : s.rp.toNat ≤ t.rp.toNat
  n : s.n.toNat ≤ t.n.toNat
  olen : s.olen.toNat ≤ t.olen.toNat
  cur : t.cur = s.cur ∨ t.cur.toNat = s.cur.toNat + 1
  dictResets : s.dictResets.toNat ≤ t.dictResets.toNat

theorem runAdvances_of_unchanged {s t : State} (hrp : t.rp = s.rp) (hn : t.n = s.n) (holen : t.olen = s.olen)
    (hcur : t.cur = s.cur) (hresets : t.dictResets = s.dictResets) : RunAdvances s t :=
  ⟨by rw [hrp], by rw [hn], by rw [holen], .inl hcur, by rw [hresets]⟩

/-- Appending a chunk moves OLEN by its length and CUR by one. -/
theorem Emitted.runAdvances {s t : State} {chunk : Str} (e : Emitted chunk s t) (hcur : s.cur.toNat < s.n.toNat)
    (hfit : s.olen.toNat + chunk.length ≤ s.outMax.toNat) (hresets : t.dictResets = s.dictResets) :
    RunAdvances s t where
  rp := by rw [e.rp]
  n := by rw [e.n]
  olen := by
    rw [e.olen_toNat hfit]
    exact Nat.le_add_right _ _
  cur := .inr (e.cur_toNat hcur)
  dictResets := by rw [hresets]

/-- No register of a run wraps in a block step, since each is bounded in a state of the invariant. -/
theorem runAdvances_blockStep {s t : State} (h : Inv s) (hstep : BlockStep s t) (hbusy : t.phase.busy = true) :
    RunAdvances s t := by
  cases hstep with
  | unpack k new hp hk hleft hend hcount hroom hnew =>
    have := nMax_lt s
    have hroom' := h.space.room hroom
    refine ⟨?_, ?_, Nat.le_refl _, .inl rfl, Nat.le_refl _⟩
    · show _ ≤ (s.rp + BitVec.ofNat 32 k).toNat
      rw [word_add s.rp k (by omega)]
      exact Nat.le_add_right _ _
    · show _ ≤ (s.n + BitVec.ofNat 32 new.length).toNat
      rw [word_add s.n _ (by omega)]
      exact Nat.le_add_right _ _
  | unpackEnd hp hleft => exact runAdvances_of_unchanged rfl rfl rfl rfl rfl
  | decInit hp hcur hc hfit => exact (emitted_beginGeneration _ s).runAdvances hcur hfit rfl
  | decStep first rest hp hcur hnext hchunk hfit => exact (emitted_consume first _ s).runAdvances hcur hfit rfl
  | decDictReset hp hcur hnext =>
    have hcn := ((phaseInv_decLoop hp).1 h.phase).cur_next
    have := s.cur.isLt
    refine ⟨Nat.le_refl _, Nat.le_refl _, Nat.le_refl _, .inl rfl, ?_⟩
    show _ ≤ (s.dictResets + 1).toNat
    rw [word_add_one s.dictResets (by omega)]
    exact Nat.le_succ _
  | decDone hp hcur => cases hbusy
  | raise kind pos c => cases hbusy

/-- A host operation that stays in a run moves nothing (42_host.md R125). -/
theorem runAdvances_execHost {i : Instr} {s t : State} (hi : i.isHost = true) (h : exec i s = .next t)
    (hs : s.phase.busy = true) (ht : t.phase.busy = true) : RunAdvances s t := by
  rcases execHost_cases hi h with ⟨_, rfl⟩ | ⟨_, rfl⟩ | ⟨_, _, ⟨v, _, rfl⟩ | ⟨_, _, _, hb, _⟩ | e⟩
  · cases ht
  · rw [startRun, if_pos hs]
    exact runAdvances_of_unchanged rfl rfl rfl rfl rfl
  · rw [writeInLen, if_pos hs]
    exact runAdvances_of_unchanged rfl rfl rfl rfl rfl
  · rw [hs] at hb
    cases hb
  · rw [e]
    exact runAdvances_of_unchanged rfl rfl rfl rfl rfl

/-- Settles O44: by the agent that moves. -/
theorem runRegistersOnlyAdvance : Obligations.RunRegistersOnlyAdvance := by
  intro s t hinv hs ht hstep
  obtain ⟨hrp, hn, holen, hcur, hresets⟩ : RunAdvances s t := by
    rcases step_cases hstep with ⟨_, rfl⟩ | ⟨_, rfl⟩ | ⟨i, _, hexec, hi, _⟩ | ⟨f, i, _, hexec, _, _, _, hadv, hf, hd⟩
    · cases ht
    · exact runAdvances_of_unchanged rfl rfl rfl rfl rfl
    · have hmoved := runAdvances_execHost hi hexec (by rwa [advance_phase]) ht
      rw [advance_eq] at hmoved
      exact { hmoved with }
    · rw [hadv] at hexec
      have hmoved := runAdvances_blockStep (inv_popTurn hinv) (blockStep_of_fetchBlock hf hd hexec) ht
      exact { hmoved with }
  exact ⟨hrp, hn, holen, hcur, hresets⟩

end Sys2Proof.Machine
end

section
/-! PROOFS of the family 20_memory.md: what a run reads of IN (R47, R61), and the accesses outside a space (R52). -/

namespace Sys2Proof.Machine

/-! ### The input of a run -/

theorem advance_inGen (s : State) : s.advance.inGen = s.inGen := by rw [advance_eq]

/-- No operation of the host makes IN unspecified (20_memory.md R47). -/
theorem execHost_inGen {i : Instr} {s t : State} (hi : i.isHost = true) (h : exec i s = .next t) :
    t.inGen = s.inGen := by
  rcases execHost_cases hi h with ⟨_, rfl⟩ | ⟨_, rfl⟩ | ⟨_, _, ⟨v, _, rfl⟩ | ⟨_, _, _, _, _, rfl⟩ | e⟩
  · rfl
  · rcases startRun_cases s with ⟨_, e⟩ | ⟨_, _, e⟩ | ⟨_, _, e⟩ <;> rw [e] <;> rfl
  · rcases writeInLen_cases v s with ⟨_, e⟩ | ⟨_, e⟩ <;> rw [e]
  · rfl
  · rw [e]

/-- Only block reset makes IN unspecified (R47). -/
theorem step_inGen {s t : State} (hm : s.mover ≠ .blockReset) (h : step s = .next t) : t.inGen = s.inGen := by
  rcases step_cases h with ⟨hreset, _⟩ | ⟨_, rfl⟩ | ⟨i, _, hexec, hi, _⟩ | ⟨_, i, _, hexec, hi, _⟩
  · exact absurd hreset hm
  · rfl
  · exact (execHost_inGen hi hexec).trans (advance_inGen s)
  · exact (execBlock_frame hi hexec).inGen.trans (advance_inGen s)

theorem State.inByte_congr {s t : State} (hmem : t.inMem = s.inMem) (hgen : t.inGen = s.inGen) (a : Nat) :
    t.inByte a = s.inByte a := by
  simp only [State.inByte, hmem, hgen]

/-- Settles O43: IN_LEN and the listed bytes are written outside a run or by block reset only (O42), and an unlisted byte
is fixed by the count of block resets. -/
theorem inputIsFrozenWhileBusy : Obligations.InputIsFrozenWhileBusy := by
  intro s t hbusy hm hstep
  obtain ⟨_, _, hlen, hmem, _⟩ := registersWrittenOnlyByTheirOperations s t hstep
  have hinLen : t.inLen = s.inLen := by simpa [hbusy, hm] using hlen
  have hinMem : t.inMem = s.inMem := by simpa [hbusy, hm] using hmem
  exact ⟨hinLen, hinMem, State.inByte_congr hinMem (step_inGen hm hstep)⟩

/-! ### Accesses outside a space -/

/-- A main-loop step on a chunk that fits OUT stops where DICT has no slot NEXT (R52). -/
theorem consume_outsideSpace {chunk : Str} {s : State} (c : Code) (hne : chunk ≠ [])
    (hfit : s.olen.toNat + chunk.length ≤ s.outMax.toNat) (hnext : 4096 ≤ s.next.toNat) :
    appendThen chunk c s (defineEntry chunk c) = .fault .outsideSpace := by
  rcases appendThen_cases chunk c s (defineEntry chunk c) with ⟨hover, _⟩ | ⟨_, happend⟩
  · omega
  · rw [happend]
    rcases defineEntry_cases chunk c (s.appendOut chunk) with ⟨hnil, _⟩ | ⟨_, _, _, hslot, _⟩ | ⟨_, _, hfault⟩
    · exact absurd hnil hne
    · exact absurd hslot (Nat.not_lt.2 hnext)
    · exact hfault

theorem stepBlock_of_fetchBlock_error {s : State} {r : Fault} (h : fetchBlock s = some (.error r)) :
    stepBlock s = .fault r := by
  simp only [stepBlock, h]

/-- A read of CODES[CUR] at N_MAX or above stops (R52). -/
theorem fetchCode_outsideSpace {s : State} (atEnd : Fetch) (withCode : Code → Fetch) (hmax : s.nMax ≤ s.cur.toNat)
    (hcur : s.cur.toNat < s.n.toNat) : fetchCode s atEnd withCode = .error .outsideSpace := by
  rcases fetchCode_cases s atEnd withCode with ⟨hend, _⟩ | ⟨hgt, _⟩ | ⟨_, _, hfault⟩ | ⟨_, hroom, _⟩
  · exact absurd (congrArg BitVec.toNat hend) (Nat.ne_of_lt hcur)
  · omega
  · exact hfault
  · omega

/-- A read of IN at IN_MAX or above stops (R52). -/
theorem fetchStream_outsideSpace {s : State} (hrp : s.rp.toNat ≤ s.inLen.toNat)
    (hmax : s.inMax.toNat < s.rp.toNat + min 3 (s.inLen.toNat - s.rp.toNat)) :
    fetchStream s = .error .outsideSpace := by
  rcases fetchStream_cases s with ⟨hgt, _⟩ | ⟨_, _, hfault⟩ | ⟨_, hroom, _⟩
  · omega
  · exact hfault
  · omega

theorem fetchBlock_of_unpack {s : State} (hp : s.phase = .unpack) : fetchBlock s = some (fetchStream s) := by
  simp only [fetchBlock, hp]

theorem fetchBlock_of_decInit {s : State} (hp : s.phase = .decInit) :
    fetchBlock s = some (fetchCode s .noFirstCode .firstCode) := by
  simp only [fetchBlock, hp]

theorem fetchBlock_of_decLoop {s : State} (hp : s.phase = .decLoop) (hnext : s.next ≠ 4096) :
    fetchBlock s = some (fetchCode s .endOfCodes (.loopCode s.next)) := by
  simp only [fetchBlock, hp, hnext, and_false, if_false]

/-- Settles O23: the entries of CODES, the slots of DICT, and the fetches from CODES and IN. -/
theorem accessOutsideItsSpaceStops : Obligations.AccessOutsideItsSpaceStops := by
  refine ⟨?unpack3, ?unpackTail2, ?readSlot, ?selfref, ?defined, ?fetchCode, ?fetchStream⟩
  case unpack3 =>
    intro a b s hroom
    exact if_pos hroom
  case unpackTail2 =>
    intro c s hroom
    exact if_pos hroom
  case readSlot =>
    intro c s hc
    exact if_neg (Nat.not_lt.2 hc)
  case selfref =>
    intro c s hnext hprev hfit
    obtain ⟨first, rest, hcons⟩ := List.exists_cons_of_ne_nil hprev
    have hexec : exec (.decStepSelfref c) s =
        appendThen (s.prev ++ [first]) c s (defineEntry (s.prev ++ [first]) c) := by
      simp only [exec, execDecStepSelfref, hcons]
    rw [hexec]
    exact consume_outsideSpace c (by simp) (by simpa using hfit) hnext
  case defined =>
    intro c s hc hnext hslot hfit
    have hexec : exec (.decStepDefined c) s =
        appendThen (s.slot c.toNat) c s (defineEntry (s.slot c.toNat) c) := if_pos hc
    rw [hexec]
    exact consume_outsideSpace c hslot hfit hnext
  case fetchCode =>
    rintro s (hp | ⟨hp, hnext⟩) hmax hcur
    · refine stepBlock_of_fetchBlock_error ?_
      rw [fetchBlock_of_decInit hp, fetchCode_outsideSpace _ _ hmax hcur]
    · refine stepBlock_of_fetchBlock_error ?_
      rw [fetchBlock_of_decLoop hp hnext, fetchCode_outsideSpace _ _ hmax hcur]
  case fetchStream =>
    intro s hp hrp hmax
    refine stepBlock_of_fetchBlock_error ?_
    rw [fetchBlock_of_unpack hp, fetchStream_outsideSpace hrp hmax]

end Sys2Proof.Machine
end

section
/-! PROOFS of the family 30_encoding.md, first part: decode and encode undo each other (R65 to R76). -/

namespace Sys2Proof

/-! ### The stream (R65 to R72) -/

/-- Packing the two codes of a chunk gives back its bytes. -/
theorem chunkBytes_of_codes (b0 b1 b2 : Byte) : chunkBytes (codeA b0 b1) (codeB b1 b2) = [b0, b1, b2] := by
  have h1 := b1.isLt
  have h2 := b2.isLt
  refine congrArg₂ List.cons (BitVec.eq_of_toNat_eq ?_)
    (congrArg₂ List.cons (BitVec.eq_of_toNat_eq ?_) (congrArg (· :: []) (BitVec.eq_of_toNat_eq ?_)))
  · rw [chunkBytes_first_toNat, codeA_toNat]
    omega
  · rw [chunkBytes_mid_toNat, codeA_toNat, codeB_toNat]
    omega
  · rw [chunkBytes_last_toNat, codeB_toNat]
    omega

/-- Packing the code of a two-byte tail gives back its bytes. -/
theorem tailBytes_of_tailCode (p u : Byte) : tailBytes (tailCode p u) = [p, u] := by
  have hu := u.isLt
  refine congrArg₂ List.cons (BitVec.eq_of_toNat_eq ?_) (congrArg (· :: []) (BitVec.eq_of_toNat_eq ?_))
  · rw [tailBytes_first_toNat, tailCode_toNat]
    omega
  · rw [tailBytes_last_toNat, tailCode_toNat]
    omega

/-- The 24-bit value of a chunk, first byte most significant (R66). -/
theorem chunk_toNat (b0 b1 b2 : Byte) :
    (b0 ++ b1 ++ b2).toNat = b0.toNat * 65536 + b1.toNat * 256 + b2.toNat := by
  have h1 := b1.isLt
  have h2 := b2.isLt
  rw [BitVec.toNat_append, BitVec.toNat_append, Nat.shiftLeft_eq, Nat.shiftLeft_eq, mul_pow_or _ _ _ h1,
    mul_pow_or _ _ _ h2]
  omega

/-- R66, R67: code_a is W[23:12]. -/
theorem codeA_eq_extract (b0 b1 b2 : Byte) : codeA b0 b1 = (b0 ++ b1 ++ b2).extractLsb' 12 12 := by
  have h1 := b1.isLt
  have h2 := b2.isLt
  apply BitVec.eq_of_toNat_eq
  rw [codeA_toNat, BitVec.extractLsb'_toNat, chunk_toNat, Nat.shiftRight_eq_div_pow]
  omega

/-- R66, R68: code_b is W[11:0]. -/
theorem codeB_eq_extract (b0 b1 b2 : Byte) : codeB b1 b2 = (b0 ++ b1 ++ b2).extractLsb' 0 12 := by
  have h1 := b1.isLt
  have h2 := b2.isLt
  apply BitVec.eq_of_toNat_eq
  rw [codeB_toNat, BitVec.extractLsb'_toNat, chunk_toNat, Nat.shiftRight_eq_div_pow]
  omega

/-! ### Codes (R73, R74) -/

theorem decodeFirstCode_of_literal {c : Code} (h : c.toNat < 256) : decodeFirstCode c = .decInit (c.setWidth 8) :=
  if_pos ((literal_mask_iff c).2 h)

theorem decodeFirstCode_of_notLiteral {c : Code} (h : 256 ≤ c.toNat) : decodeFirstCode c = .decInitUndef c :=
  if_neg fun e => Nat.not_lt.2 h ((literal_mask_iff c).1 e)

theorem decodeFirstCode_setWidth (c : Byte) : decodeFirstCode (c.setWidth 16) = .decInit c := by
  have hc := c.isLt
  have hval : (c.setWidth 16).toNat = c.toNat := by
    rw [BitVec.toNat_setWidth]
    omega
  rw [decodeFirstCode_of_literal (by omega), BitVec.setWidth_setWidth_of_le c (by decide), BitVec.setWidth_eq]

/-- A code that fits in `k` bits is not changed by cutting it to them. -/
theorem setWidth_setWidth_of_lt {k : Nat} {c : Code} (h : c.toNat < 2 ^ k) : (c.setWidth k).setWidth 16 = c := by
  apply BitVec.eq_of_toNat_eq
  rw [BitVec.toNat_setWidth, BitVec.toNat_setWidth, Nat.mod_eq_of_lt h, Nat.mod_eq_of_lt c.isLt]

section
variable {next : SlotIndex} {c : Code}

theorem decodeLoopCode_of_lt (hn : next.toNat < 4096) (h : c.toNat < next.toNat) :
    decodeLoopCode next c = .ok (.decStepDefined c) := by
  exact (if_pos hn).trans (if_pos h)

theorem decodeLoopCode_of_eq (hn : next.toNat < 4096) (h : c.toNat = next.toNat) :
    decodeLoopCode next c = .ok (.decStepSelfref c) := by
  exact (if_pos hn).trans ((if_neg (by omega)).trans (if_pos h))

theorem decodeLoopCode_of_gt (hn : next.toNat < 4096) (h : next.toNat < c.toNat) :
    decodeLoopCode next c = .ok (.decStepUndef c) := by
  exact (if_pos hn).trans ((if_neg (by omega)).trans (if_neg (by omega)))

end

/-! ### CTRL writes (R76) -/

/-- A word is its command bits and the ignored bits above them. -/
theorem word_eq_of_fields {v w : Word} (h0 : v.extractLsb' 0 1 = w.extractLsb' 0 1)
    (h1 : v.extractLsb' 1 1 = w.extractLsb' 1 1) (h2 : v.extractLsb' 2 30 = w.extractLsb' 2 30) : v = w := by
  have e0 := congrArg BitVec.toNat h0
  have e1 := congrArg BitVec.toNat h1
  have e2 := congrArg BitVec.toNat h2
  simp only [BitVec.extractLsb'_toNat, Nat.shiftRight_eq_div_pow] at e0 e1 e2
  apply BitVec.eq_of_toNat_eq
  omega

theorem startWord_of_bits {v : Word} (h1 : v.extractLsb' 1 1 = 0#1) (h0 : v.extractLsb' 0 1 = 1#1) :
    startWord (v.extractLsb' 2 30) = v :=
  word_eq_of_fields ((startWord_bit0 _).trans h0.symm) ((startWord_bit1 _).trans h1.symm) (startWord_ignored _)

theorem abortWord_of_bit1 {v : Word} (h1 : v.extractLsb' 1 1 = 1#1) :
    abortWord (v.extractLsb' 2 30) (v.extractLsb' 0 1) = v :=
  word_eq_of_fields (abortWord_bit0 _ _) ((abortWord_bit1 _ _).trans h1.symm) (abortWord_ignored _ _)

/-- The two command bits together, from each of them. -/
theorem command_bits_zero {v : Word} (h1 : v.extractLsb' 1 1 = 0#1) (h0 : v.extractLsb' 0 1 = 0#1) :
    v.extractLsb' 0 2 = 0#2 := by
  have e0 := congrArg BitVec.toNat h0
  have e1 := congrArg BitVec.toNat h1
  apply BitVec.eq_of_toNat_eq
  simp only [BitVec.extractLsb'_toNat, Nat.shiftRight_eq_div_pow, BitVec.toNat_ofNat] at e0 e1 ⊢
  omega

theorem plainWrite_iff (off v : Word) :
    plainWrite off v = true ↔ off ≠ 0x08 ∧ (off = 0x00 → v.extractLsb' 0 2 = 0#2) := by
  simp only [plainWrite, Bool.and_eq_true, Bool.or_eq_true, decide_eq_true_eq, ne_eq, imp_iff_not_or]

theorem decodeWr32_of_plainWrite {off v : Word} (h : plainWrite off v = true) :
    decodeWr32 off v = .hostWr32 off v := by
  obtain ⟨h8, hbits⟩ := (plainWrite_iff off v).1 h
  by_cases h0 : off = 0x00
  · obtain ⟨b1, b0⟩ := no_command_bits v (hbits h0)
    rw [decodeWr32, if_pos h0, b1, b0, if_neg (by decide), if_neg (by decide)]
  · rw [decodeWr32, if_neg h0, if_neg h8]

/-! ### Decode of encode -/

/-- Some NEXT of R74 selects each well-formed instruction. -/
theorem selectedAt_someNext {i : Instr} (h : i.wellFormed = true) : i.selectedAt i.someNext = true := by
  cases i with
  | decStepDefined c =>
    have hc : c.toNat < 4095 := of_decide_eq_true h
    simp only [Instr.selectedAt, Instr.someNext, BitVec.toNat_ofNat, decide_eq_true_eq]
    omega
  | decStepSelfref c =>
    have hc : 256 ≤ c.toNat ∧ c.toNat < 4096 := of_decide_eq_true h
    simp only [Instr.selectedAt, Instr.someNext, BitVec.toNat_setWidth, decide_eq_true_eq]
    omega
  | decStepUndef c =>
    have hc : 256 < c.toNat := of_decide_eq_true h
    have h256 : (256#13).toNat < 4096 := by decide
    exact decide_eq_true ⟨h256, hc⟩
  | _ => rfl

/-- The words of a well-formed instruction, in a context that selects it, decode to it. -/
theorem decode_encodeAt {i : Instr} {next : SlotIndex} (hwf : i.wellFormed = true) (hsel : i.selectedAt next = true) :
    decode (encodeAt next i) = .ok i := by
  cases i with
  | unpack3 a b =>
    exact congrArg Except.ok (congrArg₂ Instr.unpack3 (codeA_of_chunkBytes a b) (codeB_of_chunkBytes a b))
  | unpackTail2 c => exact congrArg (Except.ok ∘ Instr.unpackTail2) (tailCode_of_tailBytes c)
  | decInit c => exact congrArg Except.ok (decodeFirstCode_setWidth c)
  | decInitUndef c => exact congrArg Except.ok (decodeFirstCode_of_notLiteral (of_decide_eq_true hwf))
  | decStepDefined c =>
    obtain ⟨hn, hc⟩ := of_decide_eq_true hsel
    exact decodeLoopCode_of_lt hn hc
  | decStepSelfref c =>
    obtain ⟨hn, hc⟩ := of_decide_eq_true hsel
    exact decodeLoopCode_of_eq hn hc
  | decStepUndef c =>
    obtain ⟨hn, hc⟩ := of_decide_eq_true hsel
    exact decodeLoopCode_of_gt hn hc
  | hostWr32 off v => exact congrArg Except.ok (decodeWr32_of_plainWrite hwf)
  | hostStart ign => exact congrArg Except.ok (decodeWr32_startWord ign)
  | hostAbort ign start => exact congrArg Except.ok (decodeWr32_abortWord ign start)
  | unpackTail1 | unpackEnd | decEmpty | decDictReset | decDone => rfl
  | hostRd32 | hostWrInLen | hostWrin | hostRdin | hostRdout => rfl

/-- Settles O4: every context that selects the instruction decodes its words to it, and the one `encode` writes does
select it. -/
theorem decodeOfEncode : Obligations.DecodeOfEncode :=
  fun _ hwf => ⟨decode_encodeAt hwf (selectedAt_someNext hwf), fun _ hsel => decode_encodeAt hwf hsel⟩

/-! ### Encode of decode -/

/-- `i` is the meaning of the context `f`: decoded from it, well formed, selected there, and encoded by its word. -/
def Instr.MeaningOf (i : Instr) (f : Fetch) : Prop :=
  decode f = .ok i ∧ i.wellFormed = true ∧ i.selectedAt f.nextOf = true ∧ encodeAt f.nextOf i = f.word

theorem meaningOf_stream : ∀ bytes : List Byte, (decodeStream bytes).MeaningOf (.stream bytes)
  | [] => ⟨rfl, rfl, rfl, rfl⟩
  | [_] => ⟨rfl, rfl, rfl, rfl⟩
  | [p, u] => ⟨rfl, rfl, rfl, congrArg Fetch.stream (tailBytes_of_tailCode p u)⟩
  | b0 :: b1 :: b2 :: _ => ⟨rfl, rfl, rfl, congrArg Fetch.stream (chunkBytes_of_codes b0 b1 b2)⟩

theorem meaningOf_firstCode (c : Code) : (decodeFirstCode c).MeaningOf (.firstCode c) := by
  refine ⟨rfl, ?_⟩
  rcases Nat.lt_or_ge c.toNat 256 with hc | hc
  · rw [decodeFirstCode_of_literal hc]
    exact ⟨rfl, rfl, congrArg Fetch.firstCode (setWidth_setWidth_of_lt (k := 8) hc)⟩
  · rw [decodeFirstCode_of_notLiteral hc]
    exact ⟨decide_eq_true hc, rfl, rfl⟩

/-- R74: a code is below NEXT, equal to it or above it. -/
theorem exists_meaningOf_loopCode {next : SlotIndex} (hlo : 256 ≤ next.toNat) (hhi : next.toNat < 4096) (c : Code) :
    ∃ i : Instr, i.MeaningOf (.loopCode next c) := by
  rcases Nat.lt_trichotomy c.toNat next.toNat with hc | hc | hc
  · have hwf : (Instr.decStepDefined c).wellFormed = true := decide_eq_true (by omega)
    exact ⟨_, decodeLoopCode_of_lt hhi hc, hwf, decide_eq_true ⟨hhi, hc⟩, rfl⟩
  · have hwf : (Instr.decStepSelfref c).wellFormed = true := decide_eq_true (by omega)
    exact ⟨_, decodeLoopCode_of_eq hhi hc, hwf, decide_eq_true ⟨hhi, hc⟩, rfl⟩
  · have hwf : (Instr.decStepUndef c).wellFormed = true := decide_eq_true (by omega)
    exact ⟨_, decodeLoopCode_of_gt hhi hc, hwf, decide_eq_true ⟨hhi, hc⟩, rfl⟩

/-- R76: a register write is ABORT, START, a write of IN_LEN, or a plain write. -/
theorem meaningOf_wr32 (off v : Word) : (decodeWr32 off v).MeaningOf (.host (.wr32 off v)) := by
  refine ⟨rfl, ?_⟩
  unfold decodeWr32
  split
  · next h0 =>
    subst h0
    split
    · next b1 => exact ⟨rfl, rfl, congrArg (fun w => Fetch.host (.wr32 0x00 w)) (abortWord_of_bit1 b1)⟩
    · next b1 =>
      have b1 := Machine.bit_ne_one b1
      split
      · next b0 => exact ⟨rfl, rfl, congrArg (fun w => Fetch.host (.wr32 0x00 w)) (startWord_of_bits b1 b0)⟩
      · next b0 =>
        have hbits := command_bits_zero b1 (Machine.bit_ne_one b0)
        exact ⟨(plainWrite_iff _ v).2 ⟨by decide, fun _ => hbits⟩, rfl, rfl⟩
  · next h0 =>
    split
    · next h8 =>
      subst h8
      exact ⟨rfl, rfl, rfl⟩
    · next h8 => exact ⟨(plainWrite_iff off v).2 ⟨h8, fun e => absurd e h0⟩, rfl, rfl⟩

theorem meaningOf_host (a : HostAccess) : (decodeHost a).MeaningOf (.host a) := by
  cases a with
  | wr32 off v => exact meaningOf_wr32 off v
  | rd32 | wrin | rdin | rdout => exact ⟨rfl, rfl, rfl, rfl⟩

/-- Settles O5, context by context. -/
theorem encodeOfDecode : Obligations.EncodeOfDecode := by
  intro f hf
  cases f with
  | stream bytes => exact ⟨_, meaningOf_stream bytes⟩
  | firstCode c => exact ⟨_, meaningOf_firstCode c⟩
  | loopCode next c =>
    obtain ⟨hlo, hhi⟩ := of_decide_eq_true hf
    exact exists_meaningOf_loopCode hlo hhi c
  | host a => exact ⟨_, meaningOf_host a⟩
  | noFirstCode | endOfCodes | dictFull => exact ⟨_, rfl, rfl, rfl, rfl⟩

/-! ### The formats of the stream, and words written out -/

/-- Settles O1: each word is evaluated by the decoder. -/
theorem writtenOutWordsDecode : Obligations.WrittenOutWordsDecode := by
  unfold Obligations.WrittenOutWordsDecode
  decide

/-- Settles O2: the shifts and masks of R67 and R68 are the fields of R66. -/
theorem chunkCarriesTwoCodesBigEndian : Obligations.ChunkCarriesTwoCodesBigEndian :=
  fun b0 b1 b2 _ =>
    congrArg Except.ok (congrArg₂ Instr.unpack3 (codeA_eq_extract b0 b1 b2) (codeB_eq_extract b0 b1 b2))

/-- Settles O3: a list of three bytes or more has its first three; the other clauses fix the bytes. -/
theorem bytesLeftSelectTheFormat : Obligations.BytesLeftSelectTheFormat := by
  intro bytes
  refine ⟨fun hlen => ?chunk, fun p u h => ?tail2, fun x h => ?tail1, fun h => ?none⟩
  case chunk =>
    obtain ⟨b0, b1, b2, rest, rfl⟩ : ∃ b0 b1 b2 rest, bytes = b0 :: b1 :: b2 :: rest := by
      match bytes, hlen with
      | b0 :: b1 :: b2 :: rest, _ => exact ⟨b0, b1, b2, rest, rfl⟩
    exact ⟨_, _, rfl⟩
  case tail2 =>
    subst h
    exact ⟨_, rfl, tailCode_toNat p u⟩
  case tail1 =>
    subst h
    rfl
  case none =>
    subst h
    rfl

end Sys2Proof
end

section
/-! PROOFS of the family 30_encoding.md, second part: packing a code sequence (R72), and the expansion of
DECODE (R79). -/

namespace Sys2Proof.Machine

/-! ### Packing -/

/-- The byte formulas of R72 for a pair of codes. -/
theorem chunkBytes_eq (a b : Code12) :
    chunkBytes a b =
      [BitVec.ofNat 8 (a.toNat / 16), BitVec.ofNat 8 (a.toNat % 16 * 16 + b.toNat / 256),
        BitVec.ofNat 8 (b.toNat % 256)] := by
  rw [← chunkBytes_first_toNat, ← chunkBytes_mid_toNat, ← chunkBytes_last_toNat]
  simp only [BitVec.ofNat_toNat, BitVec.setWidth_eq, chunkBytes]

/-- The byte formulas of R72 for a final odd code. -/
theorem tailBytes_eq (c : Code) : tailBytes c = [BitVec.ofNat 8 (c.toNat / 256), BitVec.ofNat 8 (c.toNat % 256)] := by
  rw [← tailBytes_first_toNat, ← tailBytes_last_toNat]
  simp only [BitVec.ofNat_toNat, BitVec.setWidth_eq, tailBytes]

theorem refUnpack_chunkBytes_append (a b : Code12) (rest : List Byte) :
    refUnpack (chunkBytes a b ++ rest) = a.setWidth 16 :: b.setWidth 16 :: refUnpack rest := by
  simp only [chunkBytes, List.cons_append, List.nil_append, refUnpack, codeA_of_chunkBytes, codeB_of_chunkBytes]

theorem refUnpack_tailBytes (c : Code) : refUnpack (tailBytes c) = [c] :=
  congrArg (· :: []) (tailCode_of_tailBytes c)

/-- Every code that is packed in a pair is below 4096 (R72); only a final odd code is not paired. -/
def PairedCodesFit (cs : List Code) : Prop :=
  ∀ k (h : k < cs.length), (k + 1 < cs.length ∨ cs.length % 2 = 0) → cs[k].toNat < 4096

theorem PairedCodesFit.cons_cons {a b : Code} {rest : List Code} (h : PairedCodesFit (a :: b :: rest)) :
    a.toNat < 4096 ∧ b.toNat < 4096 ∧ PairedCodesFit rest := by
  simp only [PairedCodesFit, List.length_cons] at h ⊢
  exact ⟨h 0 (by omega) (by omega), h 1 (by omega) (by omega), fun k hk hpair => h (k + 2) (by omega) (by omega)⟩

theorem refUnpack_refPack : ∀ cs : List Code, PairedCodesFit cs → refUnpack (refPack cs) = cs
  | [], _ => rfl
  | [c], _ => refUnpack_tailBytes c
  | a :: b :: rest, h => by
    obtain ⟨ha, hb, hrest⟩ := h.cons_cons
    rw [refPack, refUnpack_chunkBytes_append, setWidth_setWidth_of_lt (k := 12) ha,
      setWidth_setWidth_of_lt (k := 12) hb, refUnpack_refPack rest hrest]

/-- Three bytes for each pair of codes, two for a final odd one. -/
theorem refPack_length : ∀ cs : List Code, (refPack cs).length = 3 * (cs.length / 2) + 2 * (cs.length % 2)
  | [] => rfl
  | [c] => by rw [refPack, tailBytes_eq, List.length_cons, List.length_cons, List.length_nil, List.length_singleton]
  | a :: b :: rest => by
    have hchunk : (chunkBytes (a.setWidth 12) (b.setWidth 12)).length = 3 := rfl
    rw [refPack, List.length_append, hchunk, refPack_length rest, List.length_cons, List.length_cons]
    omega

/-- Settles O6, by induction on the pairs of codes. -/
theorem unpackOfPack : Obligations.UnpackOfPack := by
  refine ⟨chunkBytes_eq, tailBytes_eq, fun cs hfit =>
    ⟨refUnpack_refPack cs hfit, fun m hm => ?_, fun m hm => ?_⟩⟩
  · rw [refPack_length]
    omega
  · rw [refPack_length]
    omega

/-! ### The expansion of DECODE -/

section
variable {s : State} {rest : List HostStmt} (hb : s.phase.busy = false) (ht : s.turns = [])
include hb ht

/-- A host that is not disturbed and has an access to make makes it. -/
theorem step_of_access {a : HostAccess} (hp : s.hostProg = .access a :: rest) :
    step s = exec (decodeHost a) (s.setHostProg rest) :=
  (step_of_not_busy ht hb).trans (stepHost_of_access hp)

/-- R120 outside a run and below IN_MAX. -/
theorem step_of_wrin {a : Word} {b : Byte} (ha : a.toNat < s.inMax.toNat)
    (hp : s.hostProg = .access (.wrin a b) :: rest) :
    step s = .next { s with inMem := Memory.write s.inMem a.toNat b, hostProg := rest } := by
  rw [step_of_access hb ht hp]
  exact if_pos ⟨hb, ha⟩

/-- R119 outside a run. -/
theorem step_of_setLen {len : Word} (hp : s.hostProg = scriptSetLen len ++ rest) :
    step s = .next { s with inLen := len, hostProg := rest } := by
  have hwrite : writeInLen len (s.setHostProg rest) = { s.setHostProg rest with inLen := len } :=
    if_neg (ne_true_of_eq_false hb)
  exact (step_of_access hb ht hp).trans (congrArg Host.Outcome.next hwrite)

/-- R122 outside a run with L <= IN_MAX. -/
theorem step_of_start (hlen : s.inLen.toNat ≤ s.inMax.toNat) (hp : s.hostProg = scriptStart ++ rest) :
    step s = .next { s.clearRun.forget with phase := .unpack, hostProg := rest } := by
  have hstart : startRun (s.setHostProg rest) = { (s.setHostProg rest).clearRun.forget with phase := .unpack } :=
    (if_neg (ne_true_of_eq_false hb)).trans (if_neg (Nat.not_lt.2 hlen))
  exact (step_of_access hb ht hp).trans (congrArg Host.Outcome.next hstart)

/-- `SETLEN L`, then `START`, with L at most IN_MAX: IN_LEN is set and the run starts. -/
theorem run_setLen_start {len : Word} (hlen : len.toNat ≤ s.inMax.toNat)
    (hp : s.hostProg = scriptSetLen len ++ (scriptStart ++ rest)) :
    Sys2Proof.core.run 2 s =
      .next { s.clearRun.forget with inLen := len, phase := .unpack, hostProg := rest } :=
  (run_succ Sys2Proof.core 1 (step_of_setLen hb ht hp)).trans
    (run_succ Sys2Proof.core 0
      (step_of_start (s := { s with inLen := len, hostProg := scriptStart ++ rest }) hb ht hlen rfl))

end

/-- `LOADIN a, b0 b1 ...` stores the bytes from address `a` up, one step each. -/
theorem run_scriptLoadIn (rest : List HostStmt) : ∀ (bytes : List Byte) (a : Word) (s : State),
    s.phase.busy = false → s.turns = [] → a.toNat + bytes.length ≤ s.inMax.toNat →
    s.hostProg = scriptLoadIn a bytes ++ rest →
    Sys2Proof.core.run bytes.length s =
      .next { s with inMem := Memory.writeAll s.inMem a.toNat bytes, hostProg := rest }
  | [], _, s, _, _, _, hp => congrArg (fun prog => Host.Outcome.next (s.setHostProg prog)) hp
  | b :: bytes, a, s, hb, ht, hroom, hp => by
    have hmax := s.inMax.isLt
    rw [List.length_cons] at hroom
    have hnext : (a + 1).toNat = a.toNat + 1 := word_add_one a (by omega)
    have hload := run_scriptLoadIn rest bytes (a + 1)
      { s with inMem := Memory.write s.inMem a.toNat b, hostProg := scriptLoadIn (a + 1) bytes ++ rest } hb ht
      (show _ ≤ s.inMax.toNat by omega) rfl
    rw [hnext] at hload
    exact (run_succ Sys2Proof.core bytes.length (step_of_wrin hb ht (by omega) hp)).trans hload

/-- The bytes stored in IN are the bytes read from there. -/
theorem State.inBytes_of_writeAll {t : State} {m : Memory Byte} {a : Nat} {bytes : List Byte}
    (h : t.inMem = Memory.writeAll m a bytes) : t.inBytes a bytes.length = bytes := by
  apply List.ext_getElem?
  intro j
  rcases Nat.lt_or_ge j bytes.length with hj | hj
  · have hread : Memory.read t.inMem (a + j) = some bytes[j] := by
      rw [h, Memory.read_writeAll, if_pos (by omega), Nat.add_sub_cancel_left, List.getElem?_eq_getElem hj]
    rw [State.inBytes_get t a _ j hj, State.inByte, hread, List.getElem?_eq_getElem hj]
    rfl
  · rw [List.getElem?_eq_none (by rwa [State.inBytes_length]), List.getElem?_eq_none hj]

/-- Settles O54: the bytes are stored one step each, then IN_LEN is set and the run starts. -/
theorem decodeScriptStartsTheRun : Obligations.DecodeScriptStartsTheRun := by
  intro s bytes rest hb ht hroom hp
  have hmax := s.inMax.isLt
  have hlen : (BitVec.ofNat 32 bytes.length).toNat = bytes.length := by
    rw [BitVec.toNat_ofNat]
    omega
  have hload := run_scriptLoadIn _ bytes 0 s hb ht (by simpa using hroom)
    (by rw [hp, scriptDecode, List.append_assoc, List.append_assoc, List.append_assoc])
  have hstart := run_setLen_start (rest := .wait :: rest)
    (s := { s with
      inMem := Memory.writeAll s.inMem 0 bytes
      hostProg := scriptSetLen (BitVec.ofNat 32 bytes.length) ++ (scriptStart ++ .wait :: rest) })
    hb ht (hlen.trans_le hroom) rfl
  refine ⟨_, (run_add Sys2Proof.core bytes.length 2 hload).trans hstart, rfl, ?input, hlen, rfl⟩
  case input =>
    rw [State.input]
    exact (congrArg _ hlen).trans (State.inBytes_of_writeAll rfl)

end Sys2Proof.Machine
end

section
/-! PROOFS of the family 40_unpacker.md: the operation for the bytes left (R83), what it stores (R84, R86 to R88), and
the codes at the end of the phase (R89, R92). -/

namespace Sys2Proof.Machine

/-! ### The operation for the bytes left -/

section
variable {s : State} (hp : s.phase = .unpack) (hlen : s.inLen.toNat ≤ s.inMax.toNat)
include hp hlen

/-- A turn in UNPACK runs what the decoder reads from the next three bytes left, or fewer (R83). -/
theorem stepBlock_of_unpack (hrp : s.rp.toNat ≤ s.inLen.toNat) :
    stepBlock s = exec (decodeStream (s.inBytes s.rp.toNat (min 3 (s.inLen.toNat - s.rp.toNat)))) s := by
  rcases fetchStream_cases s with ⟨hgt, _⟩ | ⟨_, hgt, _⟩ | ⟨_, _, hf⟩
  · omega
  · omega
  · exact stepBlock_of_decode ((fetchBlock_of_unpack hp).trans (congrArg some hf)) rfl

theorem stepBlock_of_three_left (hleft : s.rp.toNat + 3 ≤ s.inLen.toNat) :
    stepBlock s =
      exec (.unpack3 (codeA (s.inByte s.rp.toNat) (s.inByte (s.rp.toNat + 1)))
        (codeB (s.inByte (s.rp.toNat + 1)) (s.inByte (s.rp.toNat + 2)))) s := by
  rw [stepBlock_of_unpack hp hlen (by omega), Nat.min_eq_left (by omega)]
  rfl

theorem stepBlock_of_two_left (hleft : s.rp.toNat + 2 = s.inLen.toNat) :
    stepBlock s = exec (.unpackTail2 (tailCode (s.inByte s.rp.toNat) (s.inByte (s.rp.toNat + 1)))) s := by
  rw [stepBlock_of_unpack hp hlen (by omega), show min 3 (s.inLen.toNat - s.rp.toNat) = 2 by omega]
  rfl

theorem stepBlock_of_one_left (hleft : s.rp.toNat + 1 = s.inLen.toNat) :
    stepBlock s = exec (.unpackTail1 (s.inByte s.rp.toNat)) s := by
  rw [stepBlock_of_unpack hp hlen (by omega), show min 3 (s.inLen.toNat - s.rp.toNat) = 1 by omega]
  rfl

theorem stepBlock_of_none_left (hleft : s.rp = s.inLen) : stepBlock s = exec .unpackEnd s := by
  rw [stepBlock_of_unpack hp hlen (by rw [hleft]), hleft, Nat.sub_self]
  rfl

end

/-- Settles O9: one clause for each number of bytes left. -/
theorem unpackStepChosenByBytesLeft : Obligations.UnpackStepChosenByBytesLeft := by
  intro s hp hrp hlen
  refine ⟨fun hleft => ⟨_, _, stepBlock_of_three_left hp hlen ?_⟩, fun hleft => ⟨_, stepBlock_of_two_left hp hlen ?_⟩,
    fun hleft => ⟨_, stepBlock_of_one_left hp hlen ?_⟩,
    fun hleft => stepBlock_of_none_left hp hlen (BitVec.eq_of_toNat_eq ?_)⟩
  all_goals omega

/-! ### What an operation of the BitUnpacker stores -/

theorem exec_unpack3 (a b : Code12) {s : State} (hroom : s.n.toNat + 2 ≤ s.nMax) :
    exec (.unpack3 a b) s = .next (s.unpackBytes 3 [a.setWidth 16, b.setWidth 16]) := by
  have := nMax_lt s
  rw [← pushCode_pushCode_eq _ _ (by omega)]
  exact if_neg (Nat.not_lt.2 hroom)

theorem exec_unpackTail2 (c : Code) {s : State} (hroom : s.n.toNat + 1 ≤ s.nMax) :
    exec (.unpackTail2 c) s = .next (s.unpackBytes 2 [c]) :=
  if_neg (Nat.not_lt.2 hroom)

theorem exec_unpackTail1 (x : Byte) (s : State) : exec (.unpackTail1 x) s = .next (s.unpackBytes 1 []) :=
  congrArg Host.Outcome.next (tailDropped_eq s)

/-- CODES after a step: the new codes from N up, and every other entry as before. -/
theorem State.read_codes_unpackBytes (k : Nat) (new : List Code) (s : State) (j : Nat) :
    Memory.read (s.unpackBytes k new).codes j =
      if s.n.toNat ≤ j ∧ j < s.n.toNat + new.length then new[j - s.n.toNat]? else Memory.read s.codes j :=
  Memory.read_writeAll _ _ _ _

/-- Settles O11: the two codes stand at N and N + 1, and are those of the three bytes at RP. -/
theorem unpack3StoresBothCodes : Obligations.Unpack3StoresBothCodes := by
  refine ⟨fun a b s hroom => ⟨_, exec_unpack3 a b hroom, rfl, ?atN, ?atNext, fun k hk hk' => ?others⟩,
    fun s hp hleft hlen => ⟨_, _, stepBlock_of_three_left hp hlen (by omega), codeA_toNat _ _, codeB_toNat _ _⟩⟩
  case atN => simp [State.read_codes_unpackBytes]
  case atNext => simp [State.read_codes_unpackBytes]
  case others =>
    rw [State.read_codes_unpackBytes, if_neg]
    simp only [List.length_cons, List.length_nil]
    omega

/-- A remainder of the input is what L leaves modulo 3 (R87, R88): whole chunks were consumed before it. -/
theorem UnpackInv.inLen_mod {s : State} (h : UnpackInv s) {r : Nat} (hr : 0 < r ∧ r < 3)
    (hleft : s.rp.toNat + r = s.inLen.toNat) : s.inLen.toNat % 3 = r := by
  have hmod := h.rp_mod_eq_zero (by omega)
  omega

/-- Settles O12: the code stands at N and is that of the two bytes at RP, the remainder of L. -/
theorem unpackTail2StoresTheTailCode : Obligations.UnpackTail2StoresTheTailCode := by
  refine ⟨fun c s hroom => ⟨_, exec_unpackTail2 c hroom, rfl, ?atN, fun k hk => ?others⟩,
    fun s hp hleft hlen =>
      ⟨_, stepBlock_of_two_left hp hlen (by omega), tailCode_toNat _ _, fun hinv => ?inLen⟩⟩
  case atN => simp [State.read_codes_unpackBytes]
  case others =>
    rw [State.read_codes_unpackBytes, if_neg]
    simp only [List.length_cons, List.length_nil]
    omega
  case inLen => exact ((phaseInv_unpack hp).1 hinv.phase).inLen_mod (by omega) (by omega)

/-- Settles O13: the byte is the remainder of L. -/
theorem unpackTail1DropsTheByte : Obligations.UnpackTail1DropsTheByte := by
  refine ⟨fun x s => rfl, fun s hp hleft hlen => ⟨_, stepBlock_of_one_left hp hlen (by omega), fun hinv => ?_⟩⟩
  exact ((phaseInv_unpack hp).1 hinv.phase).inLen_mod (by omega) (by omega)

/-- Settles O14: UNPACK and DEC_INIT have one code, and the invariant of UNPACK has CUR and OLEN 0. -/
theorem unpackEndEntersDecInit : Obligations.UnpackEndEntersDecInit := by
  refine ⟨fun s => rfl, fun s hp hleft hlen => ⟨_, stepBlock_of_none_left hp hlen hleft, rfl, ?code, fun hinv => ?zero⟩⟩
  case code =>
    rw [hp]
    rfl
  case zero =>
    have hunpack := (phaseInv_unpack hp).1 hinv.phase
    exact ⟨hunpack.cur, hunpack.olen⟩

/-! ### The whole phase -/

/-- A chunk left is one step (R92). -/
theorem unpackSteps_of_three_left {m : Nat} (h : 3 ≤ m) : unpackSteps m = unpackSteps (m - 3) + 1 := by
  have hdiv : m / 3 = (m - 3) / 3 + 1 := by omega
  have hmod : m % 3 = (m - 3) % 3 := by omega
  simp only [unpackSteps, hdiv, hmod]
  omega

theorem unpackSteps_eq_one_iff (m : Nat) : unpackSteps m = 1 ↔ m = 0 := by
  unfold unpackSteps
  split <;> omega

/-- CODES has room for the codes of the bytes left (R85, 20_memory.md R52). -/
theorem UnpackInv.codes_room {s : State} (h : UnpackInv s) {k : Nat} (hk : 1 ≤ k)
    (hleft : s.rp.toNat + k ≤ s.inLen.toNat) : s.n.toNat + codeCount k ≤ s.nMax := by
  rw [h.n, ← codeCount_add (h.rp_mod_eq_zero (by omega))]
  exact codeCount_mono (hleft.trans h.inLen_le)

/-- While bytes are left, a turn consumes some of them, and the phase is one step shorter (R92). -/
theorem UnpackInv.exists_stepBlock {s : State} (h : UnpackInv s) (hp : s.phase = .unpack)
    (hleft : s.rp.toNat < s.inLen.toNat) :
    ∃ k new, stepBlock s = .next (s.unpackBytes k new) ∧ s.rp.toNat + k ≤ s.inLen.toNat ∧
      unpackSteps (s.inLen.toNat - s.rp.toNat) = unpackSteps (s.inLen.toNat - (s.rp.toNat + k)) + 1 := by
  obtain h3 | h2 | h1 : s.rp.toNat + 3 ≤ s.inLen.toNat ∨ s.rp.toNat + 2 = s.inLen.toNat ∨
      s.rp.toNat + 1 = s.inLen.toNat := by omega
  · refine ⟨3, _, (stepBlock_of_three_left hp h.inLen_le h3).trans (exec_unpack3 _ _ ?_), h3, ?_⟩
    · exact h.codes_room (k := 3) (by omega) h3
    · rw [← Nat.sub_sub]
      exact unpackSteps_of_three_left (by omega)
  · refine ⟨2, _, (stepBlock_of_two_left hp h.inLen_le h2).trans (exec_unpackTail2 _ ?_), h2.le, ?_⟩
    · exact h.codes_room (k := 2) (by omega) h2.le
    · rw [← h2, Nat.add_sub_cancel_left, Nat.sub_self]
      rfl
  · refine ⟨1, _, (stepBlock_of_one_left hp h.inLen_le h1).trans (exec_unpackTail1 _ _), h1.le, ?_⟩
    rw [← h1, Nat.add_sub_cancel_left, Nat.sub_self]
    rfl

/-- `t` is where the BitUnpacker phase of the run in `s` ends: DEC_INIT, with the parameters, the input and the turns
of `s`. The invariant says what CODES, N, RP and TAIL_DROPPED are there. -/
structure Unpacked (s t : State) : Prop where
  inv : Inv t
  phase : t.phase = .decInit
  cur : t.cur = 0
  olen : t.olen = 0
  inLen : t.inLen = s.inLen
  inMax : t.inMax = s.inMax
  outMax : t.outMax = s.outMax
  input : t.input = s.input
  turns : t.turns = s.turns

/-- Consuming bytes keeps the parameters, the input and the turns. -/
theorem Unpacked.of_unpackBytes {s t : State} {k : Nat} {new : List Code} (h : Unpacked (s.unpackBytes k new) t) :
    Unpacked s t :=
  { h with input := h.input.trans (State.input_congr rfl rfl rfl) }

/-- R92: from any point of the phase, with no other agent moving, it ends in the steps that the bytes left take. -/
theorem run_unpack (j : Nat) {s : State} (hinv : Inv s) (hp : s.phase = .unpack) (ht : s.turns = [])
    (hj : unpackSteps (s.inLen.toNat - s.rp.toNat) = j + 1) :
    ∃ t, Sys2Proof.core.run (j + 1) s = .next t ∧ Unpacked s t := by
  induction j generalizing s with
  | zero =>
    have hunpack := (phaseInv_unpack hp).1 hinv.phase
    have hleft : s.rp = s.inLen := by
      have hnone := (unpackSteps_eq_one_iff _).1 hj
      exact BitVec.eq_of_toNat_eq (Nat.le_antisymm hunpack.rp_le (Nat.sub_eq_zero_iff_le.1 hnone))
    have hend : step s = .next { s with phase := .decInit } :=
      (step_of_busy ht (congrArg Phase.busy hp)).trans (stepBlock_of_none_left hp hunpack.inLen_le hleft)
    exact ⟨_, run_succ Sys2Proof.core 0 hend, stepKeepsTheInvariant s _ hinv hend, rfl, hunpack.cur, hunpack.olen, rfl,
      rfl, rfl, State.input_congr rfl rfl rfl, rfl⟩
  | succ j ih =>
    have hunpack := (phaseInv_unpack hp).1 hinv.phase
    have hleft : s.rp.toNat < s.inLen.toNat := by
      by_contra hge
      have := (unpackSteps_eq_one_iff _).2 (Nat.sub_eq_zero_of_le (Nat.le_of_not_lt hge))
      omega
    obtain ⟨k, new, hblock, hk, hfewer⟩ := hunpack.exists_stepBlock hp hleft
    have hu : step s = .next (s.unpackBytes k new) := (step_of_busy ht (congrArg Phase.busy hp)).trans hblock
    have hrp' : (s.unpackBytes k new).rp.toNat = s.rp.toNat + k := word_add s.rp k (by omega)
    have hj' : unpackSteps ((s.unpackBytes k new).inLen.toNat - (s.unpackBytes k new).rp.toNat) = j + 1 := by
      rw [hrp']
      exact Nat.succ.inj (hfewer.symm.trans hj)
    obtain ⟨t, hrun, hend⟩ := ih (stepKeepsTheInvariant s _ hinv hu) hp ht hj'
    exact ⟨t, (run_succ Sys2Proof.core (j + 1) hu).trans hrun, hend.of_unpackBytes⟩

/-- An accepted START (42_host.md R122). -/
theorem startRun_of_accepted {s : State} (hb : s.phase.busy = false) (hlen : s.inLen.toNat ≤ s.inMax.toNat) :
    startRun s = { s.clearRun.forget with phase := .unpack } :=
  (if_neg (ne_true_of_eq_false hb)).trans (if_neg (Nat.not_lt.2 hlen))

/-- Settles O48: an accepted START begins the phase with nothing consumed, and the invariant of DEC_INIT says what it
leaves. -/
theorem unpackPhaseYieldsTheCodes : Obligations.UnpackPhaseYieldsTheCodes := by
  intro s hinv hb hlen ht
  rw [startRun_of_accepted hb hlen]
  obtain ⟨t, hrun, hend⟩ := run_unpack (s := { s.clearRun.forget with phase := .unpack }) _
    (inv_startedRun hinv.space hlen) rfl ht rfl
  have hinit := (phaseInv_decInit hend.phase).1 hend.inv.phase
  have hinLen : t.inLen = s.inLen := hend.inLen
  have hinput : t.input = s.input := hend.input.trans (State.input_congr rfl rfl rfl)
  refine ⟨t, hrun, hend.phase, ?codes, ?n, hinit.rp.trans hinLen, ?tailDropped, hend.cur, hend.olen⟩
  case codes => rw [hinit.codes, hinput]
  case n => rw [hinit.n, hinLen]
  case tailDropped => rw [hinit.tailDropped, hinLen]

end Sys2Proof.Machine
end

section
/-! PROOFS of the family 41_decoder.md, first part: what each operation of the decoder does (R96 to R105, R110,
R113), and which of them a turn runs (R94). -/

namespace Sys2Proof.Machine

/-! ### The error entry -/

theorem errorEntered_raise (kind : ErrorKind) (pos val : Word) (s : State) :
    ErrorEntered kind pos val s (s.raise kind pos val) := rfl

/-- Settles O15: each of the three operations is an error entry and nothing else. -/
theorem rejectedCodesEnterError : Obligations.RejectedCodesEnterError :=
  ⟨fun s => ⟨_, rfl, errorEntered_raise .malformedInput 0 0 s⟩,
    fun c s => ⟨_, rfl, errorEntered_raise .undefinedCodeReference s.cur (c.setWidth 32) s⟩,
    fun c s => ⟨_, rfl, errorEntered_raise .undefinedCodeReference s.cur (c.setWidth 32) s⟩⟩

/-! ### Append (R110) -/

section
variable {s : State} {chunk : Str} (c : Code) (rest : State → Result)

theorem appendThen_of_fit (hfit : s.olen.toNat + chunk.length ≤ s.outMax.toNat) :
    appendThen chunk c s rest = rest (s.appendOut chunk) :=
  if_neg (Nat.not_lt.2 hfit)

theorem appendThen_of_overflow (hover : s.outMax.toNat < s.olen.toNat + chunk.length) :
    appendThen chunk c s rest = .next (s.raise .outputOverflow s.cur (c.setWidth 32)) :=
  if_pos hover

end

/-! ### DEC_INIT (R97) -/

theorem exec_decInit_of_fit (c : Byte) {s : State} (hfit : s.olen.toNat + 1 ≤ s.outMax.toNat) :
    exec (.decInit c) s = .next (s.beginGeneration c) :=
  if_neg (Nat.not_lt.2 hfit)

theorem exec_decInit_of_overflow (c : Byte) {s : State} (hover : s.outMax.toNat < s.olen.toNat + 1) :
    exec (.decInit c) s = .next (s.raise .outputOverflow s.cur (c.setWidth 32)) := by
  rw [← BitVec.setWidth_setWidth (v := 16) (by decide)]
  exact if_pos hover

/-- Settles O17: the base alphabet and the placeholder in DICT, the literal at OLEN in OUT. -/
theorem decInitRebuildsAndEmitsTheLiteral : Obligations.DecInitRebuildsAndEmitsTheLiteral := by
  refine fun c s =>
    ⟨fun hfit => ⟨_, exec_decInit_of_fit c hfit, rfl, fun k hk => ?base, ?placeholder, fun k hk => ?above,
      Memory.read_write_same _ _ _, fun a ha => Memory.read_write_other _ _ ha⟩,
    fun hover => ⟨_, exec_decInit_of_overflow c hover, errorEntered_raise _ _ _ s⟩⟩
  case base => rw [State.read_beginGeneration, if_neg (by omega), if_pos hk]
  case placeholder => rw [State.read_beginGeneration, if_pos rfl]
  case above => rw [State.read_beginGeneration, if_neg (by omega), if_neg (by omega)]

/-! ### The main-loop steps (R100, R101, R105, R113) -/

theorem exec_decStepDefined {c : Code} (hc : c.toNat < 4096) (s : State) :
    exec (.decStepDefined c) s = appendThen (s.slot c.toNat) c s (defineEntry (s.slot c.toNat) c) :=
  if_pos hc

theorem exec_decStepSelfref (c : Code) {s : State} {first : Byte} {rest : Str} (hprev : s.prev = first :: rest) :
    exec (.decStepSelfref c) s = appendThen (s.prev ++ [first]) c s (defineEntry (s.prev ++ [first]) c) := by
  simp only [exec, execDecStepSelfref, hprev]

/-- The guard of R113 on an empty PREV. -/
theorem exec_decStepSelfref_of_nil (c : Code) {s : State} (hprev : s.prev = []) :
    exec (.decStepSelfref c) s = .next (s.raise .malformedInput s.cur (c.setWidth 32)) := by
  simp only [exec, execDecStepSelfref, hprev]

/-- A chunk that fits OUT is consumed. -/
theorem consume_of_fit (c : Code) {s : State} {first : Byte} {rest : Str} (hnext : s.next.toNat < 4096)
    (hfit : s.olen.toNat + (first :: rest).length ≤ s.outMax.toNat) :
    appendThen (first :: rest) c s (defineEntry (first :: rest) c) = .next (s.consume first (first :: rest)) :=
  (appendThen_of_fit c _ hfit).trans (if_pos hnext)

/-- What a main-loop step stores in OUT and DICT. -/
theorem chunkConsumed_consume (first : Byte) (chunk : Str) (s : State) :
    ChunkConsumed chunk first s (s.consume first chunk) := by
  have hout (a : Nat) : Memory.read (s.consume first chunk).outMem a =
      if s.olen.toNat ≤ a ∧ a < s.olen.toNat + chunk.length then chunk[a - s.olen.toNat]?
      else Memory.read s.outMem a :=
    Memory.read_writeAll _ _ _ _
  refine ⟨rfl, fun j hj => ?appended, fun a ha => ?kept, Memory.read_write_same _ _ _,
    fun k hk => Memory.read_write_other _ _ hk⟩
  case appended => rw [hout, if_pos (by omega), Nat.add_sub_cancel_left, List.getElem?_eq_getElem hj]
  case kept => rw [hout, if_neg (by omega)]

/-- Settles O18: the chunk is the string of the slot. -/
theorem decStepDefinedEmitsTheSlot : Obligations.DecStepDefinedEmitsTheSlot := by
  intro c s hc hnext
  rw [exec_decStepDefined (by omega)]
  refine ⟨fun first rest hslot hfit => ?fits,
    fun hover => ⟨_, appendThen_of_overflow c _ hover, errorEntered_raise _ _ _ s⟩⟩
  case fits =>
    rw [hslot] at hfit ⊢
    exact ⟨_, consume_of_fit c hnext hfit, chunkConsumed_consume first _ s⟩

/-- Settles O19: the chunk is the string that slot NEXT is defined as. -/
theorem decStepSelfrefExtendsPrev : Obligations.DecStepSelfrefExtendsPrev := by
  intro c s first rest hnext hprev
  have hlen : (s.prev ++ [first]).length = s.prev.length + 1 := List.length_append
  rw [exec_decStepSelfref c hprev, ← hlen]
  refine ⟨fun hfit => ?fits, fun hover => ⟨_, appendThen_of_overflow c _ hover, errorEntered_raise _ _ _ s⟩⟩
  case fits =>
    have hcons : s.prev ++ [first] = first :: (rest ++ [first]) := by rw [hprev, List.cons_append]
    have hexec : appendThen (s.prev ++ [first]) c s (defineEntry (s.prev ++ [first]) c) =
        .next (s.consume first (s.prev ++ [first])) := by
      rw [hcons] at hfit ⊢
      exact consume_of_fit c hnext hfit
    exact ⟨_, hexec, chunkConsumed_consume first _ s, Memory.read_write_same _ _ _⟩

/-- Settles O20: an empty slot fits OUT and is refused after Append, an empty PREV before it. -/
theorem emptyChunkGuardRaises : Obligations.EmptyChunkGuardRaises := by
  intro c s
  refine ⟨fun hc hslot hroom => ?defined,
    fun hprev => ⟨_, exec_decStepSelfref_of_nil c hprev, errorEntered_raise _ _ _ s⟩⟩
  case defined =>
    rw [exec_decStepDefined hc, hslot]
    exact ⟨_, appendThen_of_fit c _ hroom, rfl⟩

/-! ### DEC_DICT_RESET and DEC_DONE (R103, R104) -/

/-- Settles O21: DEC_INIT and DEC_LOOP have one STATUS.STATE. -/
theorem dictResetIsSilent : Obligations.DictResetIsSilent := by
  refine fun s => ⟨_, rfl, rfl, fun hp => ⟨?status, rfl, rfl⟩⟩
  case status =>
    show State.status _ = State.status _
    simp only [State.status, hp, Phase.code]

/-- Settles O22: OUT_LEN shows OLEN in DONE. -/
theorem decDoneShowsTheOutput : Obligations.DecDoneShowsTheOutput :=
  fun s => ⟨_, rfl, rfl, (statusFields { s with phase := .done }).1, rfl⟩

/-! ### The operation a turn runs (R94) -/

/-- A fetch between 0 and N presents the code (R94); the bound of CODES is that of N. -/
theorem fetchCode_of_lt {s : State} (atEnd : Fetch) (withCode : Code → Fetch) (hcur : s.cur.toNat < s.n.toNat)
    (hn : s.n.toNat ≤ s.nMax) : fetchCode s atEnd withCode = .ok (withCode (s.code s.cur.toNat)) := by
  rcases fetchCode_cases s atEnd withCode with ⟨hend, _⟩ | ⟨hgt, _⟩ | ⟨_, hmax, _⟩ | ⟨_, _, hf⟩
  · exact absurd (congrArg BitVec.toNat hend) (Nat.ne_of_lt hcur)
  · omega
  · omega
  · exact hf

section
variable {s : State} (hp : s.phase = .decInit)
include hp

theorem stepBlock_of_decEmpty (hcur : s.cur = s.n) : stepBlock s = exec .decEmpty s :=
  stepBlock_of_decode (f := .noFirstCode) ((fetchBlock_of_decInit hp).trans (congrArg some (if_pos hcur))) rfl

theorem stepBlock_of_firstCode (hcur : s.cur.toNat < s.n.toNat) (hn : s.n.toNat ≤ s.nMax) :
    stepBlock s = exec (decodeFirstCode (s.code s.cur.toNat)) s :=
  stepBlock_of_decode ((fetchBlock_of_decInit hp).trans (congrArg some (fetchCode_of_lt _ _ hcur hn))) rfl

end

section
variable {s : State} (hp : s.phase = .decLoop)
include hp

theorem stepBlock_of_decDone (hcur : s.cur = s.n) : stepBlock s = exec .decDone s := by
  refine stepBlock_of_decode (f := .endOfCodes) ?_ rfl
  simp only [fetchBlock, hp, hcur, Nat.lt_irrefl, false_and, if_false]
  exact congrArg some (if_pos hcur)

theorem stepBlock_of_dictFull (hcur : s.cur.toNat < s.n.toNat) (hnext : s.next = 4096) :
    stepBlock s = exec .decDictReset s := by
  refine stepBlock_of_decode (f := .dictFull) ?_ rfl
  simp only [fetchBlock, hp]
  exact if_pos ⟨hcur, hnext⟩

theorem stepBlock_of_loopCode {i : Instr} (hcur : s.cur.toNat < s.n.toNat) (hn : s.n.toNat ≤ s.nMax)
    (hnext : s.next ≠ 4096) (hd : decodeLoopCode s.next (s.code s.cur.toNat) = .ok i) : stepBlock s = exec i s :=
  stepBlock_of_decode ((fetchBlock_of_decLoop hp hnext).trans (congrArg some (fetchCode_of_lt _ _ hcur hn))) hd

end

theorem cur_lt_of_ne {s : State} (hle : s.cur.toNat ≤ s.n.toNat) (hne : s.cur ≠ s.n) : s.cur.toNat < s.n.toNat :=
  Nat.lt_of_le_of_ne hle fun e => hne (BitVec.eq_of_toNat_eq e)

theorem InitInv.cur_le {s : State} (h : InitInv s) : s.cur.toNat ≤ s.n.toNat := by
  rcases h.cur_n with hlt | ⟨hn, hcur⟩
  · exact hlt.le
  · rw [hn, hcur]

/-- NEXT is a slot where the table is not full. -/
theorem LoopInv.next_lt {s : State} (h : LoopInv s) (hnext : s.next ≠ 4096) : s.next.toNat < 4096 :=
  Nat.lt_of_le_of_ne h.next_le fun e => hnext (BitVec.eq_of_toNat_eq e)

/-- Settles O10: one clause for each fetch and, of a code, for its comparison with 256 or NEXT. -/
theorem decoderStepChosenByCodeAndNext : Obligations.DecoderStepChosenByCodeAndNext := by
  intro s hinv
  have hn := hinv.space.n_le
  refine ⟨fun hp => ?init, fun hp => ?loop⟩
  case init =>
    have hinit := (phaseInv_decInit hp).1 hinv.phase
    have hlt (hne : s.cur ≠ s.n) := cur_lt_of_ne hinit.cur_le hne
    refine ⟨fun hcur => ⟨?empty, stepBlock_of_decEmpty hp hcur⟩, fun hne hc => ?literal, fun hne hc => ?undef⟩
    case empty =>
      rcases hinit.cur_n with hlt | ⟨hzero, _⟩
      · exact absurd (congrArg BitVec.toNat hcur) (Nat.ne_of_lt hlt)
      · exact hzero
    case literal => rw [stepBlock_of_firstCode hp (hlt hne) hn, decodeFirstCode_of_literal hc]
    case undef => rw [stepBlock_of_firstCode hp (hlt hne) hn, decodeFirstCode_of_notLiteral hc]
  case loop =>
    have hloop := (phaseInv_decLoop hp).1 hinv.phase
    have hlt (hne : s.cur ≠ s.n) := cur_lt_of_ne hloop.cur_le hne
    refine ⟨stepBlock_of_decDone hp, fun hne hfull => stepBlock_of_dictFull hp (hlt hne) hfull,
      fun hne hnext hc => ?defined, fun hne hnext hc => ?selfref, fun hne hnext hc => ?undef⟩
    all_goals refine stepBlock_of_loopCode hp (hlt hne) hn hnext ?_
    case defined => exact decodeLoopCode_of_lt (hloop.next_lt hnext) hc
    case selfref => exact decodeLoopCode_of_eq (hloop.next_lt hnext) hc
    case undef => exact decodeLoopCode_of_gt (hloop.next_lt hnext) hc

end Sys2Proof.Machine
end

section
/-! PROOFS of the family 41_decoder.md, second part: in every state of the invariant a turn completes (R52, R90, R115),
and a turn of the block keeps what Decode makes of the input, or ends the run by showing it (R93, R114, R127). -/

namespace Sys2Proof.Machine

/-! ### The codes that end Decode -/

section
variable {outMax i : Nat} {out : Str} {c : Code}

theorem refDecodeFrom_firstUndefined (rest : List Code) (hc : 256 ≤ c.toNat) :
    refDecodeFrom outMax none i out (c :: rest) = .err .undefinedCodeReference i c.toNat := by
  simp only [refDecodeFrom, Option.filter, hc, if_true]

theorem refDecodeFrom_firstOverflow (rest : List Code) (hc : c.toNat < 256) (hover : outMax < out.length + 1) :
    refDecodeFrom outMax none i out (c :: rest) = .err .outputOverflow i c.toNat := by
  simp only [refDecodeFrom, Option.filter, hover, if_true]
  exact if_neg (Nat.not_le.2 hc)

variable {dict : List Str} {prev : Str}

theorem refDecodeFrom_undefined (rest : List Code) (hroom : dict.length < Config.dictCap)
    (hchunk : refChunk dict prev c = none) :
    refDecodeFrom outMax (some (dict, prev)) i out (c :: rest) = .err .undefinedCodeReference i c.toNat := by
  simp only [refDecodeFrom, Option.filter, hroom, decide_true, if_true, hchunk]

theorem refDecodeFrom_overflow {chunk : Str} (rest : List Code) (hroom : dict.length < Config.dictCap)
    (hchunk : refChunk dict prev c = some chunk) (hover : outMax < out.length + chunk.length) :
    refDecodeFrom outMax (some (dict, prev)) i out (c :: rest) = .err .outputOverflow i c.toNat := by
  simp only [refDecodeFrom, Option.filter, hroom, decide_true, if_true, hchunk, hover]

end

/-! ### What a run will show -/

/-- Decode of the codes of IN[0 .. L - 1]: what a run on the input of `s` shows at its end (42_host.md R127). -/
def State.runResult (s : State) : RunResult := refDecode s.outMax.toNat (refUnpack s.input)

/-- In DEC_LOOP it is Decode of the codes left, from the dictionary, PREV and the output so far (10_state.md R28). -/
theorem LoopInv.runResult_eq {s : State} (h : LoopInv s) :
    s.runResult = refDecodeFrom s.outMax.toNat (some (s.dictList, s.prev)) s.cur.toNat s.output
      (s.codeList.drop s.cur.toNat) := by
  have hdecoded := h.decoded (s.codeList.drop s.cur.toNat)
  rw [State.DecodesOnFrom, List.take_append_drop] at hdecoded
  rw [State.runResult, ← h.codes, hdecoded]

/-- In DEC_INIT no generation is open. -/
theorem InitInv.runResult_eq {s : State} (h : InitInv s) :
    s.runResult = refDecodeFrom s.outMax.toNat none s.cur.toNat s.output (s.codeList.drop s.cur.toNat) := by
  have hdecoded : s.DecodesOnFrom none (s.codeList.drop s.cur.toNat) := by
    rcases h.cur_n with hlt | ⟨hn, hcur⟩
    · exact h.decoded _ (by simp [s.codeList_drop _ hlt])
    · have holen : s.olen = 0 := BitVec.eq_of_toNat_eq (by simpa [hcur] using h.olen_cur)
      exact State.decodesOnFrom_start hcur holen _
  rw [State.DecodesOnFrom, List.take_append_drop] at hdecoded
  rw [State.runResult, ← h.codes, hdecoded]

/-! ### How many steps a run has left -/

/-- The steps a BUSY state has left at most (40_unpacker.md R92, 41_decoder.md R115): those of the bytes left, and
one for each code, for each dictionary reset and for the end. -/
def State.stepsLeft (s : State) : Nat :=
  if s.phase = .unpack then unpackSteps (s.inLen.toNat - s.rp.toNat) + decodeStepsBound (codeCount s.inLen.toNat)
  else s.n.toNat - s.cur.toNat + ((s.n.toNat - 1) / 3841 - s.dictResets.toNat) + 1

theorem decodeStepsBound_eq (N : Nat) : decodeStepsBound N = N + (N - 1) / 3841 + 1 := by
  rw [decodeStepsBound]
  split <;> omega

section
variable {s : State}

theorem State.stepsLeft_of_unpack (hp : s.phase = .unpack) :
    s.stepsLeft = unpackSteps (s.inLen.toNat - s.rp.toNat) + decodeStepsBound (codeCount s.inLen.toNat) :=
  if_pos hp

theorem State.stepsLeft_of_decoder (hp : s.phase ≠ .unpack) :
    s.stepsLeft = s.n.toNat - s.cur.toNat + ((s.n.toNat - 1) / 3841 - s.dictResets.toNat) + 1 :=
  if_neg hp

theorem State.stepsLeft_pos (s : State) : 0 < s.stepsLeft := by
  rw [State.stepsLeft, decodeStepsBound_eq]
  split <;> omega

end

/-! ### What a turn of a run can do -/

/-- `t` is an end of the run on the input of `s` (42_host.md R126): the result, the registers of the BitUnpacker
(40_unpacker.md R89), and the dictionary resets, which at an error are the generations before ERR_POS (41_decoder.md
R112). -/
structure RunEnded (s t : State) : Prop where
  shows : ShowsResult t s.runResult
  n : t.n.toNat = codeCount s.inLen.toNat
  tailDropped : t.tailDropped = decide (s.inLen.toNat % 3 = 1)
  resets_done : t.phase = .done → t.dictResets.toNat = (t.n.toNat - 1) / 3841
  resets_error : t.phase = .error → t.dictResets.toNat = t.errPos.toNat / 3841

/-- `t` has the input and the turns of `s`. -/
structure SameRun (s t : State) : Prop where
  inLen : t.inLen = s.inLen
  outMax : t.outMax = s.outMax
  input : t.input = s.input
  turns : t.turns = s.turns

theorem SameRun.runResult {s t : State} (same : SameRun s t) : t.runResult = s.runResult := by
  rw [State.runResult, State.runResult, same.outMax, same.input]

theorem SameRun.runEnded {s t u : State} (same : SameRun s t) (h : RunEnded t u) : RunEnded s u where
  shows := same.runResult ▸ h.shows
  n := same.inLen ▸ h.n
  tailDropped := same.inLen ▸ h.tailDropped
  resets_done := h.resets_done
  resets_error := h.resets_error

/-- A turn of a run ends it, or leaves fewer steps of it. -/
inductive RunTurn (s t : State) : Prop
  | ends (hend : t.phase.ended = true) (h : RunEnded s t)
  | goesOn (hbusy : t.phase.busy = true) (same : SameRun s t) (hleft : t.stepsLeft < s.stepsLeft)

theorem code_toNat_setWidth (c : Code) : (c.setWidth 32 : Word).toNat = c.toNat := by
  have := c.isLt
  rw [BitVec.toNat_setWidth]
  omega

/-- An error entry ends the run where Decode ends with the record. -/
theorem runTurn_raise {s : State} (h : DecodeInv s) {kind : ErrorKind} {pos val : Word}
    (hresult : s.runResult = .err kind pos.toNat val.toNat) (hresets : s.dictResets.toNat = pos.toNat / 3841) :
    RunTurn s (s.raise kind pos val) := by
  refine .ends rfl ⟨?shows, h.n, h.tailDropped, fun hp => Phase.noConfusion hp, fun _ => hresets⟩
  case shows =>
    rw [hresult]
    exact ⟨rfl, rfl, rfl, rfl, rfl⟩

/-- DEC_DONE ends the run after the last code (R104). -/
theorem runTurn_done {s : State} (hinv : Inv s) (hp : s.phase = .decLoop) (hcur : s.cur = s.n) :
    RunTurn s { s with phase := .done } := by
  have h := (phaseInv_decLoop hp).1 hinv.phase
  refine .ends rfl ⟨?shows, h.n, h.tailDropped, fun _ => (h.done hcur).dictResets, fun hp => Phase.noConfusion hp⟩
  case shows =>
    obtain ⟨herr, hpos, hval⟩ := (recordInv_clear (by simp [hp])).1 hinv.record
    rw [h.runResult_eq, List.drop_of_length_le (by rw [State.codeList_length, hcur]), refDecodeFrom]
    refine ⟨rfl, (State.output_length s).symm, herr, hpos, hval, fun j hj => ?_⟩
    obtain ⟨b, hb⟩ := Option.isSome_iff_exists.1 (h.listed j (by rwa [State.output_length] at hj))
    show Memory.read s.outMem j = _
    simp [State.output, hb]

theorem SameCodes.sameRun {s t : State} (same : SameCodes s t) (hturns : t.turns = s.turns) : SameRun s t :=
  ⟨same.inLen, same.outMax, same.input, hturns⟩

/-- A code that is consumed is a step less. -/
theorem Emitted.runTurn {s t : State} {chunk : Str} (e : Emitted chunk s t) (hs : s.phase ≠ .unpack)
    (ht : t.phase = .decLoop) (hcur : s.cur.toNat < s.n.toNat) (hresets : t.dictResets = s.dictResets)
    (hturns : t.turns = s.turns) : RunTurn s t := by
  refine .goesOn (congrArg Phase.busy ht) (e.toSameCodes.sameRun hturns) ?_
  rw [State.stepsLeft_of_decoder hs, State.stepsLeft_of_decoder (by simp [ht]), e.n, e.cur_toNat hcur, hresets]
  omega

/-- Bytes of IN that are consumed are a step less (40_unpacker.md R92). -/
theorem runTurn_unpackBytes {s : State} {k : Nat} (new : List Code) (hp : s.phase = .unpack)
    (hk : s.rp.toNat + k ≤ s.inLen.toNat)
    (hfewer : unpackSteps (s.inLen.toNat - s.rp.toNat) = unpackSteps (s.inLen.toNat - (s.rp.toNat + k)) + 1) :
    RunTurn s (s.unpackBytes k new) := by
  have hrp : (s.unpackBytes k new).rp.toNat = s.rp.toNat + k := word_add s.rp k (by omega)
  refine .goesOn (congrArg Phase.busy hp) ⟨rfl, rfl, State.input_congr rfl rfl rfl, rfl⟩ ?_
  rw [State.stepsLeft_of_unpack hp, State.stepsLeft_of_unpack (s := s.unpackBytes k new) hp, hrp, hfewer]
  show unpackSteps (s.inLen.toNat - _) + decodeStepsBound (codeCount s.inLen.toNat) < _
  omega

/-- UNPACK_END leaves the decoder its bound (40_unpacker.md R86). -/
theorem UnpackInv.runTurn_end {s : State} (h : UnpackInv s) (hp : s.phase = .unpack) (hleft : s.rp = s.inLen) :
    RunTurn s { s with phase := .decInit } := by
  refine .goesOn rfl ⟨rfl, rfl, State.input_congr rfl rfl rfl, rfl⟩ ?_
  have hn := h.n
  rw [hleft] at hn
  rw [State.stepsLeft_of_unpack hp, State.stepsLeft_of_decoder (fun e => Phase.noConfusion e), hleft, Nat.sub_self,
    decodeStepsBound_eq, ← hn, (unpackSteps_eq_one_iff 0).2 rfl]
  show s.n.toNat - s.cur.toNat + ((s.n.toNat - 1) / 3841 - s.dictResets.toNat) + 1 < _
  omega

/-- A dictionary reset is a step less, since a code of the next generation is left (R103, R112). -/
theorem LoopInv.runTurn_reset {s : State} (h : LoopInv s) (hp : s.phase = .decLoop) (hcur : s.cur.toNat < s.n.toNat)
    (hnext : s.next = 4096) : RunTurn s { s with dictResets := s.dictResets + 1, phase := .decInit } := by
  have hfull : s.next.toNat = 4096 := congrArg BitVec.toNat hnext
  have hcn := h.cur_next
  have hlt := s.cur.isLt
  refine .goesOn rfl ⟨rfl, rfl, State.input_congr rfl rfl rfl, rfl⟩ ?_
  rw [State.stepsLeft_of_decoder (s := s) (by simp [hp]), State.stepsLeft_of_decoder (fun e => Phase.noConfusion e)]
  show s.n.toNat - s.cur.toNat + ((s.n.toNat - 1) / 3841 - (s.dictResets + 1).toNat) + 1 < _
  rw [word_add_one s.dictResets (by omega)]
  omega

/-! ### The turn of each phase -/

theorem exists_turn_unpack {s : State} (hinv : Inv s) (hp : s.phase = .unpack) :
    ∃ t, stepBlock s = .next t ∧ RunTurn s t := by
  have h := (phaseInv_unpack hp).1 hinv.phase
  rcases Nat.lt_or_ge s.rp.toNat s.inLen.toNat with hlt | hge
  · obtain ⟨k, new, hstep, hk, hfewer⟩ := h.exists_stepBlock hp hlt
    exact ⟨_, hstep, runTurn_unpackBytes new hp hk hfewer⟩
  · have hleft : s.rp = s.inLen := BitVec.eq_of_toNat_eq (Nat.le_antisymm h.rp_le hge)
    exact ⟨_, stepBlock_of_none_left hp h.inLen_le hleft, h.runTurn_end hp hleft⟩

theorem exists_turn_decInit {s : State} (hinv : Inv s) (hp : s.phase = .decInit) :
    ∃ t, stepBlock s = .next t ∧ RunTurn s t := by
  have h := (phaseInv_decInit hp).1 hinv.phase
  have hresult := h.runResult_eq
  have hcr := h.cur_resets
  obtain ⟨hempty, hliteral, hundef⟩ := (decoderStepChosenByCodeAndNext s hinv).1 hp
  by_cases hcur : s.cur = s.n
  · obtain ⟨hn, hstep⟩ := hempty hcur
    rw [List.drop_of_length_le (by rw [State.codeList_length, hcur]), refDecodeFrom] at hresult
    rw [hcur, hn] at hcr
    exact ⟨_, hstep, runTurn_raise h.toDecodeInv hresult (by simpa using hcr.symm)⟩
  · have hlt := cur_lt_of_ne h.cur_le hcur
    rw [State.codeList_drop s _ hlt] at hresult
    rcases Nat.lt_or_ge (s.code s.cur.toNat).toNat 256 with hc | hc
    · rcases Nat.lt_or_ge s.outMax.toNat (s.olen.toNat + 1) with hover | hfit
      · have hval : (((s.code s.cur.toNat).setWidth 8).setWidth 32 : Word).toNat = (s.code s.cur.toNat).toNat := by
          rw [BitVec.toNat_setWidth, BitVec.toNat_setWidth]
          omega
        rw [refDecodeFrom_firstOverflow _ hc (by rwa [State.output_length]), ← hval] at hresult
        exact ⟨_, (hliteral hcur hc).trans (exec_decInit_of_overflow _ hover),
          runTurn_raise h.toDecodeInv hresult (by omega)⟩
      · exact ⟨_, (hliteral hcur hc).trans (exec_decInit_of_fit _ hfit),
          (emitted_beginGeneration _ s).runTurn (by simp [hp]) rfl hlt rfl rfl⟩
    · rw [refDecodeFrom_firstUndefined _ hc, ← code_toNat_setWidth] at hresult
      exact ⟨_, hundef hcur hc, runTurn_raise h.toDecodeInv hresult (by omega)⟩

/-- No chunk is a code above NEXT (R102). -/
theorem State.lt_of_refChunk_none {s : State} {c : Code} (h : refChunk s.dictList s.prev c = none) :
    s.next.toNat < c.toNat := by
  rw [refChunk, State.dictList_length] at h
  split at h
  · next hc =>
    rw [State.dictList_get s _ hc] at h
    cases h
  · split at h
    · cases h
    · omega

/-- No chunk is empty (R113). -/
theorem LoopInv.chunk_ne_nil {s : State} (h : LoopInv s) {c : Code} {chunk : Str}
    (hchunk : refChunk s.dictList s.prev c = some chunk) : chunk ≠ [] := by
  rcases h.chunk_cases hchunk with ⟨hc, hread⟩ | ⟨_, rfl⟩
  · obtain ⟨str, hread', hne, _⟩ := h.defined _ hc
    obtain rfl : chunk = str := Option.some.inj (hread.symm.trans hread')
    exact hne
  · exact List.append_ne_nil_of_left_ne_nil h.prev_ne _

/-- A code that has a chunk runs Append of it and the definition of slot NEXT (R100, R101). -/
theorem stepBlock_of_chunk {s : State} (hinv : Inv s) (hp : s.phase = .decLoop) (hcur : s.cur ≠ s.n)
    (hnext : s.next ≠ 4096) {chunk : Str}
    (hchunk : refChunk s.dictList s.prev (s.code s.cur.toNat) = some chunk) :
    stepBlock s = appendThen chunk (s.code s.cur.toNat) s (defineEntry chunk (s.code s.cur.toNat)) := by
  have h := (phaseInv_decLoop hp).1 hinv.phase
  obtain ⟨_, _, hdefined, hselfref, _⟩ := (decoderStepChosenByCodeAndNext s hinv).2 hp
  rcases h.chunk_cases hchunk with ⟨hc, hread⟩ | ⟨hc, rfl⟩
  · have hslot : s.slot (s.code s.cur.toNat).toNat = chunk := by rw [State.slot, hread, Option.getD_some]
    rw [hdefined hcur hnext hc, exec_decStepDefined (by have := h.next_lt hnext; omega), hslot]
  · obtain ⟨first, rest, hprev⟩ := List.exists_cons_of_ne_nil h.prev_ne
    have htake : s.prev.take 1 = [first] := by rw [hprev, List.take_succ_cons, List.take_zero]
    rw [hselfref hcur hnext hc, exec_decStepSelfref _ hprev, htake]

theorem exists_turn_decLoop {s : State} (hinv : Inv s) (hp : s.phase = .decLoop) :
    ∃ t, stepBlock s = .next t ∧ RunTurn s t := by
  have h := (phaseInv_decLoop hp).1 hinv.phase
  obtain ⟨hdone, hreset, _, _, hundef⟩ := (decoderStepChosenByCodeAndNext s hinv).2 hp
  by_cases hcur : s.cur = s.n
  · exact ⟨_, hdone hcur, runTurn_done hinv hp hcur⟩
  have hlt := cur_lt_of_ne h.cur_le hcur
  by_cases hnext : s.next = 4096
  · exact ⟨_, hreset hcur hnext, h.runTurn_reset hp hlt hnext⟩
  have hslots := h.next_lt hnext
  have hresets : s.dictResets.toNat = s.cur.toNat / 3841 := by
    have hge := h.next_ge
    have hcn := h.cur_next
    omega
  have hroom : s.dictList.length < Config.dictCap := by rwa [State.dictList_length]
  have hresult := h.runResult_eq
  rw [State.codeList_drop s _ hlt] at hresult
  cases hchunk : refChunk s.dictList s.prev (s.code s.cur.toNat) with
  | none =>
    rw [refDecodeFrom_undefined _ hroom hchunk, ← code_toNat_setWidth] at hresult
    exact ⟨_, hundef hcur hnext (State.lt_of_refChunk_none hchunk), runTurn_raise h.toDecodeInv hresult hresets⟩
  | some chunk =>
    have hstep := stepBlock_of_chunk hinv hp hcur hnext hchunk
    rcases Nat.lt_or_ge s.outMax.toNat (s.olen.toNat + chunk.length) with hover | hfit
    · rw [refDecodeFrom_overflow _ hroom hchunk (by rwa [State.output_length]), ← code_toNat_setWidth] at hresult
      exact ⟨_, hstep.trans (appendThen_of_overflow _ _ hover), runTurn_raise h.toDecodeInv hresult hresets⟩
    · obtain ⟨first, rest, rfl⟩ := List.exists_cons_of_ne_nil (h.chunk_ne_nil hchunk)
      exact ⟨_, hstep.trans (consume_of_fit _ hslots hfit),
        (emitted_consume first _ s).runTurn (by simp [hp]) hp hlt rfl rfl⟩

/-- A turn of the block in a run completes, and ends the run or goes on with it. -/
theorem exists_turn {s : State} (hinv : Inv s) (hb : s.phase.busy = true) :
    ∃ t, stepBlock s = .next t ∧ RunTurn s t := by
  cases hp : s.phase with
  | unpack => exact exists_turn_unpack hinv hp
  | decInit => exact exists_turn_decInit hinv hp
  | decLoop => exact exists_turn_decLoop hinv hp
  | idle | done | error => simp [hp, Phase.busy] at hb

/-- A turn of the block keeps the invariant. -/
theorem inv_stepBlock {s t : State} (hinv : Inv s) (h : stepBlock s = .next t) : Inv t := by
  unfold stepBlock at h
  split at h
  · cases h
    exact hinv
  · cases h
  · next f hf =>
    split at h
    · next i hd => exact inv_blockStep hinv (blockStep_of_exec (selected_of_fetchBlock hf hd) h)
    · cases h

/-- Settles O51: by the invariant, Decode of the codes left is Decode of the whole input, before the step and
after it. -/
theorem blockStepKeepsTheRemainingResult : Obligations.BlockStepKeepsTheRemainingResult := by
  intro s t hinv hp hstep before
  have hbefore : s.runResult = before := ((phaseInv_decLoop hp).1 hinv.phase).runResult_eq
  have hinv' := inv_stepBlock hinv hstep
  obtain ⟨u, hu, hturn⟩ := exists_turn hinv (congrArg Phase.busy hp)
  obtain rfl : t = u := Host.Outcome.next.inj (hstep.symm.trans hu)
  rw [← hbefore]
  cases hturn with
  | ends hend h =>
    refine ⟨fun ht => ?_, fun ht => ?_, fun _ => h.shows⟩ <;> simp [ht, Phase.ended] at hend
  | goesOn hbusy same hleft =>
    rw [← same.runResult]
    refine ⟨fun ht => ((phaseInv_decLoop ht).1 hinv'.phase).runResult_eq.symm,
      fun ht => ((phaseInv_decInit ht).1 hinv'.phase).runResult_eq.symm, fun ht => ?_⟩
    rcases ht with ht | ht <;> simp [ht, Phase.busy] at hbusy

/-! ### No state of the invariant stops -/

/-- Outside a run a turn of the block changes nothing (20_memory.md R58, 70_reset_and_hazards.md R153). -/
theorem stepBlock_of_not_busy {s : State} (hb : s.phase.busy = false) : stepBlock s = .next s := by
  have hf : fetchBlock s = none := by
    unfold fetchBlock
    cases hp : s.phase <;> simp [hp, Phase.busy] at hb ⊢
  simp only [stepBlock, hf]

/-- Every operation of the host completes (42_host.md R116). -/
theorem exists_execHost {i : Instr} (hi : i.isHost = true) (s : State) : ∃ t, exec i s = .next t := by
  cases i with
  | hostRd32 off => exact ⟨_, rfl⟩
  | hostStart ign => exact ⟨_, rfl⟩
  | hostAbort ign start => exact ⟨_, rfl⟩
  | hostWrInLen v => exact ⟨_, rfl⟩
  | hostWr32 off v =>
    simp only [exec, execHostWr32]
    split_ifs <;> exact ⟨_, rfl⟩
  | hostWrin a b =>
    simp only [exec, execHostWrin]
    split_ifs <;> exact ⟨_, rfl⟩
  | hostRdin a =>
    simp only [exec, execHostRdin]
    split_ifs <;> exact ⟨_, rfl⟩
  | hostRdout a =>
    simp only [exec, execHostRdout]
    split_ifs
    · exact ⟨_, rfl⟩
    · split <;> exact ⟨_, rfl⟩
    · exact ⟨_, rfl⟩
  | _ => cases hi

theorem exists_stepHost (s : State) : ∃ t, stepHost s = .next t := by
  match hprog : s.hostProg with
  | [] => exact ⟨s, by simp only [stepHost, hprog]⟩
  | .access a :: rest =>
    rw [stepHost_of_access hprog]
    exact exists_execHost (decodeHost_isHost a) _
  | .wait :: rest =>
    rw [stepHost_of_wait hprog]
    exact exists_execHost rfl _

/-- Settles O39: block reset and the host's turns always complete, and so does a turn of the block, in a
run and outside. -/
theorem invariantStatesNeverStop : Obligations.InvariantStatesNeverStop := by
  intro s hinv
  cases hm : s.mover with
  | block =>
    rw [step_of_mover_block hm]
    cases hb : s.phase.busy with
    | false => exact ⟨_, stepBlock_of_not_busy (s := s.popTurn) hb⟩
    | true =>
      obtain ⟨t, ht, _⟩ := exists_turn (inv_popTurn hinv) hb
      exact ⟨t, ht⟩
  | host =>
    rw [step_of_mover_host hm]
    exact exists_stepHost _
  | blockReset => exact ⟨blockReset s.popTurn, by simp only [step, hm]⟩

/-! ### Whole runs -/

theorem EndsAfter.zero {t : State} (hend : t.phase.ended = true) : EndsAfter t 0 t :=
  ⟨rfl, hend, fun j hj => absurd hj (Nat.not_lt_zero j)⟩

theorem EndsAfter.of_step {s u t : State} {k : Nat} (hb : s.phase.busy = true) (hstep : step s = .next u)
    (h : EndsAfter u k t) : EndsAfter s (k + 1) t := by
  obtain ⟨hrun, hend, hbefore⟩ := h
  refine ⟨(run_succ Sys2Proof.core k hstep).trans hrun, hend, fun j hj => ?_⟩
  cases j with
  | zero => exact ⟨s, rfl, hb⟩
  | succ j =>
    obtain ⟨v, hv, hbusy⟩ := hbefore j (Nat.lt_of_succ_lt_succ hj)
    exact ⟨v, (run_succ Sys2Proof.core j hstep).trans hv, hbusy⟩

/-- From every state of a run, with no other agent moving, the run ends in the steps left, by induction on them (R115,
R126). -/
theorem exists_endsAfter {s : State} (hinv : Inv s) (hb : s.phase.busy = true) (ht : s.turns = []) :
    ∃ k t, k ≤ s.stepsLeft ∧ EndsAfter s k t ∧ RunEnded s t := by
  induction hm : s.stepsLeft using Nat.strong_induction_on generalizing s with
  | _ m ih =>
    obtain ⟨u, hblock, hturn⟩ := exists_turn hinv hb
    have hstep : step s = .next u := (step_of_busy ht hb).trans hblock
    cases hturn with
    | ends hend h => exact ⟨1, u, hm ▸ s.stepsLeft_pos, .of_step hb hstep (.zero hend), h⟩
    | goesOn hbusy same hleft =>
      obtain ⟨k, t, hk, hends, h⟩ :=
        ih _ (hm ▸ hleft) (inv_stepBlock hinv hblock) hbusy (same.turns.trans ht) rfl
      exact ⟨k + 1, t, by omega, .of_step hb hstep hends, same.runEnded h⟩

/-- An accepted START begins a run that ends within the bounds of R92 and R115 (42_host.md R122). -/
theorem exists_endsAfter_startRun {s : State} (hinv : Inv s) (hb : s.phase.busy = false) (ht : s.turns = [])
    (hlen : s.inLen.toNat ≤ s.inMax.toNat) :
    ∃ k t, k ≤ unpackSteps s.inLen.toNat + decodeStepsBound (codeCount s.inLen.toNat) ∧
      EndsAfter (startRun s) k t ∧ RunEnded s t := by
  have hsame : SameRun s { s.clearRun.forget with phase := .unpack } :=
    ⟨rfl, rfl, State.input_congr rfl rfl rfl, rfl⟩
  obtain ⟨k, t, hk, hends, h⟩ := exists_endsAfter (inv_startedRun hinv.space hlen) rfl ht
  rw [← startRun_of_accepted hb hlen] at hends
  exact ⟨k, t, hk, hends, hsame.runEnded h⟩

/-! ### Two runs on one input -/

/-- Where OUT shows `out`, OUT[0 .. OLEN - 1] is it. -/
theorem ShowsResult.output_eq {t : State} {out : Str} (h : ShowsResult t (.ok out)) : t.output = out := by
  obtain ⟨hp, hlen, _, _, _, hread⟩ := h
  have holen : t.olen.toNat = out.length := by rwa [State.outLen, hp] at hlen
  refine List.ext_getElem ((State.output_length t).trans holen) fun j _ hj => ?_
  simp [State.output, hread j hj]

/-- The two states show the host the same of what a result determines: STATUS but for TAIL_DROPPED, the record, OUT_LEN
and, in DONE, the output. -/
structure SameView (t t' : State) : Prop where
  phase : t.phase = t'.phase
  err : t.err = t'.err
  errPos : t.errPos = t'.errPos
  errVal : t.errVal = t'.errVal
  outLen : t.outLen = t'.outLen
  output : t.phase = .done → t.output = t'.output

theorem ShowsResult.sameView {t t' : State} {r : RunResult} (h : ShowsResult t r) (h' : ShowsResult t' r) :
    SameView t t' := by
  cases r with
  | ok out =>
    have houtput : t.output = t'.output := h.output_eq.trans h'.output_eq.symm
    obtain ⟨hp, hlen, herr, hpos, hval, _⟩ := h
    obtain ⟨hp', hlen', herr', hpos', hval', _⟩ := h'
    exact ⟨hp.trans hp'.symm, herr.trans herr'.symm, hpos.trans hpos'.symm, hval.trans hval'.symm,
      BitVec.eq_of_toNat_eq (hlen.trans hlen'.symm), fun _ => houtput⟩
  | err kind pos val =>
    obtain ⟨hp, hlen, herr, hpos, hval⟩ := h
    obtain ⟨hp', hlen', herr', hpos', hval'⟩ := h'
    exact ⟨hp.trans hp'.symm, herr.trans herr'.symm, BitVec.eq_of_toNat_eq (hpos.trans hpos'.symm),
      BitVec.eq_of_toNat_eq (hval.trans hval'.symm), hlen.trans hlen'.symm, fun e => by simp [hp] at e⟩

/-- DICT_RESETS at an end is told by the result (R112). -/
theorem RunEnded.dictResets_eq {s s' t t' : State} (h : RunEnded s t) (h' : RunEnded s' t') (hview : SameView t t')
    (hn : t.n = t'.n) (hend : t.phase.ended = true) : t.dictResets = t'.dictResets := by
  apply BitVec.eq_of_toNat_eq
  rcases (Phase.ended_iff _).1 hend with hp | hp
  · rw [h.resets_done hp, h'.resets_done (hview.phase ▸ hp), hn]
  · rw [h.resets_error hp, h'.resets_error (hview.phase ▸ hp), hview.errPos]

/-- Settles O50: both runs end within the bound, with the result of Decode on the one input. -/
theorem runDependsOnItsInputOnly : Obligations.RunDependsOnItsInputOnly := by
  intro s s' hinv hinv' hb hb' ht ht' hinLen hinput houtMax hlen hlen'
  obtain ⟨k, t, hk, hends, h⟩ := exists_endsAfter_startRun hinv hb ht hlen
  obtain ⟨k', t', hk', hends', h'⟩ := exists_endsAfter_startRun hinv' hb' ht' hlen'
  have hresult : s.runResult = s'.runResult := by rw [State.runResult, State.runResult, hinput, houtMax]
  have hview : SameView t t' := h.shows.sameView (hresult ▸ h'.shows)
  have hn : t.n = t'.n := BitVec.eq_of_toNat_eq (by rw [h.n, h'.n, hinLen])
  refine ⟨k, k', t, t', hk, hinLen ▸ hk', hends, hends', ?status, hview.errPos, hview.errVal, hn,
    h.dictResets_eq h' hview hn hends.2.1, hview.outLen, hview.output⟩
  case status => rw [State.status, State.status, hview.phase, hview.err, h.tailDropped, h'.tailDropped, hinLen]

end Sys2Proof.Machine
end

section
/-! PROOFS of the family 41_decoder.md, third part: a sequence of literals decodes to its bytes (R109). -/

namespace Sys2Proof.Machine

/-- The table has every one-byte string at its place, and is no larger than DICT (41_decoder.md R95). -/
structure HasLiterals (dict : List Str) : Prop where
  length_le : dict.length ≤ Config.dictCap
  literal : ∀ k < 256, dict[k]? = some [BitVec.ofNat 8 k]

theorem hasLiterals_refBase : HasLiterals refBase where
  length_le := by
    rw [refBase_length]
    decide
  literal := fun k hk => by simp [refBase, hk]

section
variable {dict : List Str} (h : HasLiterals dict)
include h

/-- A table that is not full keeps its literals when it grows (R105). -/
theorem HasLiterals.append (entry : Str) (hroom : dict.length < Config.dictCap) : HasLiterals (dict ++ [entry]) where
  length_le := by
    rw [List.length_append]
    exact hroom
  literal := fun k hk => by
    have hlt : k < dict.length := (List.getElem?_eq_some_iff.1 (h.literal k hk)).1
    rw [List.getElem?_append_left hlt]
    exact h.literal k hk

theorem HasLiterals.refChunk_literal (prev : Str) {c : Code} (hc : c.toNat < 256) :
    refChunk dict prev c = some [c.setWidth 8] := by
  have hread := h.literal c.toNat hc
  rw [refChunk, if_pos (List.getElem?_eq_some_iff.1 hread).1, hread]
  exact congrArg (fun b => some [b]) (BitVec.eq_of_toNat_eq (by simp))

/-- One literal against a table, which is discarded where it is full (R103, R109). -/
theorem HasLiterals.decode_literal {outMax i : Nat} {out prev : Str} {c : Code} (rest : List Code)
    (hc : c.toNat < 256) (hfit : out.length + 1 ≤ outMax) :
    ∃ dict', HasLiterals dict' ∧
      refDecodeFrom outMax (some (dict, prev)) i out (c :: rest) =
        refDecodeFrom outMax (some (dict', [c.setWidth 8])) (i + 1) (out ++ [c.setWidth 8]) rest := by
  rcases Nat.lt_or_eq_of_le h.length_le with hroom | hfull
  · exact ⟨_, h.append _ hroom, refDecodeFrom_consume rest hroom (h.refChunk_literal prev hc) hfit⟩
  · refine ⟨refBase, hasLiterals_refBase, ?_⟩
    rw [refDecodeFrom_full _ hfull (List.cons_ne_nil c rest)]
    exact refDecodeFrom_literal rest hc hfit

end

/-- Literals that fit OUT are appended one by one. -/
theorem HasLiterals.decode_literals {outMax : Nat} {cs : List Code} (hcs : ∀ c ∈ cs, c.toNat < 256) :
    ∀ {dict : List Str} {prev out : Str} {i : Nat}, HasLiterals dict → out.length + cs.length ≤ outMax →
      refDecodeFrom outMax (some (dict, prev)) i out cs = .ok (out ++ cs.map fun c => c.setWidth 8) := by
  induction cs with
  | nil =>
    intro dict prev out i _ _
    rw [refDecodeFrom, List.map_nil, List.append_nil]
  | cons c rest ih =>
    intro dict prev out i h hfit
    rw [List.length_cons] at hfit
    obtain ⟨dict', h', hstep⟩ :=
      h.decode_literal (prev := prev) (i := i) rest (hcs c List.mem_cons_self)
        (show out.length + 1 ≤ outMax by omega)
    have hroom : (out ++ [c.setWidth 8]).length + rest.length ≤ outMax := by
      rw [List.length_append, List.length_singleton]
      omega
    rw [hstep, ih (fun c hc => hcs c (List.mem_cons_of_mem _ hc)) h' hroom, List.append_assoc, List.singleton_append,
      List.map_cons]

/-- Settles O52: the first literal opens a generation, and the others follow by induction. -/
theorem literalsDecodeToThemselves : Obligations.LiteralsDecodeToThemselves := by
  intro outMax cs hne hcs hfit
  obtain ⟨c, rest, rfl⟩ := List.exists_cons_of_ne_nil hne
  rw [List.length_cons] at hfit
  rw [refDecode, refDecodeFrom_literal rest (hcs c List.mem_cons_self) (show 0 + 1 ≤ outMax by omega),
    hasLiterals_refBase.decode_literals (fun c hc => hcs c (List.mem_cons_of_mem _ hc))
      (show 1 + rest.length ≤ outMax by omega)]
  rfl

end Sys2Proof.Machine
end

section
/-! PROOFS of the family 41_decoder.md, fourth part: what DICT stores at NEXT and above never matters (R107,
10_state.md R20). -/

namespace Sys2Proof.Machine

/-- The states that are `s` but for what DICT stores at NEXT and above. -/
inductive AgreesBelowNext (s : State) : State → Prop
  | withDict (d : Memory Str) (hread : ∀ k < s.next.toNat, Memory.read d k = Memory.read s.dict k) :
      AgreesBelowNext s { s with dict := d }

/-- Where `r` is a next state, `r'` is one that agrees with it. -/
def AgreeingResults (r r' : Result) : Prop := ∀ t, r = .next t → ∃ t', r' = .next t' ∧ AgreesBelowNext t t'

theorem AgreesBelowNext.result {t t' : State} (h : AgreesBelowNext t t') : AgreeingResults (.next t) (.next t') := by
  rintro _ ⟨⟩
  exact ⟨t', rfl, h⟩

theorem agreeingResults_fault (f : Fault) (r' : Result) : AgreeingResults (.fault f) r' := by
  rintro _ ⟨⟩

theorem AgreeingResults.ite {p : Prop} [Decidable p] {a a' b b' : Result} (ha : p → AgreeingResults a a')
    (hb : ¬ p → AgreeingResults b b') : AgreeingResults (if p then a else b) (if p then a' else b') := by
  split
  · next h => exact ha h
  · next h => exact hb h

/-! ### The shared operations -/

section
variable {s s' : State} (h : AgreesBelowNext s s')
include h

/-- DICT is forgotten on both sides. -/
theorem AgreesBelowNext.raise (kind : ErrorKind) (pos val : Word) :
    AgreesBelowNext (s.raise kind pos val) (s'.raise kind pos val) := by
  cases h with
  | withDict d hread => exact .withDict [] fun _ _ => rfl

theorem AgreesBelowNext.abortRun : AgreesBelowNext (abortRun s) (abortRun s') := by
  cases h with
  | withDict d hread => exact .withDict [] fun _ _ => rfl

theorem AgreesBelowNext.blockReset : AgreesBelowNext (blockReset s) (blockReset s') := by
  cases h with
  | withDict d hread => exact .withDict [] fun _ _ => rfl

theorem AgreesBelowNext.startRun : AgreesBelowNext (startRun s) (startRun s') := by
  cases h with
  | withDict d hread =>
    rcases startRun_cases s with ⟨hb, e⟩ | ⟨hb, hlen, e⟩ | ⟨hb, hlen, e⟩ <;> rw [e]
    · rw [Machine.startRun, if_pos hb]
      exact .withDict d hread
    · rw [Machine.startRun, if_neg (ne_true_of_eq_false hb), if_pos hlen]
      exact .withDict [] fun _ _ => rfl
    · rw [startRun_of_accepted (s := { s with dict := d }) hb hlen]
      exact .withDict [] fun _ _ => rfl

theorem AgreesBelowNext.writeInLen (v : Word) : AgreesBelowNext (writeInLen v s) (writeInLen v s') := by
  cases h with
  | withDict d hread =>
    rcases writeInLen_cases v s with ⟨hb, e⟩ | ⟨hb, e⟩ <;> rw [e]
    · rw [Machine.writeInLen, if_pos hb]
      exact .withDict d hread
    · rw [Machine.writeInLen, if_neg (ne_true_of_eq_false hb)]
      exact .withDict d hread

theorem AgreesBelowNext.appendOut (chunk : Str) : AgreesBelowNext (s.appendOut chunk) (s'.appendOut chunk) := by
  cases h with
  | withDict d hread => exact .withDict d hread

/-- BuildBase writes all slots below the NEXT that it sets (R95). -/
theorem AgreesBelowNext.buildBase : AgreesBelowNext s.buildBase s'.buildBase := by
  cases h with
  | withDict d hread =>
    refine .withDict (State.buildBase { s with dict := d }).dict fun k hk => ?_
    have hk : k < 256 := hk
    rw [State.read_buildBase, State.read_buildBase, if_pos hk, if_pos hk]

/-- The slot that comes below NEXT is written on both sides (R105). -/
theorem AgreesBelowNext.grow (first : Byte) (chunk : Str) (hnext : s.next.toNat < Config.dictCap) :
    AgreesBelowNext (s.grow first chunk) (s'.grow first chunk) := by
  cases h with
  | withDict d hread =>
    refine .withDict (Memory.write d s.next.toNat (s.prev ++ [first])) fun k hk => ?_
    have hk : k < (s.next + 1).toNat := hk
    rw [next_add_one s.next hnext] at hk
    rw [State.grow_dict, Memory.read_write, Memory.read_write]
    split
    · rfl
    · exact hread k (by omega)

theorem AgreesBelowNext.appendThen (chunk : Str) (c : Code) {rest rest' : State → Result}
    (hrest : AgreeingResults (rest (s.appendOut chunk)) (rest' (s'.appendOut chunk))) :
    AgreeingResults (appendThen chunk c s rest) (appendThen chunk c s' rest') := by
  have hraise := h.raise .outputOverflow s.cur (c.setWidth 32)
  cases h with
  | withDict d hread => exact .ite (fun _ => hraise.result) fun _ => hrest

theorem AgreesBelowNext.defineEntry (chunk : Str) (c : Code) :
    AgreeingResults (defineEntry chunk c s) (defineEntry chunk c s') := by
  have hraise := h.raise .malformedInput s.cur (c.setWidth 32)
  have hgrow := h.grow (chunk := chunk)
  cases h with
  | withDict d hread =>
    cases chunk with
    | nil => exact hraise.result
    | cons first rest => exact .ite (fun hnext => (hgrow first hnext).result) fun _ => agreeingResults_fault _ _

/-- The end of a main-loop step. -/
theorem AgreesBelowNext.consume (chunk : Str) (c : Code) :
    AgreeingResults (Machine.appendThen chunk c s (Machine.defineEntry chunk c))
      (Machine.appendThen chunk c s' (Machine.defineEntry chunk c)) :=
  h.appendThen chunk c ((h.appendOut chunk).defineEntry chunk c)

end

/-! ### The operations -/

/-- DEC_INIT writes every slot that it leaves below NEXT (R97). -/
theorem AgreesBelowNext.exec_decInit {s s' : State} (h : AgreesBelowNext s s') (c : Byte) :
    AgreeingResults (exec (.decInit c) s) (exec (.decInit c) s') := by
  have hraise := h.raise .outputOverflow s.cur (c.setWidth 32)
  cases h with
  | withDict d hread =>
    rcases Nat.lt_or_ge s.outMax.toNat (s.olen.toNat + 1) with hover | hfit
    · rw [exec_decInit_of_overflow c hover, exec_decInit_of_overflow (s := { s with dict := d }) c hover]
      exact hraise.result
    · rw [exec_decInit_of_fit c hfit, exec_decInit_of_fit (s := { s with dict := d }) c hfit]
      refine AgreesBelowNext.result (.withDict (State.beginGeneration c { s with dict := d }).dict fun k hk => ?_)
      have hk : k < 256 := hk
      simp only [State.read_beginGeneration, hk, if_true]

/-- DEC_STEP_DEFINED reads a slot below NEXT, where R94 selects it (R100). -/
theorem AgreesBelowNext.exec_decStepDefined {s s' : State} (h : AgreesBelowNext s s') {c : Code}
    (hc : c.toNat < s.next.toNat) :
    AgreeingResults (exec (.decStepDefined c) s) (exec (.decStepDefined c) s') := by
  have hconsume := h.consume (s.slot c.toNat) c
  cases h with
  | withDict d hread =>
    have hslot : State.slot { s with dict := d } c.toNat = s.slot c.toNat := by
      simp only [State.slot, hread _ hc]
    refine .ite (fun _ => ?_) fun _ => agreeingResults_fault _ _
    rw [hslot]
    exact hconsume

/-- DEC_STEP_SELFREF reads no slot (R101). -/
theorem AgreesBelowNext.exec_decStepSelfref {s s' : State} (h : AgreesBelowNext s s') (c : Code) :
    AgreeingResults (exec (.decStepSelfref c) s) (exec (.decStepSelfref c) s') := by
  have hprev' : s'.prev = s.prev := by cases h; rfl
  have hcur' : s'.cur = s.cur := by cases h; rfl
  cases hprev : s.prev with
  | nil =>
    rw [exec_decStepSelfref_of_nil c hprev, exec_decStepSelfref_of_nil c (hprev'.trans hprev), hcur']
    exact (h.raise _ _ _).result
  | cons first rest =>
    rw [Machine.exec_decStepSelfref c hprev, Machine.exec_decStepSelfref c (hprev'.trans hprev), hprev']
    exact h.consume (s.prev ++ [first]) c

/-- A read of OUT reads no slot (42_host.md R124). -/
theorem AgreesBelowNext.exec_hostRdout {s s' : State} (h : AgreesBelowNext s s') (a : Word) :
    AgreeingResults (exec (.hostRdout a) s) (exec (.hostRdout a) s') := by
  cases h with
  | withDict d hread =>
    refine .ite (fun _ => AgreesBelowNext.result (.withDict d hread)) fun _ => .ite (fun _ => ?listed) fun _ =>
      AgreesBelowNext.result (.withDict d hread)
    case listed =>
      dsimp only
      split <;> exact AgreesBelowNext.result (.withDict d hread)

/-- The other operations forget DICT, or neither read nor write a slot. -/
theorem AgreesBelowNext.exec {s s' : State} (h : AgreesBelowNext s s') {i : Instr}
    (hsel : ∀ c, i = .decStepDefined c → c.toNat < s.next.toNat) : AgreeingResults (exec i s) (exec i s') := by
  have hraise := h.raise
  have hstart := h.startRun
  have habort := h.abortRun
  have hinLen := h.writeInLen
  cases i with
  | decInit c => exact h.exec_decInit c
  | decStepDefined c => exact h.exec_decStepDefined (hsel c rfl)
  | decStepSelfref c => exact h.exec_decStepSelfref c
  | hostStart ign => exact hstart.result
  | hostAbort ign start => exact habort.result
  | hostWrInLen v => exact (hinLen v).result
  | hostRdout a => exact h.exec_hostRdout a
  | hostWr32 off v =>
    refine .ite (fun _ => .ite (fun _ => habort.result) fun _ => .ite (fun _ => hstart.result) fun _ => h.result)
      fun _ => .ite (fun _ => (hinLen v).result) fun _ => h.result
  | decEmpty => exact (hraise .malformedInput 0 0).result
  | decInitUndef c | decStepUndef c =>
    cases h with
    | withDict d hread => exact (hraise .undefinedCodeReference s.cur (c.setWidth 32)).result
  | unpack3 a b | unpackTail2 c =>
    cases h with
    | withDict d hread =>
      exact .ite (fun _ => agreeingResults_fault _ _) fun _ => AgreesBelowNext.result (.withDict d hread)
  | unpackTail1 | unpackEnd | decDictReset | decDone | hostRd32 =>
    cases h with
    | withDict d hread => exact AgreesBelowNext.result (.withDict d hread)
  | hostWrin a b | hostRdin a =>
    cases h with
    | withDict d hread =>
      exact .ite (fun _ => AgreesBelowNext.result (.withDict d hread)) fun _ =>
        AgreesBelowNext.result (.withDict d hread)

/-! ### A step -/

/-- The block fetches from IN and CODES only. -/
theorem fetchBlock_withDict (s : State) (d : Memory Str) : fetchBlock { s with dict := d } = fetchBlock s := by
  have hbytes := State.inBytes_congr (s := s) (t := { s with dict := d }) rfl rfl
  unfold fetchBlock fetchStream
  simp only [hbytes]
  rfl

theorem AgreesBelowNext.stepBlock {s s' : State} (h : AgreesBelowNext s s') :
    AgreeingResults (stepBlock s) (stepBlock s') := by
  have hfetch : fetchBlock s' = fetchBlock s := by
    cases h with
    | withDict d hread => exact fetchBlock_withDict s d
  unfold Machine.stepBlock
  rw [hfetch]
  split
  · exact h.result
  · exact agreeingResults_fault _ _
  · next f hf =>
    split
    · next i hd =>
      refine h.exec fun c hc => ?_
      subst hc
      cases selected_of_fetchBlock hf hd with
      | decStepDefined _ _ _ hlt => exact hlt
    · exact agreeingResults_fault _ _

/-- A host operation is no DEC_STEP_DEFINED. -/
theorem AgreesBelowNext.execHost {s s' : State} (h : AgreesBelowNext s s') {i : Instr} (hi : i.isHost = true) :
    AgreeingResults (Machine.exec i s) (Machine.exec i s') :=
  h.exec fun c hc => by simp [hc, Instr.isHost] at hi

theorem AgreesBelowNext.stepHost {s s' : State} (h : AgreesBelowNext s s') :
    AgreeingResults (stepHost s) (stepHost s') := by
  have hset (prog : List HostStmt) : AgreesBelowNext (s.setHostProg prog) (s'.setHostProg prog) := by
    cases h with
    | withDict d hread => exact .withDict d hread
  have hprog' : s'.hostProg = s.hostProg := by cases h; rfl
  have hphase' : s'.phase = s.phase := by cases h; rfl
  match hprog : s.hostProg with
  | [] =>
    simp only [Machine.stepHost, hprog'.trans hprog, hprog]
    exact h.result
  | .access a :: rest =>
    rw [stepHost_of_access hprog, stepHost_of_access (hprog'.trans hprog)]
    exact (hset rest).execHost (decodeHost_isHost a)
  | .wait :: rest =>
    rw [stepHost_of_wait hprog, stepHost_of_wait (hprog'.trans hprog), hphase']
    split
    · exact (hset rest).execHost rfl
    · exact h.execHost rfl

theorem AgreesBelowNext.step {s s' : State} (h : AgreesBelowNext s s') : AgreeingResults (step s) (step s') := by
  have hpop : AgreesBelowNext s.popTurn s'.popTurn := by
    cases h with
    | withDict d hread => exact .withDict d hread
  have hmover' : s'.mover = s.mover := by cases h; rfl
  unfold Machine.step
  rw [hmover']
  cases s.mover with
  | block => exact hpop.stepBlock
  | host => exact hpop.stepHost
  | blockReset => exact hpop.blockReset.result

/-- Settles O47: a step takes states that agree below NEXT to states that agree below their NEXT. -/
theorem staleSlotsAreNeverRead : Obligations.StaleSlotsAreNeverRead := by
  intro s s' t heq hread hstep
  have h : AgreesBelowNext s s' := heq ▸ .withDict s'.dict hread
  obtain ⟨t', hstep', hagree⟩ := h.step t hstep
  cases hagree with
  | withDict d hread' => exact ⟨_, hstep', rfl, hread'⟩

end Sys2Proof.Machine
end

section
/-! PROOFS of the family 42_host.md: a whole run against the function Run (R127), what each operation of the host does and
leaves alone (R117 to R124), and the BUSY rule (R125). -/

namespace Sys2Proof.Machine

/-! ### START (R122) -/

theorem startRun_of_busy {s : State} (hb : s.phase.busy = true) : startRun s = s := if_pos hb

/-- A START that is refused (60_exceptions.md R134). -/
theorem startRun_of_refused {s : State} (hb : s.phase.busy = false) (hlen : s.inMax.toNat < s.inLen.toNat) :
    startRun s = refuseRun s :=
  (if_neg (ne_true_of_eq_false hb)).trans (if_pos hlen)

/-- Settles O27: START does nothing, starts a run, or refuses it. -/
theorem hostStartBeginsARun : Obligations.HostStartBeginsARun :=
  fun _ s => ⟨fun hb => congrArg Host.Outcome.next (startRun_of_busy hb),
    fun hb hlen => ⟨_, congrArg Host.Outcome.next (startRun_of_accepted hb hlen), rfl⟩,
    fun hb hlen => ⟨refuseRun s, congrArg Host.Outcome.next (startRun_of_refused hb hlen), rfl, rfl, rfl, rfl⟩⟩

/-! ### Run (R127) -/

theorem State.input_length (s : State) : s.input.length = s.inLen.toNat := s.inBytes_length 0 _

/-- With L at most IN_MAX, Run is Decode of the codes of the input. -/
theorem refRun_of_accepted {s : State} (hlen : s.inLen.toNat ≤ s.inMax.toNat) :
    refRun s.inMax.toNat s.outMax.toNat s.input = s.runResult :=
  if_neg (by rw [s.input_length]; omega)

theorem refRun_of_refused {s : State} (hlen : s.inMax.toNat < s.inLen.toNat) :
    refRun s.inMax.toNat s.outMax.toNat s.input = .err .inputLengthRange 0 0 :=
  if_pos (by rwa [s.input_length])

/-- Settles O49: an accepted run ends as Decode of its codes says, and a refused one has ended at START. -/
theorem runShowsTheReferenceResult : Obligations.RunShowsTheReferenceResult := by
  intro s hinv hb ht
  by_cases hlen : s.inLen.toNat ≤ s.inMax.toNat
  case pos =>
    obtain ⟨k, t, hk, hends, h⟩ := exists_endsAfter_startRun hinv hb ht hlen
    rw [refRun_of_accepted hlen]
    exact ⟨k, t, hk, hends, h.shows, fun _ => ⟨h.n, h.tailDropped⟩, fun hgt => absurd hlen (Nat.not_le.2 hgt),
      h.resets_done, h.resets_error⟩
  case neg =>
    have hgt : s.inMax.toNat < s.inLen.toNat := Nat.not_le.1 hlen
    rw [startRun_of_refused hb hgt, refRun_of_refused hgt]
    exact ⟨0, refuseRun s, Nat.zero_le _, .zero rfl, ⟨rfl, rfl, rfl, rfl, rfl⟩, fun hle => absurd hle hlen,
      fun _ => ⟨rfl, rfl⟩, fun hp => Phase.noConfusion hp, fun _ => (Nat.zero_div 3841).symm⟩

/-! ### HostRead32 (R117) -/

/-- R33. -/
theorem State.outLen_eq (s : State) : s.outLen = if s.phase = .done then s.olen else 0 := by
  cases hp : s.phase <;> simp [State.outLen, hp]

/-- R39. -/
theorem State.regRead_of_unmapped {off : Word} (hoff : off.toNat % 4 ≠ 0 ∨ 0x24 < off.toNat) (s : State) :
    s.regRead off = 0 := by
  have hne (r : Word) (hr : r.toNat % 4 = 0 ∧ r.toNat ≤ 0x24) : off ≠ r := by
    rintro rfl
    omega
  unfold State.regRead
  iterate 9 refine (if_neg (hne _ (by decide))).trans ?_
  rfl

/-- Settles O24: the read answers `regRead`, whose value at each offset is the register. -/
theorem hostRead32ReturnsTheRegister : Obligations.HostRead32ReturnsTheRegister := by
  intro off s
  refine ⟨s.regRead off, rfl, ?_, ?_, ?_, ?outLen, ?_, ?_, ?_, ?_, ?_, ?_, fun hoff => s.regRead_of_unmapped hoff⟩
  case outLen =>
    rintro rfl
    exact s.outLen_eq
  all_goals
    rintro rfl
    rfl

/-! ### HostWrite32 (R118) -/

/-- A command bit of CTRL, as the model tests it (30_encoding.md R76). -/
theorem bit_eq_one_iff (v : Word) (i : Nat) : v.extractLsb' i 1 = 1#1 ↔ v.getLsbD i = true := by
  have hbit : v.extractLsb' i 1 = BitVec.ofBool (v.getLsbD i) := by
    ext j hj
    simp [show j = 0 by omega]
  rw [hbit]
  cases v.getLsbD i <;> decide

/-- Settles O26: at offset 0 the rule tests bit 1, then bit 0. -/
theorem hostWrite32Commands : Obligations.HostWrite32Commands := by
  intro off v s
  have hset {i : Nat} (h : v.getLsbD i = true) : v.extractLsb' i 1 = 1#1 := (bit_eq_one_iff v i).2 h
  have hclear {i : Nat} (h : v.getLsbD i = false) : v.extractLsb' i 1 ≠ 1#1 := by simp [bit_eq_one_iff, h]
  refine ⟨?abort, ?start, ?none, ?inLen, ?other⟩
  case abort => exact fun h0 b1 _ _ => (if_pos h0).trans (if_pos (hset b1))
  case start => exact fun h0 b1 b0 _ => (if_pos h0).trans ((if_neg (hclear b1)).trans (if_pos (hset b0)))
  case none => exact fun h0 b1 b0 => (if_pos h0).trans ((if_neg (hclear b1)).trans (if_neg (hclear b0)))
  case inLen =>
    rintro rfl
    rfl
  case other => exact fun h0 h8 => (if_neg h0).trans (if_neg h8)

/-! ### ABORT (R123) and writes of IN_LEN (R119) -/

/-- Settles O28: everything ABORT does not clear stays. -/
theorem hostAbortReturnsToIdle : Obligations.HostAbortReturnsToIdle :=
  fun _ _ s => ⟨abortRun s, rfl, rfl⟩

theorem writeInLen_of_busy (v : Word) {s : State} (hb : s.phase.busy = true) : writeInLen v s = s := if_pos hb

/-- Settles O29: the value is stored outside a run only. -/
theorem hostWriteInLenStores : Obligations.HostWriteInLenStores :=
  fun v _ => ⟨fun hb => congrArg Host.Outcome.next (if_neg (ne_true_of_eq_false hb)),
    fun hb => congrArg Host.Outcome.next (writeInLen_of_busy v hb)⟩

/-! ### HostWriteIn (R120) and HostReadIn (R121) -/

/-- A byte of IN after a write of one. -/
theorem State.inByte_write (s : State) (a : Nat) (b : Byte) (k : Nat) :
    State.inByte { s with inMem := Memory.write s.inMem a b } k = if k = a then b else s.inByte k := by
  simp only [State.inByte, Memory.read_write]
  split <;> rfl

/-- Settles O30: a write outside a run and below IN_MAX changes one byte, and any other none. -/
theorem hostWriteInStores : Obligations.HostWriteInStores := by
  intro a b s
  refine ⟨fun hb ha => ⟨_, if_pos ⟨hb, ha⟩, rfl, ?same, fun k hk => ?other⟩, fun h => if_neg ?ignored⟩
  case same => rw [State.inByte_write, if_pos rfl]
  case other => rw [State.inByte_write, if_neg hk]
  case ignored =>
    rintro ⟨hb, ha⟩
    rcases h with h | h
    · simp [hb] at h
    · omega

/-- Settles O31: below IN_MAX the read answers the byte the block reads. -/
theorem hostReadInReturnsTheByte : Obligations.HostReadInReturnsTheByte := by
  intro a s
  refine ⟨fun ha => ⟨if_pos ha, fun b hread => ?listed⟩, fun ha => if_neg (Nat.not_lt.2 ha)⟩
  case listed => rw [State.inByte, hread, Option.getD_some]

/-! ### HostReadOut (R124) -/

section
variable {a : Word} {s : State}

/-- At an appended byte in DONE. -/
theorem exec_hostRdout_of_listed (ha : a.toNat < s.outMax.toNat) (hp : s.phase = .done) (holen : a.toNat < s.olen.toNat)
    {b : Byte} (hread : Memory.read s.outMem a.toNat = some b) :
    exec (.hostRdout a) s = .next { s with rdata := b.setWidth 32 } := by
  simp only [exec, execHostRdout]
  rw [if_neg (Nat.not_le.2 ha), if_pos ⟨hp, holen⟩, hread]
  rfl

/-- In any other phase, or from OLEN on. -/
theorem exec_hostRdout_of_draw (ha : a.toNat < s.outMax.toNat) (h : s.phase ≠ .done ∨ s.olen.toNat ≤ a.toNat) :
    exec (.hostRdout a) s = .next s.drawOut := by
  have hundefined : ¬ (s.phase = .done ∧ a.toNat < s.olen.toNat) := by
    rintro ⟨hp, holen⟩
    rcases h with h | h
    · exact h hp
    · omega
  exact (if_neg (Nat.not_le.2 ha)).trans (if_neg hundefined)

end

/-- Settles O32: by the invariant of DONE, every byte below OLEN was appended, and OLEN is at most OUT_MAX. -/
theorem hostReadOutReturnsTheByte : Obligations.HostReadOutReturnsTheByte := by
  intro a s
  refine ⟨fun ha => if_pos ha, fun ha hp holen _ hread => exec_hostRdout_of_listed ha hp holen hread, ?appended,
    fun ha h => ⟨_, exec_hostRdout_of_draw ha h⟩⟩
  case appended =>
    intro hinv hp holen
    have h := (phaseInv_done hp).1 hinv.phase
    obtain ⟨b, hread⟩ := Option.isSome_iff_exists.1 (h.listed a.toNat holen)
    exact ⟨b, hread, exec_hostRdout_of_listed (Nat.lt_of_lt_of_le holen h.olen_outMax) hp holen hread⟩

/-! ### The BUSY rule (R125) -/

/-- Settles O33: each clause is the rule of its operation, in a BUSY state. -/
theorem busyRule : Obligations.BusyRule := by
  intro s hb
  refine ⟨fun a b => (hostWriteInStores a b s).2 (.inl hb), fun v => (hostWriteInLenStores v s).2 hb,
    fun ign => (hostStartBeginsARun ign s).1 hb, fun _ _ => ⟨abortRun s, rfl, rfl⟩, fun off => ⟨s.regRead off, rfl⟩,
    fun a => ?readIn, fun a ha => ⟨_, exec_hostRdout_of_draw ha (.inl ?notDone)⟩⟩
  case readIn =>
    obtain ⟨hbelow, habove⟩ := hostReadInReturnsTheByte a s
    rcases Nat.lt_or_ge a.toNat s.inMax.toNat with ha | ha
    · exact ⟨_, (hbelow ha).1⟩
    · exact ⟨_, habove ha⟩
  case notDone =>
    intro hp
    simp [hp, Phase.busy] at hb

/-- Settles O34: while BUSY, START and the writes of IN_LEN and IN are ignored, and the reads change the host's variable. -/
theorem hostAccessesDoNotDisturbARun : Obligations.HostAccessesDoNotDisturbARun := by
  intro i s t hi habort hb hexec
  rcases execHost_cases hi hexec with ⟨ha, _⟩ | ⟨_, rfl⟩ | ⟨_, _, ⟨v, _, rfl⟩ | ⟨_, _, _, hidle, _⟩ | hread⟩
  · simp [habort] at ha
  · rw [startRun_of_busy hb]
  · rw [writeInLen_of_busy v hb]
  · simp [hb] at hidle
  · exact hread

end Sys2Proof.Machine
end

section
/-! PROOFS of the family 60_exceptions.md: the error entry as the host reads it (R135), what leaves an ended run (R143),
and which errors a state of the invariant can raise (R133, R137). -/

namespace Sys2Proof.Machine

/-! ### The error entry (R135) -/

/-- Settles O16: the entry fixes the fields that the registers show, and OUT_LEN shows OLEN in DONE only. -/
theorem errorEntryIsWhatTheHostReads : Obligations.ErrorEntryIsWhatTheHostReads := by
  refine ⟨errorEntered_raise, fun kind pos val s t h => ?_⟩
  unfold ErrorEntered at h
  have hphase : t.phase = .error := by rw [h]
  have herr : t.err = kind.code := by rw [h]
  have htail : t.tailDropped = s.tailDropped := by rw [h]
  have houtLen : t.outLen = 0 := by simp [State.outLen_eq, hphase]
  obtain ⟨hstate, htailBit, _, herrField, _⟩ := statusFields t
  rw [hphase] at hstate
  refine ⟨hstate, ?err, ?tail, ?_, ?_, houtLen, ?_, ?_, ?_⟩
  case err =>
    refine (herrField.trans herr).trans ?_
    cases kind <;> rfl
  case tail => exact (htailBit.trans htail).trans (statusFields s).2.1.symm
  all_goals
    rw [h]
    rfl

/-! ### What leaves an ended run (R143) -/

/-- `t` has the phase, the record and the output of `s`. -/
structure SameEnd (s t : State) : Prop where
  phase : t.phase = s.phase
  err : t.err = s.err
  errPos : t.errPos = s.errPos
  errVal : t.errVal = s.errVal
  outMem : t.outMem = s.outMem
  olen : t.olen = s.olen

theorem SameEnd.outLen {s t : State} (same : SameEnd s t) : t.outLen = s.outLen := by
  rw [State.outLen_eq, State.outLen_eq, same.phase, same.olen]

theorem SameEnd.trans {s t u : State} (h : SameEnd s t) (h' : SameEnd t u) : SameEnd s u :=
  ⟨h'.phase.trans h.phase, h'.err.trans h.err, h'.errPos.trans h.errPos, h'.errVal.trans h.errVal,
    h'.outMem.trans h.outMem, h'.olen.trans h.olen⟩

/-- A host operation that is no command keeps the end of a run. -/
theorem execHost_sameEnd {i : Instr} {s t : State} (hi : i.isHost = true) (h : exec i s = .next t) :
    (i.isAbort = true ∧ t = abortRun s) ∨ (i.isStart = true ∧ t = startRun s) ∨ SameEnd s t := by
  rcases execHost_cases hi h with habort | hstart | ⟨_, _, ⟨v, _, rfl⟩ | ⟨_, _, _, _, _, rfl⟩ | hread⟩
  · exact .inl habort
  · exact .inr (.inl hstart)
  · rcases writeInLen_cases v s with ⟨_, e⟩ | ⟨_, e⟩ <;> rw [e] <;> exact .inr (.inr ⟨rfl, rfl, rfl, rfl, rfl, rfl⟩)
  · exact .inr (.inr ⟨rfl, rfl, rfl, rfl, rfl, rfl⟩)
  · rw [hread]
    exact .inr (.inr ⟨rfl, rfl, rfl, rfl, rfl, rfl⟩)

theorem sameEnd_advance (s : State) : SameEnd s s.advance := by
  rw [advance_eq]
  exact ⟨rfl, rfl, rfl, rfl, rfl, rfl⟩

/-- Settles O41: the block takes no step after the end, and of the host's operations only the commands change it. -/
theorem endedRunIsLeftOnlyByCommand : Obligations.EndedRunIsLeftOnlyByCommand := by
  intro s t hended hstep
  have hkeeps (same : SameEnd s t) : t.phase = s.phase ∧ t.err = s.err ∧ t.errPos = s.errPos ∧ t.errVal = s.errVal ∧
      t.outMem = s.outMem ∧ t.outLen = s.outLen :=
    ⟨same.phase, same.err, same.errPos, same.errVal, same.outMem, same.outLen⟩
  rcases step_cases hstep with ⟨hm, _⟩ | ⟨_, rfl⟩ | ⟨i, hop, hexec, hi, _⟩ | ⟨_, _, _, _, _, _, hbusy, _⟩
  · exact .inr (.inl hm)
  · exact .inl (hkeeps ⟨rfl, rfl, rfl, rfl, rfl, rfl⟩)
  · rcases execHost_sameEnd hi hexec with ⟨habort, _⟩ | ⟨hstart, _⟩ | same
    · exact .inr (.inr ⟨i, hop, .inr habort⟩)
    · exact .inr (.inr ⟨i, hop, .inl hstart⟩)
    · exact .inl (hkeeps ((sameEnd_advance s).trans same))
  · rcases hended with hp | hp <;> simp [hp, Phase.busy] at hbusy

/-! ### The errors that a state of the invariant can raise -/

/-- What an operation of the block does to the error record in a state of the invariant: MalformedInput is for the empty
code sequence, and OutputOverflow for an OUT_MAX below the longest output of N codes (41_decoder.md R111). -/
inductive RecordStep (s : State) : Instr → State → Prop
  | kept {i : Instr} {t : State} (herr : t.err = s.err) : RecordStep s i t
  | empty (hn : s.n = 0) (hlen : s.inLen.toNat ≤ 1) : RecordStep s .decEmpty (s.raise .malformedInput 0 0)
  | undefined {i : Instr} (val : Word) : RecordStep s i (s.raise .undefinedCodeReference s.cur val)
  | overflow {i : Instr} (val : Word) (hover : s.outMax.toNat < Config.maxEntryLen * s.n.toNat) :
      RecordStep s i (s.raise .outputOverflow s.cur val)

/-- Only an input of at most one byte has no code (40_unpacker.md R89). -/
theorem le_one_of_codeCount_eq_zero {L : Nat} (h : codeCount L = 0) : L ≤ 1 := by
  unfold codeCount at h
  split at h <;> omega

theorem InitInv.recordStep_empty {s : State} (h : InitInv s) (hcur : s.cur = s.n) :
    RecordStep s .decEmpty (s.raise .malformedInput 0 0) := by
  have hn : s.n = 0 := by
    rcases h.cur_n with hlt | ⟨hn, _⟩
    · exact absurd (congrArg BitVec.toNat hcur) (Nat.ne_of_lt hlt)
    · exact hn
  refine .empty hn (le_one_of_codeCount_eq_zero ?_)
  rw [← h.n, hn]
  rfl

/-- Each code consumed appended at most MAX_ENTRY_LEN bytes, and so would the one at CUR (R111). -/
theorem DecodeInv.outMax_lt_of_overflow {s : State} (h : DecodeInv s) (hcur : s.cur.toNat < s.n.toNat) {len : Nat}
    (hlen : len ≤ Config.maxEntryLen) (hover : s.outMax.toNat < s.olen.toNat + len) :
    s.outMax.toNat < Config.maxEntryLen * s.n.toNat :=
  calc s.outMax.toNat < s.olen.toNat + len := hover
    _ ≤ Config.maxEntryLen * s.cur.toNat + Config.maxEntryLen := Nat.add_le_add h.olen_cur hlen
    _ = Config.maxEntryLen * (s.cur.toNat + 1) := (Nat.mul_succ _ _).symm
    _ ≤ Config.maxEntryLen * s.n.toNat := Nat.mul_le_mul_left _ hcur

/-- The chunk of a defined code is the string of its slot (R100). -/
theorem State.refChunk_of_lt {s : State} {c : Code} (hc : c.toNat < s.next.toNat) :
    refChunk s.dictList s.prev c = some (s.slot c.toNat) := by
  rw [refChunk, State.dictList_length, if_pos hc, State.dictList_get s _ hc]

/-- The chunk of the code NEXT is PREV with its first byte again (R101). -/
theorem State.refChunk_of_eq {s : State} {c : Code} {first : Byte} {rest : Str} (hc : c.toNat = s.next.toNat)
    (hprev : s.prev = first :: rest) : refChunk s.dictList s.prev c = some (s.prev ++ [first]) := by
  rw [refChunk, State.dictList_length, if_neg (by omega), if_pos hc, hprev, List.take_succ_cons, List.take_zero]

/-- A code that has a chunk overflows OUT or is consumed: the chunk is not empty (R113) and no longer than R111 says. -/
theorem LoopInv.recordStep_chunk {s t : State} (h : LoopInv s) (i : Instr) {c : Code} {chunk : Str}
    (hcur : s.cur.toNat < s.n.toNat) (hnext : s.next.toNat < 4096) (hchunk : refChunk s.dictList s.prev c = some chunk)
    (hexec : appendThen chunk c s (defineEntry chunk c) = .next t) : RecordStep s i t := by
  rcases Nat.lt_or_ge s.outMax.toNat (s.olen.toNat + chunk.length) with hover | hfit
  · rw [appendThen_of_overflow _ _ hover] at hexec
    cases hexec
    have hlen := h.chunk_length hchunk
    have hbound : chunk.length ≤ 3841 := by omega
    exact .overflow _ (h.outMax_lt_of_overflow hcur hbound hover)
  · obtain ⟨first, rest, rfl⟩ := List.exists_cons_of_ne_nil (h.chunk_ne_nil hchunk)
    rw [consume_of_fit _ hnext hfit] at hexec
    cases hexec
    exact .kept rfl

/-- Each operation in the phase that selects it: only the chunk of a code and an empty sequence need the invariant. -/
theorem recordStep_of_selected {i : Instr} {s t : State} (hinv : Inv s) (hsel : Selected s i)
    (h : exec i s = .next t) : RecordStep s i t := by
  have hphase := hinv.phase
  cases hsel with
  | unpack3 _ _ | unpackTail2 _ _ =>
    simp only [exec, execUnpack3, execUnpackTail2] at h
    split at h <;> cases h
    exact .kept rfl
  | unpackTail1 _ _ | unpackEnd _ _ | decDone _ _ | decDictReset _ _ _ =>
    cases h
    exact .kept rfl
  | decEmpty hp hcur =>
    cases h
    exact ((phaseInv_decInit hp).1 hphase).recordStep_empty hcur
  | decInit hp hcur hc =>
    rcases Nat.lt_or_ge s.outMax.toNat (s.olen.toNat + 1) with hover | hfit
    · rw [exec_decInit_of_overflow _ hover] at h
      cases h
      exact .overflow _ (((phaseInv_decInit hp).1 hphase).outMax_lt_of_overflow hcur (by decide) hover)
    · rw [exec_decInit_of_fit _ hfit] at h
      cases h
      exact .kept rfl
  | decInitUndef _ _ _ | decStepUndef _ _ _ _ =>
    cases h
    exact .undefined _
  | decStepDefined hp hcur hnext hc =>
    rw [exec_decStepDefined (by omega)] at h
    exact ((phaseInv_decLoop hp).1 hphase).recordStep_chunk _ hcur hnext (State.refChunk_of_lt hc) h
  | decStepSelfref hp hcur hnext hc =>
    have hloop := (phaseInv_decLoop hp).1 hphase
    obtain ⟨first, rest, hprev⟩ := List.exists_cons_of_ne_nil hloop.prev_ne
    rw [exec_decStepSelfref _ hprev] at h
    exact hloop.recordStep_chunk _ hcur hnext (State.refChunk_of_eq hc hprev) h

/-- A host operation keeps the error, clears it, or is a refused START (42_host.md R122, R123). -/
theorem execHost_err {i : Instr} {s t : State} (hi : i.isHost = true) (h : exec i s = .next t) :
    t.err = s.err ∨ t.err = 0 ∨ t.err = 4 := by
  rcases execHost_sameEnd hi h with ⟨_, rfl⟩ | ⟨_, rfl⟩ | same
  · exact .inr (.inl rfl)
  · rcases startRun_cases s with ⟨_, e⟩ | ⟨_, _, e⟩ | ⟨_, _, e⟩ <;> rw [e]
    · exact .inl rfl
    · exact .inr (.inr rfl)
    · exact .inr (.inl rfl)
  · exact .inl same.err

/-- A step keeps the error, clears it, refuses a START, or is an operation of the block. -/
theorem step_err {s t : State} (hinv : Inv s) (hstep : step s = .next t) :
    (t.err = s.err ∨ t.err = 0 ∨ t.err = 4) ∨ ∃ i, s.operation = some i ∧ RecordStep s.popTurn i t := by
  rcases step_cases hstep with ⟨_, rfl⟩ | ⟨_, rfl⟩ | ⟨i, _, hexec, hi, _⟩ |
    ⟨f, i, hop, hexec, _, _, _, hadv, hf, hd⟩
  · exact .inl (.inr (.inl rfl))
  · exact .inl (.inl rfl)
  · rw [← (sameEnd_advance s).err]
    exact .inl (execHost_err hi hexec)
  · rw [hadv] at hexec
    have hsel : Selected s.popTurn i := selected_of_fetchBlock ((fetchBlock_popTurn s).trans hf) hd
    exact .inr ⟨i, hop, recordStep_of_selected (inv_popTurn hinv) hsel hexec⟩

/-- Settles O45: an overflow needs an OUT_MAX below 3841 * N, and N is at most N_MAX. -/
theorem largeOutputBufferNeverOverflows : Obligations.LargeOutputBufferNeverOverflows := by
  intro s t hinv hmax hstep herr
  rcases step_err hinv hstep with (hsame | hzero | hfour) | ⟨i, _, hrecord⟩
  · exact hsame.symm.trans herr
  · simp [herr] at hzero
  · simp [herr] at hfour
  · cases hrecord with
    | kept hsame => exact hsame.symm.trans herr
    | empty _ _ => simp [ErrorKind.code] at herr
    | undefined _ => simp [ErrorKind.code] at herr
    | overflow _ hover =>
      have hover : s.outMax.toNat < 3841 * s.n.toNat := hover
      have := hinv.space.n_le
      omega

/-- Settles O46: of the operations that raise an error, only DEC_EMPTY raises MalformedInput. -/
theorem malformedInputOnlyWhenEmpty : Obligations.MalformedInputOnlyWhenEmpty := by
  intro s t hinv hstep herr hne
  rcases step_err hinv hstep with (hsame | hzero | hfour) | ⟨i, hop, hrecord⟩
  · exact absurd (hsame.symm.trans herr) hne
  · simp [herr] at hzero
  · simp [herr] at hfour
  · cases hrecord with
    | kept hsame => exact absurd (hsame.symm.trans herr) hne
    | empty hn hlen => exact ⟨hop, hn, hlen, rfl, rfl⟩
    | undefined _ => simp [ErrorKind.code] at herr
    | overflow _ _ => simp [ErrorKind.code] at herr

end Sys2Proof.Machine
end

section
/-! PROOFS of the family 70_reset_and_hazards.md: turns that run no operation (R152, R153), and the code sequences that
Decode accepts (R157). -/

namespace Sys2Proof.Machine

/-! ### Waiting and block reset (R152, R153) -/

theorem stepHost_of_nil {s : State} (h : s.hostProg = []) : stepHost s = .next s := by
  simp only [stepHost, h]

/-- Settles O8: the block fetches nothing outside a run, and a host with no statement left does nothing. -/
theorem waitingBlockTakesNoStep : Obligations.WaitingBlockTakesNoStep :=
  fun s hb =>
    ⟨fun ht => (step_of_mover_block (mover_block (.inl ht))).trans (stepBlock_of_not_busy (s := s.popTurn) hb),
      fun ht hp => (step_of_not_busy ht hb).trans (stepHost_of_nil hp)⟩

/-- Settles O36: a block-reset turn answers the reset state, for every phase of the block. -/
theorem blockResetTurnCompletes : Obligations.BlockResetTurnCompletes :=
  fun s ht =>
    ⟨blockReset s.popTurn, step_of_blockReset ht, blockReset_phase _, blockReset_inMax _, blockReset_outMax _,
      blockReset_hostProg _, blockReset_rdata _, blockReset_turns _⟩

/-! ### The table of a generation after its first codes (41_decoder.md R105, R111) -/

/-- What `j` codes of a generation leave: NEXT = 255 + j, and no string longer than `j` bytes (R111). -/
structure GrownTable (j : Nat) (dict : List Str) (prev : Str) : Prop where
  dict_length : dict.length = 255 + j
  entry_length : ∀ str ∈ dict, str.length ≤ j
  prev_length : prev.length ≤ j

theorem grownTable_refBase (b : Byte) : GrownTable 1 refBase [b] where
  dict_length := refBase_length
  entry_length := by simp [refBase]
  prev_length := Nat.le_refl 1

section
variable {j : Nat} {dict : List Str} {prev : Str} (h : GrownTable j dict prev)
include h

theorem GrownTable.refChunk_of_gt {c : Code} (hc : 255 + j < c.toNat) : refChunk dict prev c = none := by
  have hlen := h.dict_length
  rw [refChunk, if_neg (by omega), if_neg (by omega)]

/-- A code up to NEXT has a chunk, one byte longer at most than what the table holds. -/
theorem GrownTable.exists_refChunk {c : Code} (hc : c.toNat ≤ 255 + j) :
    ∃ chunk, refChunk dict prev c = some chunk ∧ chunk.length ≤ j + 1 := by
  have hlen := h.dict_length
  have hprev := h.prev_length
  rcases Nat.lt_or_eq_of_le (hlen ▸ hc) with hlt | heq
  · have hentry := h.entry_length _ (List.getElem_mem hlt)
    refine ⟨dict[c.toNat], ?_, by omega⟩
    rw [refChunk, if_pos hlt, List.getElem?_eq_getElem hlt]
  · refine ⟨prev ++ prev.take 1, ?_, ?_⟩
    · rw [refChunk, if_neg (by omega), if_pos heq]
    · rw [List.length_append, List.length_take]
      omega

/-- The entry that a code defines is PREV and one byte (R105). -/
theorem GrownTable.grow {chunk : Str} (hchunk : chunk.length ≤ j + 1) :
    GrownTable (j + 1) (dict ++ [prev ++ chunk.take 1]) chunk where
  dict_length := by
    rw [List.length_append, h.dict_length]
    rfl
  entry_length := fun str hstr => by
    rcases List.mem_append.1 hstr with hold | hnew
    · exact (h.entry_length str hold).trans (Nat.le_succ j)
    · have hprev := h.prev_length
      rw [List.mem_singleton.1 hnew, List.length_append, List.length_take]
      omega
  prev_length := hchunk

end

/-! ### Decode accepts the codes up to NEXT (R157) -/

/-- What Decode holds before code number `i`: nothing at the start of a generation, or the table that the `j` codes of the
generation so far have left; at `j` = 3841 it is full, and the next code is a first code again (41_decoder.md R103). -/
inductive GenerationAt (i : Nat) : Option (List Str × Str) → Prop
  | fresh (hi : i % 3841 = 0) : GenerationAt i none
  | grown {j : Nat} {dict : List Str} {prev : Str} (hj : j ≤ 3841) (hi : i % 3841 = j % 3841)
      (table : GrownTable j dict prev) : GenerationAt i (some (dict, prev))

/-- R157 (b), (c) for codes from number `i` on. -/
def ValidFrom (i : Nat) (cs : List Code) : Prop :=
  ∀ k (h : k < cs.length), cs[k].toNat ≤ 255 + (i + k) % 3841

theorem validFrom_nil (i : Nat) : ValidFrom i [] := fun _ h => absurd h (Nat.not_lt_zero _)

theorem validFrom_cons (i : Nat) (c : Code) (rest : List Code) :
    ValidFrom i (c :: rest) ↔ c.toNat ≤ 255 + i % 3841 ∧ ValidFrom (i + 1) rest := by
  have hplace (k : Nat) : i + (k + 1) = i + 1 + k := by omega
  constructor
  · intro h
    refine ⟨h 0 (Nat.zero_lt_succ _), fun k hk => ?_⟩
    rw [← hplace]
    exact h (k + 1) (Nat.succ_lt_succ hk)
  · rintro ⟨hc, hrest⟩ k hk
    cases k with
    | zero => exact hc
    | succ k =>
      rw [hplace]
      exact hrest k (Nat.lt_of_succ_lt_succ hk)

/-- What Decode does with the code `c`, number `i`: it takes a code up to NEXT and goes on with the generation's table and
an output of at most 3841 bytes a code; any other code ends it. -/
inductive CodeOutcome (outMax : Nat) (gen : Option (List Str × Str)) (i : Nat) (out : Str) (c : Code)
    (rest : List Code) : Prop
  | taken {gen' : List Str × Str} {out' : Str} (hc : c.toNat ≤ 255 + i % 3841) (hgen : GenerationAt (i + 1) (some gen'))
      (hout : out'.length ≤ 3841 * (i + 1))
      (hstep : refDecodeFrom outMax gen i out (c :: rest) = refDecodeFrom outMax (some gen') (i + 1) out' rest)
  | undefined (hc : 255 + i % 3841 < c.toNat)
      (hstep : refDecodeFrom outMax gen i out (c :: rest) = .err .undefinedCodeReference i c.toNat)

section
variable {outMax i : Nat} {out : Str} (hout : out.length ≤ 3841 * i) (hroom : 3841 * (i + 1) ≤ outMax)
include hout hroom

/-- A literal begins a generation (R157 (b)). -/
theorem codeOutcome_first (c : Code) (rest : List Code) (hi : i % 3841 = 0) :
    CodeOutcome outMax none i out c rest := by
  rcases Nat.lt_or_ge c.toNat 256 with hc | hc
  · have hgen : GenerationAt (i + 1) (some (refBase, [c.setWidth 8])) :=
      .grown (by decide) (by omega) (grownTable_refBase (c.setWidth 8))
    refine .taken (by omega) hgen ?_ (refDecodeFrom_literal rest hc (by omega))
    rw [List.length_append, List.length_singleton]
    omega
  · exact .undefined (by omega) (refDecodeFrom_firstUndefined rest hc)

/-- A code up to NEXT makes a table with room grow (R157 (c)). -/
theorem GrownTable.codeOutcome {j : Nat} {dict : List Str} {prev : Str} (h : GrownTable j dict prev) (c : Code)
    (rest : List Code) (hj : j < 3841) (hi : i % 3841 = j) : CodeOutcome outMax (some (dict, prev)) i out c rest := by
  have hdict : dict.length < 4096 := by
    rw [h.dict_length]
    omega
  rcases Nat.lt_or_ge (255 + j) c.toNat with hc | hc
  · exact .undefined (by omega) (refDecodeFrom_undefined rest hdict (h.refChunk_of_gt hc))
  · obtain ⟨chunk, hchunk, hlen⟩ := h.exists_refChunk hc
    refine .taken (by omega) (.grown hj (by omega) (h.grow hlen)) ?_
      (refDecodeFrom_consume rest hdict hchunk (by omega))
    rw [List.length_append]
    omega

theorem GenerationAt.codeOutcome {gen : Option (List Str × Str)} (h : GenerationAt i gen) (c : Code)
    (rest : List Code) : CodeOutcome outMax gen i out c rest := by
  cases h with
  | fresh hi => exact codeOutcome_first hout hroom c rest hi
  | @grown _ dict prev hj hi table =>
    rcases Nat.lt_or_eq_of_le hj with hlt | rfl
    · exact table.codeOutcome hout hroom c rest hlt (hi.trans (Nat.mod_eq_of_lt hlt))
    · have hfull : refDecodeFrom outMax (some (dict, prev)) i out (c :: rest) =
          refDecodeFrom outMax none i out (c :: rest) :=
        refDecodeFrom_full _ table.dict_length (List.cons_ne_nil c rest)
      cases codeOutcome_first hout hroom c rest hi with
      | taken hc hgen hout' hstep => exact .taken hc hgen hout' (hfull.trans hstep)
      | undefined hc hstep => exact .undefined hc (hfull.trans hstep)

end

/-- Decode of the codes from number `i` on ends well exactly when they are valid and some code has been taken. -/
theorem GenerationAt.decodes_iff {outMax : Nat} {cs : List Code} :
    ∀ {i : Nat} {gen : Option (List Str × Str)} {out : Str}, GenerationAt i gen → out.length ≤ 3841 * i →
      3841 * (i + cs.length) ≤ outMax →
      ((∃ o, refDecodeFrom outMax gen i out cs = .ok o) ↔ (gen ≠ none ∨ cs ≠ []) ∧ ValidFrom i cs) := by
  induction cs with
  | nil =>
    intro i gen out _ _ _
    cases gen <;> simp [refDecodeFrom, validFrom_nil]
  | cons c rest ih =>
    intro i gen out h hout hroom
    rw [List.length_cons] at hroom
    rw [validFrom_cons]
    cases h.codeOutcome hout (show 3841 * (i + 1) ≤ outMax by omega) c rest with
    | taken hc hgen hout' hstep =>
      rw [hstep, ih hgen hout' (by omega)]
      simp [hc]
    | undefined hc hstep => simp [hstep, Nat.not_le.2 hc]

/-- Settles O53: before its first code Decode is at the start of a generation, with an empty output. -/
theorem decodeSucceedsExactlyOnValidCodes : Obligations.DecodeSucceedsExactlyOnValidCodes := by
  intro outMax cs hroom
  have hfresh : GenerationAt 0 none := .fresh rfl
  have h := hfresh.decodes_iff (outMax := outMax) (out := []) (cs := cs) (Nat.le_refl 0) (by rwa [Nat.zero_add])
  simpa [refDecode, ValidFrom] using h

end Sys2Proof.Machine
end
